-- ==== Sys2Proof/Word.lean ====
section
/-! DEFINITION. The word types of the command port and of the two serial buses (spec/30_encoding.md rules R70, R77). -/

namespace Sys2Proof

/-- A byte of the host buffer or of a serial bus (00 section 5: "A byte is 8 bits"). -/
abbrev Byte := BitVec 8

/-- A command word `cw` or an operand word `ow` (R70: "the port is 32 bits wide"). -/
abbrev Word := BitVec 32

/-- A flash byte address, or the argument `cw[23:0]` of a command word (R42, R70). -/
abbrev Addr := BitVec 24

/-- The bits as the decoder finds them: a host command's two words, or the bytes of a wire frame
from the first byte out on (R70, R77). A format without an operand word leaves `ow` unread. -/
inductive Words where
  | command (cw ow : Word)
  | frame (bytes : List Byte)
  deriving DecidableEq, Repr

end Sys2Proof
end

