-- ==== Sys2Proof/Config.lean ====
section
/-! DEFINITION. The implementation parameters of spec/00_scope.md section 4, the source's constants, and the free
values: answers of the environment that the spec leaves open (opaque constants, no body). -/

namespace Sys2Proof

/-- The implementation parameters (00 section 4: "A model takes these as a configuration record"). The model carries
one in its state and never changes it, so that a statement about every state is a statement about every value of
every parameter (log 1). -/
structure Config where
  /-- `SECTOR_SIZE`, at least 1. -/
  sectorSize : Nat
  /-- `PAGE_SIZE`, at least 1. -/
  pageSize : Nat
  /-- `CRAM_CS_ACTIVE`. -/
  cramCsActive : Bool
  /-- `FLASH_CS_ACTIVE`. -/
  flashCsActive : Bool
  /-- `LEAD_CLOCKS`, OPEN. -/
  leadClocks : Nat
  /-- `LEAD_CS_LEVEL`, OPEN. -/
  leadCsLevel : Bool
  /-- `TRAIL_CLOCKS`, OPEN. -/
  trailClocks : Nat
  /-- `CDONE_POLL_MAX`, OPEN, at least 1. -/
  cdonePollMax : Nat
  /-- `WIP_POLL_MAX`, OPEN, at least 1. -/
  wipPollMax : Nat
  /-- `OP_WREN`. -/
  opWren : Byte
  /-- `OP_SE`. -/
  opSe : Byte
  /-- `OP_PP`. -/
  opPp : Byte
  /-- `OP_RDSR`. -/
  opRdsr : Byte
  /-- `WIP_BIT`. -/
  wipBit : Fin 8
  /-- `PINS_ALIASED`. -/
  pinsAliased : Bool
  /-- The configuration R110 and D18 allow: a block whose pins are plain wires, whose oracle answers 0 at every site. -/
  plainWires : Bool
  deriving DecidableEq, Repr

/-- The defaults of 00 section 4. DESIGN CHOICE (log 1) for the five OPEN parameters. -/
def Config.standard : Config where
  sectorSize := 4096
  pageSize := 256
  cramCsActive := false
  flashCsActive := false
  leadClocks := 8
  leadCsLevel := true
  trailClocks := 160
  cdonePollMax := 3
  wipPollMax := 3
  opWren := 0x06
  opSe := 0x20
  opPp := 0x02
  opRdsr := 0x05
  wipBit := 0
  pinsAliased := false
  plainWires := false

/-- The lower bounds 00 section 4 puts on the parameters. -/
def Config.ok (c : Config) : Bool :=
  decide (1 ≤ c.sectorSize) && decide (1 ≤ c.pageSize) && decide (1 ≤ c.cdonePollMax) && decide (1 ≤ c.wipPollMax)

/-- Bytes are at most one of the four frames (R78): the two frames of one byte differ, and so do the two of four bytes or
more (log 21). -/
def Config.framesDistinct (c : Config) : Bool := decide (c.opWren ≠ c.opRdsr) && decide (c.opSe ≠ c.opPp)

/-- `FPGA_FREQ_DEFAULT`, kHz (R21). -/
def Config.fpgaFreqDefault : Word := 48

/-- `FLASH_FREQ_DEFAULT`, Hz (R21). -/
def Config.flashFreqDefault : Word := 10000000

/-- `MAX_LEN` = 2^`ADDR_BITS` with `ADDR_BITS` = 24 (D32). -/
def Config.maxLen : Nat := 2 ^ 24

/-- `FLASH_BYTES`, the size of a reference flash: at most 2^24 (R51). -/
abbrev FlashBytes := Fin (2 ^ 24 + 1)

/-- The default of `FLASH_BYTES`, 2^24 (R51, 00 section 4). -/
def Config.flashBytesDefault : FlashBytes := Fin.last (2 ^ 24)

/-- The sites at which the fault oracle is consulted (R110). -/
inductive FaultSite where
  | fpgaStop
  | cramOpen
  | cramWrite (i : Nat)
  | flashInit
  deriving DecidableEq, Repr

/-- Free value (log 2): the answer of the `n`-th unqueued `Sample(CDONE)` (R103: "a draw: the loader's rules put no law
on it"). -/
opaque Config.freeCdone : Nat → Bool

/-- Free value (log 2): the answer of the `n`-th unqueued `Sample(F_MISO)` (R103). -/
opaque Config.freeMiso : Nat → Bool

/-- Free value (log 3): the oracle's `n`-th unqueued answer, at the site it is asked (R110, U9). -/
opaque Config.freeFault : FaultSite → Nat → Bool

/-- Free value (log 13): how many status reads the reference flash stays busy after its `n`-th unqueued erase or
program (R57, R58: "a draw"). -/
opaque Config.freeBusy : Nat → Nat

/-- Free value (log 22): the `n`-th draw of `T.done` at a reset of the loader (R60: "a draw (the FPGA's state is
unknown)"). -/
opaque Config.freeDone : Nat → Bool

/-- Free value (log 12): the `n`-th predicate `VALID` that no list of streams gives (R61: "a parameter of the reference
environment"). Whatever set of streams it is, finite or not, what is proved holds of it. -/
opaque Config.freeValid : Nat → List Byte → Bool

end Sys2Proof
end

