-- ==== Sys2Proof/Syntax.lean ====
section
/-! DEFINITION. The instructions: one constructor for each row of spec/opcode_table.json, the fifteen host commands
(spec/30_encoding.md rule R72) and the four wire frames (R78). A command's buffer is no operand: it is the address
space BUF (spec/20_memory.md rule R41), of which the command reads `len` bytes. -/

namespace Sys2Proof

/-- The host commands and the wire frames. -/
inductive Instr where
  /-- `FPGA_INIT freq`, kHz (R120). -/
  | fpgaInit (freq : Word)
  /-- `FPGA_START` (R121). -/
  | fpgaStart
  /-- `FPGA_STOP` (R124). -/
  | fpgaStop
  /-- `FPGA_RESET` (R125). -/
  | fpgaReset
  /-- `CRAM_OPEN` (R140). -/
  | cramOpen
  /-- `CRAM_WRITE`, `len` bytes of BUF (R142). -/
  | cramWrite (len : Word)
  /-- `CRAM_CLOSE` (R143). -/
  | cramClose
  /-- `CRAM_LOAD`, `len` bytes of BUF (R145). -/
  | cramLoad (len : Word)
  /-- `FLASH_CONFIG freq`, Hz (R160). -/
  | flashConfig (freq : Word)
  /-- `FLASH_INIT freq`, Hz (R161). -/
  | flashInit (freq : Word)
  /-- `FLASH_ERASE_SECTOR offset` (R167). -/
  | flashEraseSector (offset : Addr)
  /-- `FLASH_PROGRAM_PAGE offset`, `len` bytes of BUF (R168). -/
  | flashProgramPage (offset : Addr) (len : Word)
  /-- `FLASH_DEINIT` (R162). -/
  | flashDeinit
  /-- `FLASH_WRITE`, `len` bytes of BUF (R191). -/
  | flashWrite (len : Word)
  /-- `FLASH_ERASE len` (R192). -/
  | flashErase (len : Word)
  /-- The frame `WREN` (R163). -/
  | wren
  /-- The frame `SE addr` (R164). -/
  | se (addr : Addr)
  /-- The frame `PP addr data` (R165). -/
  | pp (addr : Addr) (data : List Byte)
  /-- The frame `RDSR` (R166). -/
  | rdsr
  deriving DecidableEq, Repr

end Sys2Proof
end

