-- ==== Sys2Proof/Machine/State.lean ====
section
/-! DEFINITION. The machine's state as plain data: the loader's registers (spec/10_state.md rules R11 to R17), the trace
(spec/40_gpio_bitbang.md rule R100), and what the spec makes an argument of the step (R10): the parameters, the commands
and buffers the host presents, the environment's draws, and the two target chips where a run assumes them. -/

namespace Sys2Proof.Machine

/-- The ten pins (R14). -/
inductive Pin where
  | cdone
  | clock
  | creset
  | cCs
  | cDo
  | cSck
  | fSck
  | fMosi
  | fMiso
  | fCs
  deriving DecidableEq, Repr

/-- A pin's direction: `IN`, not driven, or `OUT`, driving its latch (R14). -/
inductive Dir where
  | input
  | output
  deriving DecidableEq, Repr

/-- What an output latch holds: 0, 1, or the spec's own `U`, which no rule reads (R14, 00 section 5; log 4). -/
inductive Level where
  | zero
  | one
  | u
  deriving DecidableEq, Repr

/-- `pin[P].dir` and `pin[P].lvl` (R14). -/
structure PinReg where
  dir : Dir
  lvl : Level
  deriving DecidableEq, Repr

/-- The ten pin registers (R14). -/
structure Pins where
  cdone : PinReg
  clock : PinReg
  creset : PinReg
  cCs : PinReg
  cDo : PinReg
  cSck : PinReg
  fSck : PinReg
  fMosi : PinReg
  fMiso : PinReg
  fCs : PinReg
  deriving DecidableEq, Repr

/-- The five kinds of pin event (R100). -/
inductive Event where
  | drv (p : Pin) (v : Bool)
  | dir (p : Pin) (d : Dir)
  | smp (p : Pin) (v : Bool)
  | clkOn (f : Word)
  | clkOff
  deriving DecidableEq, Repr

/-- `fpga.phase` (R11, R16). -/
inductive Phase where
  | unpowered
  | resetHeld
  | clocking
  | configured
  deriving DecidableEq, Repr

/-- The FPGA device registers (R11). -/
structure FpgaRegs where
  bound : Bool
  freqKhz : Word
  phase : Phase
  deriving DecidableEq, Repr

/-- The CRAM session registers (R12); `isOpen` is `cram.open`. -/
structure CramRegs where
  isOpen : Bool
  bytes : Word
  deriving DecidableEq, Repr

/-- The flash device registers (R13). -/
structure FlashRegs where
  freqHz : Word
  active : Bool
  deriving DecidableEq, Repr

/-- The clock generator of the CLOCK pin (R14, R19, R104); `none` is the `U` that `clk.freq_khz` holds before the first
`ClockRun` (R21; log 4). -/
structure ClkRegs where
  running : Bool
  freqKhz : Option Word
  deriving DecidableEq, Repr

/-- The transient datapath registers (R17); `none` is their `U` between commands. -/
structure Transient where
  shByte : Option Byte
  shBit : Option (BitVec 3)
  seqIdx : Option Word
  seqAddr : Option Addr
  seqUnit : Option Word
  seqPoll : Option Word
  deriving DecidableEq, Repr

/-- Every transient register at `U` (R17, R21). -/
def Transient.unset : Transient := ⟨none, none, none, none, none, none⟩

/-- A byte memory: pairs of address and byte, addresses strictly rising, none equal to what an unlisted address reads as
(log 10). -/
abbrev Memory := List Host.Cell

/-- `VALID`, the reference environment's predicate on streams (R61): the streams of a list, or a predicate of which nothing
is said, a free value (log 12). -/
inductive ValidStreams where
  | listed (streams : List (List Byte))
  | free (n : Nat)
  deriving DecidableEq, Repr

/-- The reference FPGA (R60, R61): `T.done`, `T.stream`, and `VALID`. -/
structure RefFpga where
  done : Bool
  stream : List Byte
  valid : ValidStreams
  deriving DecidableEq, Repr

/-- The reference flash (R55): `F.mem`, `F.wel`, `F.busy`, `FLASH_BYTES` (at most 2^24: R51); the bytes shifted out in the
running frame; the queued busy draws and the number of free ones (log 13); and whether a frame addressed a byte beyond the
chip (U5; log 15). -/
structure RefFlash where
  mem : Memory
  wel : Bool
  busy : Nat
  size : FlashBytes
  out : List Byte
  draws : List Nat
  nBusy : Nat
  beyond : Bool
  deriving DecidableEq, Repr

/-- The environment (R2): queued answers and the numbers of free ones (log 2, 3, 22), and the two target chips of
20 section 8, each absent (its line answers with draws) or present (log 11). -/
structure World where
  cdone : List Bool
  miso : List Bool
  faults : List Bool
  nCdone : Nat
  nMiso : Nat
  nFault : Nat
  nDone : Nat
  fpga : Option RefFpga
  flash : Option RefFlash
  deriving DecidableEq, Repr

/-- One presentation at the command port (R70): the words, and the contents of BUF (R41). -/
structure Request where
  words : Words
  buf : Memory
  deriving DecidableEq, Repr

/-- The machine. `fpga` to `tmp` are the loader's registers (R11 to R17); `trace` is every event since reset, oldest first
(log 5); `port` is what the host presents next, `buf` is BUF of the running command (log 6, 10); `world` is the
environment; `cfg` is the parameters (log 1). -/
structure State where
  fpga : FpgaRegs
  cram : CramRegs
  flash : FlashRegs
  clk : ClkRegs
  pins : Pins
  res : Byte
  tmp : Transient
  trace : List Event
  port : List Request
  buf : Memory
  world : World
  cfg : Config
  deriving DecidableEq, Repr

/-- No fault exists: every failure of a command is a result code in `res`, after which the next command is accepted
(spec/60_exceptions.md rules R210, R215, R217; log 16). Safe: nothing stops. -/
inductive Fault where
  deriving DecidableEq, Repr

/-- The launches to which the spec gives no meaning. -/
inductive Refusal where
  /-- Raised by `exec` for an instruction that has no meaning in the model. Safe: the model stops. -/
  | notModelled (mnemonic : String)
  /-- Raised by CRAM_OPEN, CRAM_LOAD, FLASH_INIT, FLASH_WRITE and FLASH_ERASE when, with `PINS_ALIASED`, they would hold a
  CRAM session and a flash bracket together (R255: "this spec gives no meaning to a run that does not", U12; log 14).
  Safe: the model stops. -/
  | aliasedBusesBothHeld
  /-- Raised by the commands and frames that address the reference flash at or beyond its size (U5; log 15). Safe: the
  model stops. -/
  | flashAddressBeyondChip
  /-- Raised by the step on a frame request whose bytes are none of the four frames ("the loader sends no other", R78;
  log 7). Safe: the model stops. -/
  | noSuchFrame
  deriving DecidableEq, Repr

/-- Every pin as R21 leaves it. -/
def Pins.reset : Pins where
  cdone := ⟨.input, .u⟩
  clock := ⟨.output, .u⟩
  creset := ⟨.output, .u⟩
  cCs := ⟨.input, .u⟩
  cDo := ⟨.input, .u⟩
  cSck := ⟨.input, .u⟩
  fSck := ⟨.input, .u⟩
  fMosi := ⟨.input, .u⟩
  fMiso := ⟨.input, .u⟩
  fCs := ⟨.input, .u⟩

/-- An environment of which nothing is said: no queued answer, no chip assumed (R241; log 2, 11). -/
def World.free : World := ⟨[], [], [], 0, 0, 0, 0, none, none⟩

/-- R21 and R240, for a block with given parameters in a given environment, which the reset does not touch (R241). -/
def State.resetIn (c : Config) (w : World) : State where
  fpga := ⟨false, Config.fpgaFreqDefault, .unpowered⟩
  cram := ⟨false, 0⟩
  flash := ⟨Config.flashFreqDefault, false⟩
  clk := ⟨false, none⟩
  pins := Pins.reset
  res := 0
  tmp := Transient.unset
  trace := []
  port := []
  buf := []
  world := w
  cfg := c

/-- R21 and R240, for a block with given parameters, in an environment of which nothing is said. -/
def State.resetWith (c : Config) : State := State.resetIn c World.free

/-- The machine right after reset (R21, R240), with the default parameters of 00 section 4 (log 1). -/
def State.reset : State := State.resetWith Config.standard

end Sys2Proof.Machine
end

