-- ==== Sys2Proof/Machine/Flags.lean ====
section
/-! DEFINITION. The result codes (spec/60_exceptions.md rule R211) and the flags a command tests (spec/10_state.md
rule R18). -/

namespace Sys2Proof.Machine

/-- The error kinds (R211). -/
inductive Code where
  | ok
  | cdoneTimeout
  | wipTimeout
  | sessionOpen
  | notOpen
  | stream
  | setup
  | pinFault
  | notInit
  | range
  | illegal
  deriving DecidableEq, Repr

/-- The number of each code (R211). -/
def Code.byte : Code → Byte
  | .ok => 0
  | .cdoneTimeout => 1
  | .wipTimeout => 2
  | .sessionOpen => 3
  | .notOpen => 4
  | .stream => 5
  | .setup => 6
  | .pinFault => 7
  | .notInit => 8
  | .range => 9
  | .illegal => 10

/-- The success bit `res = 0` (R18, R74). -/
def State.succeeded (s : State) : Bool := s.res == 0

/-- Bit `WIP_BIT` of a status byte, the only one looked at (R43, R166). -/
def wipSet (c : Config) (status : Byte) : Bool := status.getLsbD c.wipBit

/-- The latch level a driven bit is (R101). -/
def Level.ofBit : Bool → Level
  | false => .zero
  | true => .one

/-- A session and a bracket held together, which `PINS_ALIASED` leaves without meaning (R255, U12). -/
def State.busesBothHeld (s : State) : Bool := s.cram.isOpen && s.flash.active

end Sys2Proof.Machine
end

