-- ==== Sys2Proof/WellFormed.lean ====
section
/-! DEFINITION. Which instruction terms the encodings admit. Every operand but a frame's data list has exactly the width
of its field (spec/30_encoding.md rules R71, R73), so the one check is the length of a page-program frame (R77). -/

namespace Sys2Proof

/-- R77: a W4D frame carries `0 <= n <= PAGE_SIZE` data bytes. -/
def Instr.wellFormed (c : Config) : Instr → Bool
  | .fpgaInit _ => true
  | .fpgaStart => true
  | .fpgaStop => true
  | .fpgaReset => true
  | .cramOpen => true
  | .cramWrite _ => true
  | .cramClose => true
  | .cramLoad _ => true
  | .flashConfig _ => true
  | .flashInit _ => true
  | .flashEraseSector _ => true
  | .flashProgramPage _ _ => true
  | .flashDeinit => true
  | .flashWrite _ => true
  | .flashErase _ => true
  | .wren => true
  | .se _ => true
  | .pp _ data => decide (data.length ≤ c.pageSize)
  | .rdsr => true

end Sys2Proof
end

