-- ==== Sys2Proof/Decode.lean ====
section
/-! DEFINITION. Decoding of command words and of wire frames, total and rejecting by name (spec/30_encoding.md rules R75,
R76, R78, R80), the encoder beside it, and the host's `decodeTableWord`. -/

namespace Sys2Proof

/-- Why the bits are no instruction. A command word is illegal for one of R75's two reasons; bytes are no frame because
their first byte is none of the four commands or their number does not fit its shape (R77, R78). -/
inductive Reject where
  | illegalOpcode
  | argumentNotZero
  | noSuchFrame
  | frameShape
  deriving DecidableEq, Repr

/-- `op = cw[31:24]` (R70). -/
def opcodeOf (cw : Word) : Byte := cw.extractLsb' 24 8

/-- `arg24 = cw[23:0]` (R70). -/
def argOf (cw : Word) : Addr := cw.extractLsb' 0 24

/-- Formats N, F, B and L need `cw[23:0] = 0` (R71, R75). -/
def zeroArg (arg : Addr) (i : Instr) : Except Reject Instr :=
  if arg = 0 then .ok i else .error .argumentNotZero

/-- R76 on a command word and the operand word its format takes. -/
def decodeCommand (cw ow : Word) : Except Reject Instr :=
  let op := opcodeOf cw
  let arg := argOf cw
  if op = 0x10 then zeroArg arg (.fpgaInit ow)
  else if op = 0x11 then zeroArg arg .fpgaStart
  else if op = 0x12 then zeroArg arg .fpgaStop
  else if op = 0x13 then zeroArg arg .fpgaReset
  else if op = 0x20 then zeroArg arg .cramOpen
  else if op = 0x21 then zeroArg arg (.cramWrite ow)
  else if op = 0x22 then zeroArg arg .cramClose
  else if op = 0x23 then zeroArg arg (.cramLoad ow)
  else if op = 0x30 then zeroArg arg (.flashConfig ow)
  else if op = 0x31 then zeroArg arg (.flashInit ow)
  else if op = 0x32 then .ok (.flashEraseSector arg)
  else if op = 0x33 then .ok (.flashProgramPage arg ow)
  else if op = 0x34 then zeroArg arg .flashDeinit
  else if op = 0x35 then zeroArg arg (.flashWrite ow)
  else if op = 0x36 then zeroArg arg (.flashErase ow)
  else .error .illegalOpcode

/-- The address bytes of a frame, in the order sent: `a2`, `a1`, `a0` (R80). -/
def addrBytes (a : Addr) : List Byte :=
  [a.extractLsb' 16 8, a.extractLsb' 8 8, a.extractLsb' 0 8]

/-- The address three bytes stand for, high byte first (R80, R57). -/
def addrOfBytes (a2 a1 a0 : Byte) : Addr := a2 ++ a1 ++ a0

/-- Why bytes are none of the four frames: their first byte is none of the four commands, or their number fits no shape
(R77, R78). -/
def frameReject (c : Config) (cmd : Byte) : Reject :=
  if cmd = c.opWren ∨ cmd = c.opSe ∨ cmd = c.opPp ∨ cmd = c.opRdsr then .frameShape else .noSuchFrame

/-- Which of the four frames a list of bytes out is, by its first byte and its number of bytes (R77, R78). The loader itself
decodes no frame (R79): the reference flash does (R55 to R58), and the model's port where a frame stands in it (log 7).
DESIGN CHOICE (log 21): the spec does not say that the four opcode parameters differ. Where two are equal, frames of
different shapes are still told apart; one byte that is both `OP_WREN` and `OP_RDSR` is read as WREN, and four bytes whose
first is both `OP_SE` and `OP_PP` as SE. -/
def decodeFrame (c : Config) (bytes : List Byte) : Except Reject Instr :=
  match bytes with
  | [] => .error .frameShape
  | [cmd] =>
    if cmd = c.opWren then .ok .wren
    else if cmd = c.opRdsr then .ok .rdsr
    else .error (frameReject c cmd)
  | cmd :: a2 :: a1 :: a0 :: data =>
    if cmd = c.opSe ∧ data = [] then .ok (.se (addrOfBytes a2 a1 a0))
    else if cmd = c.opPp ∧ data.length ≤ c.pageSize then .ok (.pp (addrOfBytes a2 a1 a0) data)
    else .error (frameReject c cmd)
  | cmd :: _ => .error (frameReject c cmd)

/-- The decoder of both spaces. -/
def decode (c : Config) : Words → Except Reject Instr
  | .command cw ow => decodeCommand cw ow
  | .frame bytes => decodeFrame c bytes

/-- A command word from its two fields (R70). -/
def commandWord (op : Byte) (arg : Addr) : Word := op ++ arg

/-- The words of an instruction, from R71, R72, R77 and R78; an absent operand word is written 0. -/
def encode (c : Config) : Instr → Words
  | .fpgaInit freq => .command (commandWord 0x10 0) freq
  | .fpgaStart => .command (commandWord 0x11 0) 0
  | .fpgaStop => .command (commandWord 0x12 0) 0
  | .fpgaReset => .command (commandWord 0x13 0) 0
  | .cramOpen => .command (commandWord 0x20 0) 0
  | .cramWrite len => .command (commandWord 0x21 0) len
  | .cramClose => .command (commandWord 0x22 0) 0
  | .cramLoad len => .command (commandWord 0x23 0) len
  | .flashConfig freq => .command (commandWord 0x30 0) freq
  | .flashInit freq => .command (commandWord 0x31 0) freq
  | .flashEraseSector offset => .command (commandWord 0x32 offset) 0
  | .flashProgramPage offset len => .command (commandWord 0x33 offset) len
  | .flashDeinit => .command (commandWord 0x34 0) 0
  | .flashWrite len => .command (commandWord 0x35 0) len
  | .flashErase len => .command (commandWord 0x36 0) len
  | .wren => .frame [c.opWren]
  | .se addr => .frame (c.opSe :: addrBytes addr)
  | .pp addr data => .frame (c.opPp :: (addrBytes addr ++ data))
  | .rdsr => .frame [c.opRdsr]

/-- How many bytes of a frame the loader sends at least, from its first byte (R77): the operand bytes the table's row may
leave out are zeros. -/
def frameHead (c : Config) (cmd : Byte) : Nat :=
  if cmd = c.opSe ∨ cmd = c.opPp then 4 else 1

/-- `n` bytes of `w` from bit `8 k` on, the byte of the lowest bits first. -/
def bytesFrom (w : Nat) : (n k : Nat) → List Byte
  | 0, _ => []
  | n + 1, k => BitVec.ofNat 8 (w >>> (8 * k)) :: bytesFrom w n (k + 1)

/-- The bytes of a frame out of a table word whose lowest byte is the first byte out; only a page program goes on past
its head (R77). -/
def tableFrame (c : Config) (nbits w : Nat) : List Byte :=
  let cmd := BitVec.ofNat 8 w
  bytesFrom w (if cmd = c.opPp then max 4 (nbits / 8) else frameHead c cmd) 0

/-- The bits of a table row laid out for the decoder: 32 bits or more are a command word and then its operand word, unless
they decode only as a frame; fewer are a frame's bytes (log 17). -/
def tableWords (nbits w : Nat) : Words :=
  let cmd := Words.command (BitVec.ofNat 32 w) (BitVec.ofNat 32 (w >>> 32))
  let frm := Words.frame (tableFrame Config.standard nbits w)
  if nbits < 32 then frm
  else
    match decode Config.standard cmd, decode Config.standard frm with
    | .error _, .ok _ => frm
    | _, _ => cmd

/-- The instruction the decoder reads from a row's bits, with the default frame opcodes of 00 section 4. -/
def decodeTableWord (nbits w : Nat) : Option Instr :=
  match decode Config.standard (tableWords nbits w) with
  | .ok i => some i
  | .error _ => none

end Sys2Proof
end

