-- ==== Sys2Proof/Machine/Operands.lean ====
section
/-! DEFINITION. How a command's operands and buffer are read: the memories as lists of cells, `MemRead` of BUF
(spec/20_memory.md rule R41), and the erase/program plan of a length (spec/44_flash_orchestration.md rule R190). -/

namespace Sys2Proof.Machine

/-- What an unlisted address reads as, in BUF and in the reference flash: `0xFF`, an erased flash byte (R57). Any contents
can be listed, so this says nothing about the contents (log 10). -/
def Memory.blank : Byte := 0xFF

/-- The byte at an address. -/
def Memory.read : Memory → Nat → Byte
  | [], _ => Memory.blank
  | (k, v) :: m, a => if a = k then v else Memory.read m a

/-- The memory with one byte written, in canonical form. -/
def Memory.write : Memory → Nat → Byte → Memory
  | [], a, v => if v = Memory.blank then [] else [(a, v)]
  | (k, w) :: m, a, v =>
    if a < k then (if v = Memory.blank then (k, w) :: m else (a, v) :: (k, w) :: m)
    else if a = k then (if v = Memory.blank then m else (a, v) :: m)
    else (k, w) :: Memory.write m a v

/-- `MemWrite(lo, n, 0xFF repeated)` (R57): every listed byte of the range goes. -/
def Memory.eraseRange (m : Memory) (lo n : Nat) : Memory :=
  m.filter (fun c => decide (c.1 < lo) || decide (lo + n ≤ c.1))

/-- The canonical form: addresses strictly rising, no byte listed that an unlisted address reads as. -/
abbrev Memory.wf (m : Memory) : Prop :=
  m.Pairwise (fun a b => a.1 < b.1) ∧ ∀ c ∈ m, c.2 ≠ Memory.blank

/-- `MemRead(addr, n)` as a list, lowest offset first (R41). -/
def Memory.slice (m : Memory) (addr : Nat) : Nat → List Byte
  | 0 => []
  | n + 1 => m.read addr :: m.slice (addr + 1) n

/-- `ceil_div(a, b)` (00 section 5). -/
def ceilDiv (a b : Nat) : Nat := (a + b - 1) / b

/-- `nsect(L)` (R190). -/
def nsect (c : Config) (len : Nat) : Nat := ceilDiv len c.sectorSize

/-- `sect_off(s)` (R190). -/
def sectOff (c : Config) (s : Nat) : Nat := s * c.sectorSize

/-- `npage(L)` (R190). -/
def npage (c : Config) (len : Nat) : Nat := ceilDiv len c.pageSize

/-- `page_off(p)` (R190). -/
def pageOff (c : Config) (p : Nat) : Nat := p * c.pageSize

/-- `page_len(L, p)` (R190). -/
def pageLen (c : Config) (len p : Nat) : Nat := min c.pageSize (len - p * c.pageSize)

/-- A plan's offset as the 24 bits a frame sends (R80, R190). -/
def planAddr (off : Nat) : Addr := BitVec.ofNat 24 off

end Sys2Proof.Machine
end

