-- ==== Sys2Proof/Machine/Ops.lean ====
section
/-! DEFINITION. The named operations every meaning is written in: the pin registers, the target chips' answers
(spec/20_memory.md rules R55 to R61), the bit-bang primitives (spec/40_gpio_bitbang.md rules R101 to R110), ending a
command with a result code (spec/60_exceptions.md rules R210, R215), and the command port. -/

namespace Sys2Proof.Machine

/-! ### Pin registers -/

/-- The register of a pin (R14). -/
def Pins.get (r : Pins) : Pin → PinReg
  | .cdone => r.cdone
  | .clock => r.clock
  | .creset => r.creset
  | .cCs => r.cCs
  | .cDo => r.cDo
  | .cSck => r.cSck
  | .fSck => r.fSck
  | .fMosi => r.fMosi
  | .fMiso => r.fMiso
  | .fCs => r.fCs

/-- The pin registers with one of them replaced. -/
def Pins.set (r : Pins) (p : Pin) (x : PinReg) : Pins :=
  match p with
  | .cdone => { r with cdone := x }
  | .clock => { r with clock := x }
  | .creset => { r with creset := x }
  | .cCs => { r with cCs := x }
  | .cDo => { r with cDo := x }
  | .cSck => { r with cSck := x }
  | .fSck => { r with fSck := x }
  | .fMosi => { r with fMosi := x }
  | .fMiso => { r with fMiso := x }
  | .fCs => { r with fCs := x }

/-- `pin[P].lvl <- v`. -/
def Pins.setLevel (r : Pins) (p : Pin) (v : Level) : Pins := r.set p { r.get p with lvl := v }

/-- `pin[P].dir <- d`. -/
def Pins.setDir (r : Pins) (p : Pin) (d : Dir) : Pins := r.set p { r.get p with dir := d }

/-! ### The reference chips (20 section 8, not normative; present only where a run assumes them: log 11) -/

/-- `F.busy <-` a draw (R57, R58; log 13). -/
def RefFlash.drawBusy (f : RefFlash) : RefFlash :=
  match f.draws with
  | d :: rest => { f with busy := d, draws := rest }
  | [] => { f with busy := Config.freeBusy f.nBusy, nBusy := f.nBusy + 1 }

/-- R57: `base = A - (A mod SECTOR_SIZE)`. -/
def eraseBase (c : Config) (a : Addr) : Nat := a.toNat - a.toNat % c.sectorSize

/-- R58: the byte of the array that data byte `i` goes to, wrapping inside the page. -/
def programTarget (c : Config) (a : Addr) (i : Nat) : Nat :=
  a.toNat - a.toNat % c.pageSize + (a.toNat + i) % c.pageSize

/-- R58: the data bytes from index `i` on are anded into the array, in order. -/
def programBytes (c : Config) (a : Addr) : List Byte → Nat → Memory → Memory
  | [], _, m => m
  | d :: rest, i, m =>
    programBytes c a rest (i + 1) (m.write (programTarget c a i) (m.read (programTarget c a i) &&& d))

/-- R57 on an idle chip. A frame at or beyond the chip's size has no meaning (U5). -/
def RefFlash.erase (c : Config) (f : RefFlash) (a : Addr) : RefFlash :=
  if f.size.val ≤ a.toNat then { f with beyond := true }
  else if f.wel then
    RefFlash.drawBusy { f with mem := f.mem.eraseRange (eraseBase c a) c.sectorSize, wel := false }
  else f

/-- R58 on an idle chip. -/
def RefFlash.program (c : Config) (f : RefFlash) (a : Addr) (data : List Byte) : RefFlash :=
  if f.size.val ≤ a.toNat then { f with beyond := true }
  else if f.wel && !data.isEmpty then
    RefFlash.drawBusy { f with mem := programBytes c a data 0 f.mem, wel := false }
  else f

/-- What the chip does when `F_CS` goes inactive (R55 to R58): it acts on the frame and is ready for the next. A status frame
has done its work byte by byte (R59). DESIGN CHOICE (log 21): a frame is ignored when the chip is still busy as the frame
ends, whatever its first byte; where `OP_WREN` = `OP_RDSR`, a status frame whose own status byte counted `F.busy` from 1 to 0
therefore sets `F.wel` at its end. -/
def RefFlash.act (c : Config) (f : RefFlash) : RefFlash :=
  let g : RefFlash := { f with out := [] }
  if f.busy = 0 then
    match decodeFrame c f.out with
    | .ok .wren => { g with wel := true }
    | .ok (.se a) => g.erase c a
    | .ok (.pp a data) => g.program c a data
    | _ => g
  else g

/-- R59: `s[WIP_BIT]` shows busy, `s[1]` the write-enable latch when it is another bit. -/
def RefFlash.status (c : Config) (f : RefFlash) : Byte :=
  (if f.busy = 0 then 0 else 1#8 <<< c.wipBit.val) |||
    (if f.wel && decide (c.wipBit ≠ 1) then 2#8 else 0)

/-- What the chips see of `Drive(P, v)` on a pin of direction `d`: CRESET low clears `T.done`, C_CS going active empties
`T.stream` (R60); F_CS going active begins a frame, going inactive ends it (R55). A chip-select the loader does not drive
shows the flash nothing (log 19). -/
def World.onDrive (c : Config) (p : Pin) (d : Dir) (v : Bool) (w : World) : World :=
  match p, d with
  | .creset, _ => if v then w else { w with fpga := w.fpga.map (fun t => { t with done := false }) }
  | .cCs, _ => if v = c.cramCsActive then { w with fpga := w.fpga.map (fun t => { t with stream := [] }) } else w
  | .fCs, .output =>
    { w with flash := w.flash.map (fun f => if v = c.flashCsActive then { f with out := [] } else f.act c) }
  | _, _ => w

/-- The FPGA appends a byte shifted while `C_CS` is active (R60). DESIGN CHOICE (log 23): also after an E_STREAM, or after
CRESET went low in the session; U2 and U14 leave open what such a session does to the FPGA. -/
def World.onCramByte (selected : Bool) (b : Byte) (w : World) : World :=
  if selected then { w with fpga := w.fpga.map (fun t => { t with stream := t.stream ++ [b] }) } else w

/-- The flash notes a byte shifted out in a frame (R55). -/
def World.onFlashByte (selected : Bool) (b : Byte) (w : World) : World :=
  if selected then { w with flash := w.flash.map (fun f => { f with out := f.out ++ [b] }) } else w

/-- `VALID` of a stream (R61). -/
def ValidStreams.holds : ValidStreams → List Byte → Bool
  | .listed streams, bytes => streams.contains bytes
  | .free n, bytes => Config.freeValid n bytes

/-- R61: at the last trailing clock of a close the FPGA is done if it is out of reset, clocked, and has a
valid stream, whatever happened earlier in the session (DESIGN CHOICE, log 23). -/
def World.onLastTrailingClock (outOfReset clocked : Bool) (w : World) : World :=
  { w with fpga := w.fpga.map (fun t => if outOfReset && clocked && t.valid.holds t.stream then { t with done := true } else t) }

/-- R59: the byte the flash answers a `ShiftIn` with, in a frame whose first byte out is `OP_RDSR`; after it `F.busy`
counts down. -/
def World.statusReply (c : Config) (selected : Bool) (w : World) : Option Byte × World :=
  match w.flash with
  | none => (none, w)
  | some f =>
    if selected && f.out.head? == some c.opRdsr then
      (some (f.status c), { w with flash := some { f with busy := f.busy - 1 } })
    else (none, w)

/-! ### Reset of the loader and its environment (70 section 1) -/

/-- At a reset of the loader `T.done` is a draw (R60; log 22); nothing else of the FPGA changes (R5, R241). -/
def World.drawDone (w : World) : World :=
  match w.fpga with
  | none => w
  | some t => { w with fpga := some { t with done := Config.freeDone w.nDone }, nDone := w.nDone + 1 }

/-- The reference environment as a run begins: a flash of a size and contents, its latch clear and idle (R55), and an FPGA
that has received nothing, its `T.done` a draw (R60). -/
def World.reference (size : FlashBytes) (mem : Memory) (valid : ValidStreams) : World :=
  World.drawDone
    { World.free with
      fpga := some { done := false, stream := [], valid := valid }
      flash := some
        { mem := mem, wel := false, busy := 0, size := size, out := [], draws := [], nBusy := 0, beyond := false } }

/-- The block after reset with the reference environment around it (R21, R55, R60). -/
def State.resetReference (c : Config) (size : FlashBytes) (mem : Memory) (valid : ValidStreams) : State :=
  State.resetIn c (World.reference size mem valid)

/-- A reset of the loader in the middle of a life: every register as R21 says, no event (R240). What the target chips hold
is theirs and survives (R5, R241), but `T.done` is a draw (R60; log 22); what the host will present is the host's. -/
def State.resetLoader (s : State) : State :=
  { State.resetIn s.cfg s.world.drawDone with port := s.port, buf := s.buf }

/-! ### Draws (00 section 4; log 2, 3) -/

/-- The next answer of `Sample(CDONE)`: the reference FPGA's `T.done` (R60), or a queued answer, or a free value. -/
def World.nextCdone (w : World) : Bool × World :=
  match w.fpga with
  | some t => (t.done, w)
  | none =>
    match w.cdone with
    | v :: rest => (v, { w with cdone := rest })
    | [] => (Config.freeCdone w.nCdone, { w with nCdone := w.nCdone + 1 })

/-- The next answer of `Sample(F_MISO)` when no reference flash answers: queued, or a free value. -/
def World.nextMiso (w : World) : Bool × World :=
  match w.miso with
  | v :: rest => (v, { w with miso := rest })
  | [] => (Config.freeMiso w.nMiso, { w with nMiso := w.nMiso + 1 })

/-- The fault oracle's next answer: 0 in a block of plain wires, else queued, or a free value (R110). -/
def World.nextFault (c : Config) (site : FaultSite) (w : World) : Bool × World :=
  if c.plainWires then (false, w)
  else
    match w.faults with
    | v :: rest => (v, { w with faults := rest })
    | [] => (Config.freeFault site w.nFault, { w with nFault := w.nFault + 1 })

namespace State

/-! ### The transient registers (R17) -/

/-- `sh.byte <- b; sh.bit <- i`. -/
def setShift (b : Byte) (i : Nat) (s : State) : State :=
  { s with tmp := { s.tmp with shByte := some b, shBit := some (BitVec.ofNat 3 i) } }

/-- `seq.idx <- i`. -/
def setIdx (i : Nat) (s : State) : State := { s with tmp := { s.tmp with seqIdx := some (BitVec.ofNat 32 i) } }

/-- `seq.addr <- a`. -/
def setAddr (a : Addr) (s : State) : State := { s with tmp := { s.tmp with seqAddr := some a } }

/-- `seq.unit <- k`. -/
def setUnit (k : Nat) (s : State) : State := { s with tmp := { s.tmp with seqUnit := some (BitVec.ofNat 32 k) } }

/-- `seq.poll <- k`. -/
def setPoll (k : Nat) (s : State) : State := { s with tmp := { s.tmp with seqPoll := some (BitVec.ofNat 32 k) } }

/-- Between commands the transient registers are `U`. -/
def settle (s : State) : State := { s with tmp := Transient.unset }

/-! ### Pin primitives -/

/-- `Drive(P, v)` (R101). -/
def drive (p : Pin) (v : Bool) (s : State) : State :=
  { s with
    pins := s.pins.setLevel p (Level.ofBit v)
    trace := s.trace ++ [.drv p v]
    world := s.world.onDrive s.cfg p (s.pins.get p).dir v }

/-- `SetDir(P, d)` (R102). -/
def setDir (p : Pin) (d : Dir) (s : State) : State :=
  { s with pins := s.pins.setDir p d, trace := s.trace ++ [.dir p d] }

/-- `ClockRun(f)` (R104). -/
def clockRun (f : Word) (s : State) : State :=
  { s with
    clk := { running := true, freqKhz := some f }
    pins := s.pins.setLevel .clock .u
    trace := s.trace ++ [.clkOn f] }

/-- `ClockHalt()` (R104). -/
def clockHalt (s : State) : State :=
  { s with
    clk := { s.clk with running := false }
    pins := s.pins.setLevel .clock .u
    trace := s.trace ++ [.clkOff] }

/-- `Sample(CDONE)` (R103). -/
def sampleCdone (s : State) : Bool × State :=
  let r := s.world.nextCdone
  (r.1, { s with world := r.2, trace := s.trace ++ [.smp .cdone r.1] })

/-- `Sample(F_MISO)` (R103): the bit the reference flash puts on the line, or a draw. -/
def sampleMiso (line : Option Bool) (s : State) : Bool × State :=
  let r := match line with
    | some b => (b, s.world)
    | none => s.world.nextMiso
  (r.1, { s with world := r.2, trace := s.trace ++ [.smp .fMiso r.1] })

/-- `Fault(site)` (R110): no event. -/
def consult (site : FaultSite) (s : State) : Bool × State :=
  let r := s.world.nextFault s.cfg site
  (r.1, { s with world := r.2 })

/-! ### Serial primitives -/

/-- `Pulse(S)` (R105). -/
def pulse (p : Pin) (s : State) : State := (s.drive p true).drive p false

/-- `n` pulses. -/
def pulses (p : Pin) : Nat → State → State
  | 0, s => s
  | n + 1, s => pulses p n (s.pulse p)

/-- The bits `n-1` down to 0 of `ShiftOut` on a data and a clock pin (R106); `sh.byte` and `sh.bit` follow (R17). -/
def shiftOutBits (dataPin clockPin : Pin) (b : Byte) : Nat → State → State
  | 0, s => s
  | n + 1, s =>
    shiftOutBits dataPin clockPin b n (((s.setShift b n).drive dataPin (b.getLsbD n)).pulse clockPin)

/-- `C_CS` at its active level, as the FPGA sees it (R60). -/
def cramSelected (s : State) : Bool := (s.pins.get .cCs).lvl == Level.ofBit s.cfg.cramCsActive

/-- `F_CS` driven by the loader, so that the flash sees the frame (R55; log 19). -/
def flashSelected (s : State) : Bool := (s.pins.get .fCs).dir == Dir.output

/-- `ShiftOut(CRAM, b)` (R106), and what the FPGA makes of it. -/
def shiftOutCram (b : Byte) (s : State) : State :=
  let s1 := shiftOutBits .cDo .cSck b 8 s
  { s1 with world := s1.world.onCramByte s1.cramSelected b }

/-- `ShiftOut(FLASH, b)` (R106), and what the flash makes of it. -/
def shiftOutFlash (b : Byte) (s : State) : State :=
  let s1 := shiftOutBits .fMosi .fSck b 8 s
  { s1 with world := s1.world.onFlashByte s1.flashSelected b }

/-- The bits `n-1` down to 0 of `ShiftIn` into `v` (R107); `line` is the byte the reference flash answers, if any. -/
def shiftInBits (line : Option Byte) : Nat → Byte → State → Byte × State
  | 0, v, s => (v, s)
  | n + 1, v, s =>
    let r := (s.drive .fSck true).sampleMiso (line.map (·.getLsbD n))
    let v1 := if r.1 then v ||| (1#8 <<< n) else v
    shiftInBits line n v1 ((r.2.setShift v1 n).drive .fSck false)

/-- `ShiftIn(FLASH)` (R107). -/
def shiftIn (s : State) : Byte × State :=
  let r := s.world.statusReply s.cfg s.flashSelected
  shiftInBits r.1 8 0 { s with world := r.2 }

/-- `FrameBegin()` (R109). -/
def frameBegin (s : State) : State := s.drive .fCs s.cfg.flashCsActive

/-- `FrameEnd()` (R109). -/
def frameEnd (s : State) : State := s.drive .fCs (!s.cfg.flashCsActive)

/-- Bytes shifted out on the flash bus, in order. -/
def shiftOutAll : List Byte → State → State
  | [], s => s
  | b :: rest, s => shiftOutAll rest (s.shiftOutFlash b)

/-- Data bytes of a page program from index `i` on (R165); `seq.idx` follows (R17). -/
def shiftOutData : List Byte → Nat → State → State
  | [], _, s => s
  | b :: rest, i, s => shiftOutData rest (i + 1) ((s.setIdx i).shiftOutFlash b)

/-! ### Ending a command -/

/-- `res <- OK` (R210). -/
def succeed (s : State) : State := { s with res := Code.ok.byte }

/-- `raise <Error>` (00 section 5, R210, R215): the running command ends with the error's code; nothing is saved, nothing
vectors, and the next command is accepted (R217). -/
def raise (k : Code) (s : State) : State := { s with res := k.byte }

/-- `res <- w`: the code a composite kept while its cleanup ran (R145, R191; R214). -/
def withResult (w : Byte) (s : State) : State := { s with res := w }

/-- The end of a command: the next state. -/
def answer (s : State) : Host.Outcome State Fault Refusal := .next s.settle

/-- A frame addressed the reference flash at or beyond its size (U5). -/
def beyondChip (s : State) : Bool :=
  match s.world.flash with
  | none => false
  | some f => f.beyond

/-- The outcome `r` of a command issued in `s` and ending in `t`, unless a frame addressed a byte beyond the reference
flash (U5; log 15). -/
def unlessBeyond (s t : State) (r : Host.Outcome State Fault Refusal) : Host.Outcome State Fault Refusal :=
  match s.world.flash with
  | none => r
  | some _ => if t.beyondChip then .refused .flashAddressBeyondChip else r

/-- The outcome `r` of a command issued in `s`, unless in `held`, the state just after it has taken its bus, a session and
a bracket are held together on aliased pins (R255, U12; log 14). -/
def unlessClash (s held : State) (r : Host.Outcome State Fault Refusal) : Host.Outcome State Fault Refusal :=
  if s.cfg.pinsAliased then
    if held.busesBothHeld then .refused .aliasedBusesBothHeld else r
  else r

/-! ### The command port -/

/-- The block accepts a command: it leaves the host's list, its buffer is BUF (R41, R70). -/
def accept (r : Request) (rest : List Request) (s : State) : State := { s with port := rest, buf := r.buf }

/-- The answer to bits that are no instruction: a command word is answered `E_ILLEGAL` and does nothing else (R75); bytes
that are no frame are refused (R78; log 7). -/
def rejected (w : Words) (s : State) : Host.Outcome State Fault Refusal :=
  match w with
  | .command _ _ => .next (s.raise .illegal)
  | .frame _ => .refused .noSuchFrame

end State

end Sys2Proof.Machine
end

