-- ==== Sys2Proof/Machine/Cram.lean ====
section
/-! DEFINITION. The CRAM Programmer commands (spec/42_cram_programmer.md rules R140 to R146). -/

namespace Sys2Proof.Machine

/-- The leading clocks of an open (R140): nothing where there are none. -/
def leadIn (s : State) : State :=
  if s.cfg.leadClocks = 0 then s
  else ((s.drive .cCs s.cfg.leadCsLevel).pulses .cSck s.cfg.leadClocks).drive .cCs s.cfg.cramCsActive

/-- The three CRAM pins set up, latch before direction (R140). -/
def cramPinsOut (s : State) : State :=
  (((((s.drive .cSck false).setDir .cSck .output).drive .cDo false).setDir .cDo .output).drive .cCs
    s.cfg.cramCsActive).setDir .cCs .output

/-- `cram.open <- 1; cram.bytes <- 0` (R140). -/
def State.openSession (s : State) : State := { s with cram := { isOpen := true, bytes := 0 } }

/-- `cram.open <- 0` (R143). -/
def State.endSession (s : State) : State := { s with cram := { s.cram with isOpen := false } }

/-- CRAM_OPEN (R140, R141). -/
def cramOpen (s : State) : State :=
  if s.fpga.bound then
    if s.cram.isOpen then s.raise .sessionOpen
    else
      let f := s.consult .cramOpen
      if f.1 then f.2.raise .setup
      else (leadIn (cramPinsOut f.2)).openSession.succeed
  else s.raise .notInit

/-- `cram.bytes <- (cram.bytes + 1) mod 2^32` (R142). -/
def State.countByte (s : State) : State := { s with cram := { s.cram with bytes := s.cram.bytes + 1 } }

/-- The bytes of a CRAM_WRITE from index `i` on, `n` of them left (R142). -/
def cramBytes : (n i : Nat) → State → State
  | 0, _, s => s.succeed
  | n + 1, i, s =>
    let f := (s.setIdx i).consult (.cramWrite i)
    if f.1 then f.2.raise .stream
    else cramBytes n (i + 1) (f.2.shiftOutCram (f.2.buf.read i)).countByte

/-- CRAM_WRITE (R142). -/
def cramWrite (len : Word) (s : State) : State :=
  if s.cram.isOpen then cramBytes len.toNat 0 s else s.raise .notOpen

/-- What the FPGA makes of the trailing clocks (R61); without any there is no last one (log 12). -/
def trailSeen (s : State) : State :=
  if s.cfg.trailClocks = 0 then s
  else { s with world := s.world.onLastTrailingClock ((s.pins.get .creset).lvl == .one) s.clk.running }

/-- CRAM_CLOSE (R143, R144). -/
def cramClose (s : State) : State :=
  if s.cram.isOpen then
    let s1 := ((s.drive .cCs (!s.cfg.cramCsActive)).drive .cDo false).pulses .cSck s.cfg.trailClocks
    ((((trailSeen s1).setDir .cCs .input).setDir .cDo .input).setDir .cSck .input).endSession.succeed
  else s.succeed

/-- CRAM_LOAD (R145). -/
def cramLoad (len : Word) (s : State) : State :=
  let s1 := cramOpen s
  if s1.succeeded then
    let s2 := cramWrite len s1
    (cramClose s2).withResult s2.res
  else s1

/-- The command CRAM_OPEN. -/
def execCramOpen (s : State) : Host.Outcome State Fault Refusal := s.unlessClash (cramOpen s) (cramOpen s).answer

/-- The command CRAM_WRITE. -/
def execCramWrite (len : Word) (s : State) : Host.Outcome State Fault Refusal := (cramWrite len s).answer

/-- The command CRAM_CLOSE. -/
def execCramClose (s : State) : Host.Outcome State Fault Refusal := (cramClose s).answer

/-- The command CRAM_LOAD. -/
def execCramLoad (len : Word) (s : State) : Host.Outcome State Fault Refusal :=
  s.unlessClash (cramOpen s) (cramLoad len s).answer

end Sys2Proof.Machine
end

