-- ==== Sys2Proof/Machine/Fpga.lean ====
section
/-! DEFINITION. The FPGA Sequencer commands (spec/41_fpga_sequencer.md rules R120 to R126). -/

namespace Sys2Proof.Machine

/-- `fpga.phase <- p`. -/
def State.setPhase (p : Phase) (s : State) : State := { s with fpga := { s.fpga with phase := p } }

/-- FPGA_INIT (R120). -/
def fpgaInit (freq : Word) (s : State) : State :=
  State.succeed { s with fpga := { s.fpga with freqKhz := freq, bound := true } }

/-- `PollCdone()` with `n` samples left and `k` made (R123). -/
def pollCdone : (n k : Nat) → State → Bool × State
  | 0, _, s => (false, s)
  | n + 1, k, s =>
    let r := (s.setPoll (k + 1)).sampleCdone
    if r.1 then (true, r.2) else pollCdone n (k + 1) r.2

/-- FPGA_START (R121, R122). -/
def fpgaStart (s : State) : State :=
  if s.fpga.bound then
    let s1 := ((s.drive .creset true).clockRun s.fpga.freqKhz).setPhase .clocking
    let r := pollCdone s.cfg.cdonePollMax 0 s1
    if r.1 then (r.2.setPhase .configured).succeed else r.2.raise .cdoneTimeout
  else s.raise .notInit

/-- FPGA_STOP (R124). -/
def fpgaStop (s : State) : State :=
  if s.fpga.bound then
    let f := s.consult .fpgaStop
    if f.1 then f.2.raise .pinFault
    else ((f.2.clockHalt.drive .creset false).setPhase .resetHeld).succeed
  else s.raise .notInit

/-- FPGA_RESET (R125). -/
def fpgaReset (s : State) : State :=
  let s1 := fpgaStop s
  if s1.succeeded then fpgaStart s1 else s1

/-- The command FPGA_INIT. -/
def execFpgaInit (freq : Word) (s : State) : Host.Outcome State Fault Refusal := (fpgaInit freq s).answer

/-- The command FPGA_START. -/
def execFpgaStart (s : State) : Host.Outcome State Fault Refusal := (fpgaStart s).answer

/-- The command FPGA_STOP. -/
def execFpgaStop (s : State) : Host.Outcome State Fault Refusal := (fpgaStop s).answer

/-- The command FPGA_RESET. -/
def execFpgaReset (s : State) : Host.Outcome State Fault Refusal := (fpgaReset s).answer

end Sys2Proof.Machine
end

