-- ==== Sys2Proof/Machine/Frames.lean ====
section
/-! DEFINITION. The four wire frames (spec/43_flash_driver.md rules R163 to R166). A frame does not check `flash.active`:
"the commands that use them check" (43 section 2; log 7). -/

namespace Sys2Proof.Machine

/-- WREN (R163). -/
def frameWren (s : State) : State := ((s.frameBegin).shiftOutFlash s.cfg.opWren).frameEnd

/-- SE (R164); `seq.addr` is the address of the running frame (R17). -/
def frameSe (a : Addr) (s : State) : State :=
  ((s.setAddr a).frameBegin.shiftOutAll (s.cfg.opSe :: addrBytes a)).frameEnd

/-- PP (R165). DESIGN CHOICE (log 9): `seq.idx` counts from 0 in the bytes of this frame, also where FLASH_WRITE hands the
frame a slice from the middle of its buffer (R17 says only "byte index into the buffer"). -/
def framePp (a : Addr) (data : List Byte) (s : State) : State :=
  (((s.setAddr a).frameBegin.shiftOutAll (s.cfg.opPp :: addrBytes a)).shiftOutData data 0).frameEnd

/-- `ReadStatus()`, the RDSR frame (R166). -/
def readStatus (s : State) : Byte × State :=
  let r := (s.frameBegin.shiftOutFlash s.cfg.opRdsr).shiftIn
  (r.1, r.2.frameEnd)

/-- `WaitIdle()` with `n` polls left and `k` made (R166): whether a status read showed the chip idle. -/
def waitIdle : (n k : Nat) → State → Bool × State
  | 0, _, s => (false, s)
  | n + 1, k, s =>
    let r := readStatus (s.setPoll (k + 1))
    if wipSet s.cfg r.1 then waitIdle n (k + 1) r.2 else (true, r.2)

/-- The frame WREN on its own. -/
def execWren (s : State) : Host.Outcome State Fault Refusal := .next (frameWren s)

/-- The frame SE on its own. -/
def execSe (a : Addr) (s : State) : Host.Outcome State Fault Refusal := s.unlessBeyond (frameSe a s) (.next (frameSe a s))

/-- The frame PP on its own. -/
def execPp (a : Addr) (data : List Byte) (s : State) : Host.Outcome State Fault Refusal :=
  s.unlessBeyond (framePp a data s) (.next (framePp a data s))

/-- The frame RDSR on its own: the status byte is left in `sh.byte` (R17; log 8). -/
def execRdsr (s : State) : Host.Outcome State Fault Refusal := .next (readStatus s).2

end Sys2Proof.Machine
end

