-- ==== Sys2Proof/Machine/Flash.lean ====
section
/-! DEFINITION. The Flash Driver's primitive commands (spec/43_flash_driver.md rules R160 to R162, R167 to R170). -/

namespace Sys2Proof.Machine

/-- FLASH_CONFIG (R160). -/
def flashConfig (freq : Word) (s : State) : State :=
  State.succeed { s with flash := { s.flash with freqHz := freq } }

/-- `flash.freq_hz <- freq; flash.active <- 1` (R161). -/
def State.openBracket (freq : Word) (s : State) : State := { s with flash := { freqHz := freq, active := true } }

/-- `flash.active <- 0` (R162). -/
def State.endBracket (s : State) : State := { s with flash := { s.flash with active := false } }

/-- The four flash pins set up, chip-select inactive first, latch before direction (R161). -/
def flashPinsOut (s : State) : State :=
  ((((((s.drive .fCs (!s.cfg.flashCsActive)).setDir .fCs .output).drive .fSck false).setDir .fSck .output).drive .fMosi
    false).setDir .fMosi .output).setDir .fMiso .input

/-- FLASH_INIT (R161). A frequency of 0 fails before the oracle is asked. -/
def flashInit (freq : Word) (s : State) : State :=
  if freq = 0 then s.raise .setup
  else
    let f := s.consult .flashInit
    if f.1 then f.2.raise .setup
    else ((flashPinsOut f.2).openBracket freq).succeed

/-- FLASH_DEINIT (R162). -/
def flashDeinit (s : State) : State :=
  ((((s.setDir .fSck .input).setDir .fMosi .input).setDir .fMiso .input).setDir .fCs .input).endBracket.succeed

/-- The end of an erase or program: the write-in-progress wait decides the code (R166 to R168). -/
def awaitIdle (s : State) : State :=
  let r := waitIdle s.cfg.wipPollMax 0 s
  if r.1 then r.2.succeed else r.2.raise .wipTimeout

/-- FLASH_ERASE_SECTOR (R167). -/
def eraseSector (offset : Addr) (s : State) : State :=
  if s.flash.active then awaitIdle (frameSe offset (frameWren s)) else s.raise .notInit

/-- FLASH_PROGRAM_PAGE with the buffer bytes from `start` on (R168; R191 passes a slice of the host's buffer). -/
def programPage (offset : Addr) (start len : Nat) (s : State) : State :=
  if s.flash.active then
    awaitIdle (framePp offset (s.buf.slice start (min len s.cfg.pageSize)) (frameWren s))
  else s.raise .notInit

/-- The command FLASH_CONFIG. -/
def execFlashConfig (freq : Word) (s : State) : Host.Outcome State Fault Refusal := (flashConfig freq s).answer

/-- The command FLASH_INIT. -/
def execFlashInit (freq : Word) (s : State) : Host.Outcome State Fault Refusal :=
  s.unlessClash (flashInit freq s) (flashInit freq s).answer

/-- The command FLASH_ERASE_SECTOR. -/
def execFlashEraseSector (offset : Addr) (s : State) : Host.Outcome State Fault Refusal :=
  s.unlessBeyond (eraseSector offset s) (eraseSector offset s).answer

/-- The command FLASH_PROGRAM_PAGE. -/
def execFlashProgramPage (offset : Addr) (len : Word) (s : State) : Host.Outcome State Fault Refusal :=
  s.unlessBeyond (programPage offset 0 len.toNat s) (programPage offset 0 len.toNat s).answer

/-- The command FLASH_DEINIT. -/
def execFlashDeinit (s : State) : Host.Outcome State Fault Refusal := (flashDeinit s).answer

end Sys2Proof.Machine
end

