-- ==== Sys2Proof/Machine/Orchestration.lean ====
section
/-! DEFINITION. The flash orchestration commands (spec/44_flash_orchestration.md rules R191 to R195). -/

namespace Sys2Proof.Machine

/-- Pass 1 with `n` sectors left, the next being `k` (R191, R192): it stops at the first erase that fails. -/
def erasePass : (n k : Nat) → State → State
  | 0, _, s => s
  | n + 1, k, s =>
    let s1 := eraseSector (planAddr (sectOff s.cfg k)) (s.setUnit k)
    if s1.succeeded then erasePass n (k + 1) s1 else s1

/-- Pass 2 of a length `len` with `n` pages left, the next being `p` (R191): it stops at the first program that fails. -/
def programPass (len : Nat) : (n p : Nat) → State → State
  | 0, _, s => s
  | n + 1, p, s =>
    let s1 := programPage (planAddr (pageOff s.cfg p)) (pageOff s.cfg p) (pageLen s.cfg len p) (s.setUnit p)
    if s1.succeeded then programPass len n (p + 1) s1 else s1

/-- The bracket (R194): init with the stored frequency; where it succeeds, the passes and then the deinit, whose `OK` does
not replace their code. -/
def flashBracket (operate : State → State) (s : State) : State :=
  let s1 := flashInit s.flash.freqHz s
  if s1.succeeded then
    let s2 := operate s1
    (flashDeinit s2).withResult s2.res
  else s1

/-- Both passes of FLASH_WRITE, the second only after the first has succeeded (R191, R195). -/
def writePasses (len : Nat) (s : State) : State :=
  let s1 := erasePass (nsect s.cfg len) 0 s
  if s1.succeeded then programPass len (npage s.cfg len) 0 s1 else s1

/-- FLASH_WRITE (R191). -/
def flashWrite (len : Word) (s : State) : State :=
  if Config.maxLen < len.toNat then s.raise .range else flashBracket (writePasses len.toNat) s

/-- FLASH_ERASE (R192). -/
def flashErase (len : Word) (s : State) : State :=
  if Config.maxLen < len.toNat then s.raise .range
  else flashBracket (fun t => erasePass (nsect t.cfg len.toNat) 0 t) s

/-- The state in which an orchestration holds the flash bus: after its init, if its length is in range. -/
def flashHeld (len : Word) (s : State) : State :=
  if Config.maxLen < len.toNat then s else flashInit s.flash.freqHz s

/-- The command FLASH_WRITE. -/
def execFlashWrite (len : Word) (s : State) : Host.Outcome State Fault Refusal :=
  s.unlessClash (flashHeld len s) (s.unlessBeyond (flashWrite len s) (flashWrite len s).answer)

/-- The command FLASH_ERASE. -/
def execFlashErase (len : Word) (s : State) : Host.Outcome State Fault Refusal :=
  s.unlessClash (flashHeld len s) (s.unlessBeyond (flashErase len s) (flashErase len s).answer)

end Sys2Proof.Machine
end

