-- ==== Sys2Proof/Machine/Dispatch.lean ====
section
/-! DEFINITION. One arm per instruction (spec/30_encoding.md rules R72, R78). -/

namespace Sys2Proof.Machine

def exec (i : Instr) (s : State) : Host.Outcome State Fault Refusal :=
  match i with
  | .fpgaInit freq => Sys2Proof.Machine.execFpgaInit freq s
  | .fpgaStart => Sys2Proof.Machine.execFpgaStart s
  | .fpgaStop => Sys2Proof.Machine.execFpgaStop s
  | .fpgaReset => Sys2Proof.Machine.execFpgaReset s
  | .cramOpen => Sys2Proof.Machine.execCramOpen s
  | .cramWrite len => Sys2Proof.Machine.execCramWrite len s
  | .cramClose => Sys2Proof.Machine.execCramClose s
  | .cramLoad len => Sys2Proof.Machine.execCramLoad len s
  | .flashConfig freq => Sys2Proof.Machine.execFlashConfig freq s
  | .flashInit freq => Sys2Proof.Machine.execFlashInit freq s
  | .flashEraseSector offset => Sys2Proof.Machine.execFlashEraseSector offset s
  | .flashProgramPage offset len => Sys2Proof.Machine.execFlashProgramPage offset len s
  | .flashDeinit => Sys2Proof.Machine.execFlashDeinit s
  | .flashWrite len => Sys2Proof.Machine.execFlashWrite len s
  | .flashErase len => Sys2Proof.Machine.execFlashErase len s
  | .wren => Sys2Proof.Machine.execWren s
  | .se addr => Sys2Proof.Machine.execSe addr s
  | .pp addr data => Sys2Proof.Machine.execPp addr data s
  | .rdsr => Sys2Proof.Machine.execRdsr s

end Sys2Proof.Machine
end

