-- ==== Sys2Proof/Machine/Step.lean ====
section
/-! DEFINITION. One step: the block takes the next command of the port and runs it to completion (spec/00_scope.md rules
R1, R3; spec/30_encoding.md rules R70, R75, R76). -/

namespace Sys2Proof.Machine

/-- One host command, from acceptance to result. With no command presented nothing happens: the loader "acts only on a
command" (R223; log 6). -/
def step (s : State) : Host.Outcome State Fault Refusal :=
  match s.port with
  | [] => .next s
  | r :: rest =>
    match decode s.cfg r.words with
    | .ok i => exec i (s.accept r rest)
    | .error _ => (s.accept r rest).rejected r.words

/-- The state with the instruction of a table row's bits presented next at the port, its buffer with nothing listed; every
command that was to come comes after it. -/
def State.withFetchWord (s : State) (nbits w : Nat) : State :=
  { s with port := { words := tableWords nbits w, buf := [] } :: s.port }

end Sys2Proof.Machine
end

