-- ==== Sys2Proof/Safety.lean ====
section
/-! DEFINITION. The terms the claims are written in: the event lists that spec/40_gpio_bitbang.md to
spec/44_flash_orchestration.md give for each primitive, frame and command, what a list of events makes of the pins and of
the clock, and the invariants of a reachable state (spec/10_state.md rule R20). -/

namespace Sys2Proof.Safety

open Sys2Proof.Machine

/-! ### Command words -/

/-- The fifteen opcodes (R72). -/
def opcodes : List Byte :=
  [0x10#8, 0x11#8, 0x12#8, 0x13#8, 0x20#8, 0x21#8, 0x22#8, 0x23#8, 0x30#8, 0x31#8, 0x32#8, 0x33#8, 0x34#8, 0x35#8, 0x36#8]

/-- R75: the opcode is none of the fifteen, or its format (any but A and AB) says `cw[23:0]` must be 0 and it is not. -/
def illegalWord (cw : Word) : Prop :=
  opcodeOf cw ∉ opcodes ∨ (opcodeOf cw ∉ [0x32#8, 0x33#8] ∧ argOf cw ≠ 0#24)

/-- The opcodes whose format has an operand word: F, AB, B and L (R71, R72). -/
def operandOpcodes : List Byte := [0x10#8, 0x21#8, 0x23#8, 0x30#8, 0x31#8, 0x33#8, 0x35#8, 0x36#8]

/-! ### Event lists -/

/-- `Pulse(S)`, `n` times (R105). -/
def pulseEvents (p : Pin) : Nat → List Event
  | 0 => []
  | n + 1 => .drv p true :: .drv p false :: pulseEvents p n

/-- `ShiftOut` of a byte: eight data levels, most significant first, each with one pulse (R106). -/
def byteOutEvents (dataPin clockPin : Pin) (b : Byte) : List Event :=
  [7, 6, 5, 4, 3, 2, 1, 0].flatMap fun i =>
    [.drv dataPin (b.getLsbD i), .drv clockPin true, .drv clockPin false]

/-- `ShiftOut(CRAM, b)`. -/
def cramByteEvents (b : Byte) : List Event := byteOutEvents .cDo .cSck b

/-- `ShiftOut(FLASH, b)`. -/
def flashByteEvents (b : Byte) : List Event := byteOutEvents .fMosi .fSck b

/-- `ShiftIn(FLASH)` that returns `v` (R107). -/
def byteInEvents (v : Byte) : List Event :=
  [7, 6, 5, 4, 3, 2, 1, 0].flatMap fun i =>
    [.drv .fSck true, .smp .fMiso (v.getLsbD i), .drv .fSck false]

/-- A frame of bytes out only (R77, R109). -/
def frameEvents (c : Config) (bytes : List Byte) : List Event :=
  .drv .fCs c.flashCsActive :: (bytes.flatMap flashByteEvents ++ [.drv .fCs (!c.flashCsActive)])

/-- An RDSR frame that reads `v` (R166). -/
def statusEvents (c : Config) (v : Byte) : List Event :=
  .drv .fCs c.flashCsActive ::
    (flashByteEvents c.opRdsr ++ byteInEvents v ++ [.drv .fCs (!c.flashCsActive)])

/-- A wait that reads the status bytes `vs` (R166). -/
def waitEvents (c : Config) (vs : List Byte) : List Event := vs.flatMap (statusEvents c)

/-- WREN, SE and the wait (R167). -/
def eraseEvents (c : Config) (a : Addr) (vs : List Byte) : List Event :=
  frameEvents c [c.opWren] ++ frameEvents c (c.opSe :: addrBytes a) ++ waitEvents c vs

/-- WREN, PP and the wait (R168). -/
def programEvents (c : Config) (a : Addr) (data : List Byte) (vs : List Byte) : List Event :=
  frameEvents c [c.opWren] ++ frameEvents c (c.opPp :: (addrBytes a ++ data)) ++ waitEvents c vs

/-- The erase pass from sector `k` on, one list of status bytes for each sector erased (R191). -/
def erasePassEvents (c : Config) : Nat → List (List Byte) → List Event
  | _, [] => []
  | k, vs :: rest => eraseEvents c (planAddr (sectOff c k)) vs ++ erasePassEvents c (k + 1) rest

/-- The program pass of `len` bytes of the buffer from page `p` on, one list of status bytes for each page programmed
(R191). -/
def programPassEvents (c : Config) (m : Memory) (len : Nat) : Nat → List (List Byte) → List Event
  | _, [] => []
  | p, vs :: rest =>
    programEvents c (planAddr (pageOff c p)) (m.slice (pageOff c p) (pageLen c len p)) vs ++
      programPassEvents c m len (p + 1) rest

/-- FLASH_INIT (R161). -/
def initEvents (c : Config) : List Event :=
  [.drv .fCs (!c.flashCsActive), .dir .fCs .output, .drv .fSck false, .dir .fSck .output, .drv .fMosi false,
    .dir .fMosi .output, .dir .fMiso .input]

/-- FLASH_DEINIT (R162). -/
def deinitEvents : List Event :=
  [.dir .fSck .input, .dir .fMosi .input, .dir .fMiso .input, .dir .fCs .input]

/-- CRAM_OPEN (R140). -/
def openEvents (c : Config) : List Event :=
  [.drv .cSck false, .dir .cSck .output, .drv .cDo false, .dir .cDo .output, .drv .cCs c.cramCsActive,
    .dir .cCs .output] ++
  (if c.leadClocks = 0 then []
    else .drv .cCs c.leadCsLevel :: (pulseEvents .cSck c.leadClocks ++ [.drv .cCs c.cramCsActive]))

/-- CRAM_CLOSE of an open session (R143). -/
def closeEvents (c : Config) : List Event :=
  [.drv .cCs (!c.cramCsActive), .drv .cDo false] ++ pulseEvents .cSck c.trailClocks ++
    [.dir .cCs .input, .dir .cDo .input, .dir .cSck .input]

/-- FPGA_START with the samples `vs` (R121, R123). -/
def startEvents (freq : Word) (vs : List Bool) : List Event :=
  .drv .creset true :: .clkOn freq :: vs.map (.smp .cdone)

/-- FPGA_STOP (R124). -/
def stopEvents : List Event := [.clkOff, .drv .creset false]

/-! ### How a wait ends -/

/-- CDONE was sampled until it read 1, within the timeout (R123). -/
def cdoneRose (c : Config) (vs : List Bool) : Prop :=
  ∃ k, k < c.cdonePollMax ∧ vs = List.replicate k false ++ [true]

/-- CDONE was sampled to the timeout and never read 1 (R123). -/
def cdoneTimedOut (c : Config) (vs : List Bool) : Prop := vs = List.replicate c.cdonePollMax false

/-- The status was read until its write-in-progress bit read 0, within the timeout (R166). -/
def idleSeen (c : Config) (vs : List Byte) : Prop :=
  ∃ busy v, vs = busy ++ [v] ∧ (∀ b ∈ busy, wipSet c b = true) ∧ wipSet c v = false ∧ vs.length ≤ c.wipPollMax

/-- The status was read to the timeout and always showed write-in-progress (R166). -/
def wipTimedOut (c : Config) (vs : List Byte) : Prop :=
  vs.length = c.wipPollMax ∧ ∀ b ∈ vs, wipSet c b = true

/-- A pass of `n` units whose waits read the lists `sts`: every unit was done, or the last one listed timed out and no
further one was begun (R191 to R193). -/
def passEnded (c : Config) (n : Nat) (sts : List (List Byte)) (res : Byte) : Prop :=
  (sts.length = n ∧ (∀ vs ∈ sts, idleSeen c vs) ∧ res = Code.ok.byte) ∨
    ∃ done last, sts = done ++ [last] ∧ sts.length ≤ n ∧ (∀ vs ∈ done, idleSeen c vs) ∧ wipTimedOut c last ∧
      res = Code.wipTimeout.byte

/-- How a write-in-progress wait that read the bytes `vs` ends (R166). -/
def waited (c : Config) (vs : List Byte) (k : Code) : Prop :=
  (idleSeen c vs ∧ k = .ok) ∨ (wipTimedOut c vs ∧ k = .wipTimeout)

/-- How both passes of a FLASH_WRITE end: `sts` lists the status bytes of each sector's wait, `pgs` those of each page's;
the second pass is begun only when the first is complete (R191, R193, R195). -/
def writeEnded (c : Config) (sectors pages : Nat) (sts pgs : List (List Byte)) (k : Code) : Prop :=
  (passEnded c sectors sts Code.ok.byte ∧ passEnded c pages pgs k.byte) ∨
    (passEnded c sectors sts Code.wipTimeout.byte ∧ pgs = [] ∧ k = .wipTimeout)

/-- The bits of a byte in the order a `ShiftIn` samples them (R107). -/
def bitsOf (v : Byte) : List Bool := [7, 6, 5, 4, 3, 2, 1, 0].map v.getLsbD

/-! ### What events make of the pins and of the clock -/

/-- The pin registers after one event (R100 to R104). -/
def pinsAfter (e : Event) (r : Pins) : Pins :=
  match e with
  | .drv p v => r.setLevel p (Level.ofBit v)
  | .dir p d => r.setDir p d
  | .smp _ _ => r
  | .clkOn _ => r.setLevel .clock .u
  | .clkOff => r.setLevel .clock .u

/-- The pin registers after a list of events. -/
def replayPins (es : List Event) (r : Pins) : Pins := es.foldl (fun q e => pinsAfter e q) r

/-- The clock generator after one event (R104). -/
def clkAfter (e : Event) (k : ClkRegs) : ClkRegs :=
  match e with
  | .clkOn f => ⟨true, some f⟩
  | .clkOff => ⟨false, k.freqKhz⟩
  | _ => k

/-- The clock generator after a list of events. -/
def replayClk (es : List Event) (k : ClkRegs) : ClkRegs := es.foldl (fun q e => clkAfter e q) k

/-- CLOCK toggles while CRESET is driven low: what R252 forbids. -/
def clockedInReset (k : ClkRegs) (r : Pins) : Prop := k.running = true ∧ r.creset.lvl = .zero

/-! ### Whose pin an event is on (R219) -/

/-- The pin an event is about. -/
def eventPin : Event → Pin
  | .drv p _ => p
  | .dir p _ => p
  | .smp p _ => p
  | .clkOn _ => .clock
  | .clkOff => .clock

/-- CDONE, CLOCK, CRESET (R14). -/
def fpgaPins : List Pin := [.cdone, .clock, .creset]

/-- The CRAM bus (R108). -/
def cramPins : List Pin := [.cCs, .cDo, .cSck]

/-- The flash bus (R108). -/
def flashPins : List Pin := [.fSck, .fMosi, .fMiso, .fCs]

/-- The pins an instruction's group owns (R219). -/
def ownPins : Instr → List Pin
  | .fpgaInit _ => fpgaPins
  | .fpgaStart => fpgaPins
  | .fpgaStop => fpgaPins
  | .fpgaReset => fpgaPins
  | .cramOpen => cramPins
  | .cramWrite _ => cramPins
  | .cramClose => cramPins
  | .cramLoad _ => cramPins
  | .flashConfig _ => flashPins
  | .flashInit _ => flashPins
  | .flashEraseSector _ => flashPins
  | .flashProgramPage _ _ => flashPins
  | .flashDeinit => flashPins
  | .flashWrite _ => flashPins
  | .flashErase _ => flashPins
  | .wren => flashPins
  | .se _ => flashPins
  | .pp _ _ => flashPins
  | .rdsr => flashPins

/-- The fifteen host commands, not the wire frames (R72, R78). -/
def isCommand : Instr → Bool
  | .fpgaInit _ => true
  | .fpgaStart => true
  | .fpgaStop => true
  | .fpgaReset => true
  | .cramOpen => true
  | .cramWrite _ => true
  | .cramClose => true
  | .cramLoad _ => true
  | .flashConfig _ => true
  | .flashInit _ => true
  | .flashEraseSector _ => true
  | .flashProgramPage _ _ => true
  | .flashDeinit => true
  | .flashWrite _ => true
  | .flashErase _ => true
  | .wren => false
  | .se _ => false
  | .pp _ _ => false
  | .rdsr => false

/-- The codes a command can return (R218); a frame returns none. -/
def possibleCodes : Instr → List Code
  | .fpgaInit _ => [.ok]
  | .fpgaStart => [.ok, .cdoneTimeout, .notInit]
  | .fpgaStop => [.ok, .pinFault, .notInit]
  | .fpgaReset => [.ok, .cdoneTimeout, .pinFault, .notInit]
  | .cramOpen => [.ok, .sessionOpen, .setup, .notInit]
  | .cramWrite _ => [.ok, .notOpen, .stream]
  | .cramClose => [.ok]
  | .cramLoad _ => [.ok, .sessionOpen, .stream, .setup, .notInit]
  | .flashConfig _ => [.ok]
  | .flashInit _ => [.ok, .setup]
  | .flashEraseSector _ => [.ok, .wipTimeout, .notInit]
  | .flashProgramPage _ _ => [.ok, .wipTimeout, .notInit]
  | .flashDeinit => [.ok]
  | .flashWrite _ => [.ok, .wipTimeout, .setup, .range]
  | .flashErase _ => [.ok, .wipTimeout, .setup, .range]
  | .wren => []
  | .se _ => []
  | .pp _ _ => []
  | .rdsr => []

/-- R16's table: the phase of the sequencer, the session flag and the bracket flag after an instruction, from those before
it and its result. -/
def afterTable (i : Instr) (s t : State) : Prop :=
  let phase (p : Phase) : Prop := t.fpga.phase = p ∧ t.cram.isOpen = s.cram.isOpen ∧ t.flash.active = s.flash.active
  let session (b : Bool) : Prop := t.fpga.phase = s.fpga.phase ∧ t.cram.isOpen = b ∧ t.flash.active = s.flash.active
  let bracket (b : Bool) : Prop := t.fpga.phase = s.fpga.phase ∧ t.cram.isOpen = s.cram.isOpen ∧ t.flash.active = b
  match i with
  | .fpgaStart | .fpgaReset =>
    phase (if t.res = Code.ok.byte then .configured else if t.res = Code.cdoneTimeout.byte then .clocking else s.fpga.phase)
  | .fpgaStop => phase (if t.res = Code.ok.byte then .resetHeld else s.fpga.phase)
  | .cramOpen => session (if t.res = Code.ok.byte then true else s.cram.isOpen)
  | .cramClose => session false
  | .cramLoad _ => session (if t.res = Code.ok.byte ∨ t.res = Code.stream.byte then false else s.cram.isOpen)
  | .flashInit _ => bracket (if t.res = Code.ok.byte then true else s.flash.active)
  | .flashDeinit => bracket false
  | .flashWrite _ | .flashErase _ =>
    bracket (if t.res = Code.ok.byte ∨ t.res = Code.wipTimeout.byte then false else s.flash.active)
  | _ => phase s.fpga.phase

/-! ### Bytes of the reference flash an instruction stores to (R57, R58) -/

/-- The sector an SE frame erases. -/
def inSector (c : Config) (a : Addr) (x : Nat) : Prop :=
  eraseBase c a ≤ x ∧ x < eraseBase c a + c.sectorSize

/-- The bytes a PP frame of `n` data bytes programs. -/
def inProgram (c : Config) (a : Addr) (n x : Nat) : Prop := ∃ i, i < n ∧ x = programTarget c a i

/-- The addresses an instruction stores to, if a reference flash is there. -/
def stores (c : Config) (i : Instr) (x : Nat) : Prop :=
  match i with
  | .flashEraseSector off => inSector c off x
  | .flashProgramPage off len => inProgram c off (min len.toNat c.pageSize) x
  | .flashErase len => ∃ k, k < nsect c len.toNat ∧ inSector c (planAddr (sectOff c k)) x
  | .flashWrite len =>
    (∃ k, k < nsect c len.toNat ∧ inSector c (planAddr (sectOff c k)) x) ∨
      ∃ p, p < npage c len.toNat ∧ inProgram c (planAddr (pageOff c p)) (pageLen c len.toNat p) x
  | .se off => inSector c off x
  | .pp off data => inProgram c off data.length x
  | _ => False

/-! ### What an instruction did -/

/-- From `s` to `t` exactly the events `es` were emitted: the pins and the clock generator are what these events make of
them, no other register of the loader changed but the transient ones (R17), and neither did the host's inputs nor the
parameters. Of the environment nothing is said. -/
structure Emits (es : List Event) (s t : State) : Prop where
  trace : t.trace = s.trace ++ es
  pins : t.pins = replayPins es s.pins
  clk : t.clk = replayClk es s.clk
  fpga : t.fpga = s.fpga
  cram : t.cram = s.cram
  flash : t.flash = s.flash
  res : t.res = s.res
  port : t.port = s.port
  buf : t.buf = s.buf
  cfg : t.cfg = s.cfg

/-- A command issued in `s` ended in `t`: its events, its result code, and the FPGA, CRAM and flash registers it left.
Pins and clock generator are what the events make of them, the transient registers are `U` again (R17), and the host's
inputs and the parameters are as they were. Of the environment nothing is said. -/
structure Ended (s t : State) (es : List Event) (k : Code) (fpga : FpgaRegs) (cram : CramRegs) (flash : FlashRegs) :
    Prop where
  trace : t.trace = s.trace ++ es
  pins : t.pins = replayPins es s.pins
  clk : t.clk = replayClk es s.clk
  fpga : t.fpga = fpga
  cram : t.cram = cram
  flash : t.flash = flash
  res : t.res = k.byte
  tmp : t.tmp = Transient.unset
  port : t.port = s.port
  buf : t.buf = s.buf
  cfg : t.cfg = s.cfg

/-- The command did nothing but write the result register (R75, R215): no event, no register, no draw. -/
def onlyResult (s : State) (k : Code) : State := { s with res := k.byte, tmp := Transient.unset }

/-- The command asked the oracle at a site and then did nothing but write the result register (R110, R215). -/
def onlyResultAfter (site : FaultSite) (s : State) (k : Code) : State :=
  { s with world := (s.world.nextFault s.cfg site).2, res := k.byte, tmp := Transient.unset }

/-! ### States -/

/-- R21's table: every register of the loader after reset. -/
def afterReset (s : State) : Prop :=
  s.fpga = ⟨false, 48, .unpowered⟩ ∧ s.cram = ⟨false, 0⟩ ∧ s.flash = ⟨10000000, false⟩ ∧ s.res = 0 ∧
    s.clk = ⟨false, none⟩ ∧ s.tmp = Transient.unset ∧
    (∀ p ∈ [Pin.clock, .creset], s.pins.get p = ⟨.output, .u⟩) ∧
    (∀ p ∈ [Pin.cdone, .fMiso, .cCs, .cDo, .cSck, .fCs, .fSck, .fMosi], s.pins.get p = ⟨.input, .u⟩)

/-- The oracle answers 0 when it is next asked, and it is asked at this site (R110). -/
def quietAt (site : FaultSite) (s : State) : Bool := !(s.world.nextFault s.cfg site).1

/-- A reference flash, if there is one, has a byte at every address below `n`, has met no frame beyond its size, and is not
in the middle of a frame (R51, U5). -/
def flashCovers (n : Nat) (s : State) : Bool :=
  match s.world.flash with
  | none => true
  | some f => !f.beyond && f.out.isEmpty && decide (n ≤ f.size.val)

/-- What R20 says of every reachable state, and what the model adds: canonical memories, and a reference flash with no
frame half heard. -/
structure Inv (s : State) : Prop where
  boundIfOpen : s.cram.isOpen = true → s.fpga.bound = true
  cramDirs : ∀ p ∈ cramPins, (s.pins.get p).dir = if s.cram.isOpen then Dir.output else Dir.input
  flashDirs : ∀ p ∈ [Pin.fCs, .fSck, .fMosi], (s.pins.get p).dir = if s.flash.active then Dir.output else Dir.input
  inputDirs : s.pins.fMiso.dir = .input ∧ s.pins.cdone.dir = .input
  outputDirs : s.pins.clock.dir = .output ∧ s.pins.creset.dir = .output
  clkRuns : s.clk.running = true ↔ s.fpga.phase = .clocking ∨ s.fpga.phase = .configured
  cresetUnpowered : s.fpga.phase = .unpowered → s.pins.creset.lvl = .u
  cresetHeld : s.fpga.phase = .resetHeld → s.pins.creset.lvl = .zero
  cresetReleased : s.fpga.phase = .clocking ∨ s.fpga.phase = .configured → s.pins.creset.lvl = .one
  cramIdle : s.cram.isOpen = true → s.pins.cCs.lvl = Level.ofBit s.cfg.cramCsActive ∧ s.pins.cSck.lvl = .zero
  flashIdle : s.flash.active = true → s.pins.fCs.lvl = Level.ofBit (!s.cfg.flashCsActive) ∧ s.pins.fSck.lvl = .zero
  boundIfPowered : s.fpga.phase ≠ .unpowered → s.fpga.bound = true
  clocksRestLow : s.pins.cSck.lvl ≠ .one ∧ s.pins.fSck.lvl ≠ .one
  undriven : s.pins.cdone.lvl = .u ∧ s.pins.fMiso.lvl = .u ∧ s.pins.clock.lvl = .u
  bufWf : s.buf.wf
  portWf : ∀ r ∈ s.port, r.buf.wf
  flashReady : ∀ f, s.world.flash = some f → f.mem.wf ∧ f.out = [] ∧ f.beyond = false

end Sys2Proof.Safety
end

