-- ==== Sys2Proof/Certificates/Slice0/Obligations.lean ====
section
/-! DEFINITION. The statements for the provers. A docstring names the rule of spec/ a statement formalises, or says that it
is the model's own and names the log entry. -/

open Sys2Proof Sys2Proof.Machine Sys2Proof.Safety

/-! ### Encoding and decoding -/

/-- R70 to R73, R76 to R78, R80: decoding the words of a well-formed instruction gives it back, with every operand. -/
def Obligations.DecodeOfEncodeIsIdentity : Prop :=
  ∀ (c : Config) (i : Instr), c.framesDistinct = true → i.wellFormed c = true → decode c (encode c i) = .ok i

/-- R76: no two words mean the same but in an operand word that the format does not have: formats F, AB, B and L keep
theirs, and the encoder writes 0 for the one that N and A do not have (the model's choice, log 17). -/
def Obligations.EncodeOfDecodedWordsGivesThemBack : Prop :=
  ∀ (c : Config) (i : Instr),
    (∀ cw ow : Word, decode c (.command cw ow) = .ok i →
      i.wellFormed c = true ∧ encode c i = .command cw (if opcodeOf cw ∈ operandOpcodes then ow else 0)) ∧
    (∀ bytes : List Byte, decode c (.frame bytes) = .ok i → i.wellFormed c = true ∧ encode c i = .frame bytes)

/-- R76, R75: exactly which command words are illegal. -/
def Obligations.IllegalExactlyOutsideTheOpcodeMap : Prop :=
  ∀ (c : Config) (cw ow : Word),
    (∃ e, decode c (.command cw ow) = .error e) ↔ illegalWord cw

/-- R82: its six examples, and the four frames of R163 to R165. -/
def Obligations.SpecExampleWordsDecode : Prop :=
  decode Config.standard (.command 0x10000000 0x00000030) = .ok (.fpgaInit 48) ∧
  decode Config.standard (.command 0x11000000 0) = .ok .fpgaStart ∧
  decode Config.standard (.command 0x21000000 0x00000004) = .ok (.cramWrite 4) ∧
  decode Config.standard (.command 0x32001000 0) = .ok (.flashEraseSector 0x001000) ∧
  decode Config.standard (.command 0x33000100 0x00000002) = .ok (.flashProgramPage 0x000100 2) ∧
  decode Config.standard (.command 0x36000000 0x00001388) = .ok (.flashErase 5000) ∧
  decode Config.standard (.frame [0x06]) = .ok .wren ∧
  decode Config.standard (.frame [0x20, 0x00, 0x10, 0x00]) = .ok (.se 0x001000) ∧
  decode Config.standard (.frame [0x02, 0x00, 0x01, 0x00, 0x01, 0x02]) = .ok (.pp 0x000100 [0x01, 0x02])

/-! ### The step -/

/-- R70, R1: a step takes the next request and runs the instruction it decodes to; nothing else happens. -/
def Obligations.StepRunsTheDecodedInstruction : Prop :=
  ∀ (s : State) (r : Request) (rest : List Request) (i : Instr),
    s.port = r :: rest → decode s.cfg r.words = .ok i →
      step s = exec i { s with port := rest, buf := r.buf }

/-- R75: an illegal command does nothing but answer `E_ILLEGAL` (and the host's request is consumed: log 6). -/
def Obligations.IllegalWordOnlyAnswersIllegal : Prop :=
  ∀ (s : State) (cw ow : Word) (m : Memory) (rest : List Request),
    s.port = ⟨.command cw ow, m⟩ :: rest → illegalWord cw →
      step s = .next { s with port := rest, buf := m, res := 10 }

/-- The model's choice (log 6, R223 "it acts only on a command"): with no request a step changes nothing; and (log 7) a
frame request that is none of the four frames is refused. -/
def Obligations.StepWithoutInstruction : Prop :=
  (∀ s : State, s.port = [] → step s = .next s) ∧
  ∀ (s : State) (bytes : List Byte) (m : Memory) (rest : List Request) (e : Reject),
    s.port = ⟨.frame bytes, m⟩ :: rest → decode s.cfg (.frame bytes) = .error e → step s = .refused .noSuchFrame

/-! ### Reset and invariants -/

/-- R21: the register values after reset, for every value of the parameters. -/
def Obligations.ResetRegisterValues : Prop := ∀ c : Config, afterReset (State.resetWith c)

/-- R5, R240, R241: a reset of the loader sets its registers as R21 says, emits no event, and leaves the parameters, the
host's requests, the queued draws, and what the two target chips hold; only `T.done` is drawn (R60). That `T.stream` and the
rest of the FPGA are kept beside a drawn `T.done` is the model's reading (log 22). -/
def Obligations.LoaderResetKeepsWhatTheTargetsHold : Prop :=
  ∀ s : State,
    afterReset s.resetLoader ∧ s.resetLoader.trace = [] ∧ s.resetLoader.cfg = s.cfg ∧ s.resetLoader.port = s.port ∧
      s.resetLoader.buf = s.buf ∧ s.resetLoader.world.flash = s.world.flash ∧
      (s.world.fpga = none → s.resetLoader.world.fpga = none) ∧
      (∀ f, s.world.fpga = some f → ∃ d, s.resetLoader.world.fpga = some { f with done := d }) ∧
      s.resetLoader.world.cdone = s.world.cdone ∧ s.resetLoader.world.miso = s.world.miso ∧
      s.resetLoader.world.faults = s.world.faults ∧ (Inv s → Inv s.resetLoader)

/-- R51, R55, R60 (log 11): the reference environment as a run begins, for every size up to `FLASH_BYTES` = 2^24, every
contents and every `VALID`; `T.done` is a draw (log 22). -/
def Obligations.ReferenceEnvironmentAtReset : Prop :=
  Config.flashBytesDefault.val = 2 ^ 24 ∧
  ∀ (c : Config) (size : FlashBytes) (mem : Memory) (valid : ValidStreams),
    size.val ≤ 2 ^ 24 ∧ afterReset (State.resetReference c size mem valid) ∧
      (∃ d, (State.resetReference c size mem valid).world.fpga = some ⟨d, [], valid⟩) ∧
      (∃ f, (State.resetReference c size mem valid).world.flash = some f ∧ f.mem = mem ∧ f.wel = false ∧ f.busy = 0 ∧
        f.size = size) ∧
      (mem.wf → Inv (State.resetReference c size mem valid))

/-- R20, with the model's additions to it (log 10, 11, 15), holds of the state after reset. -/
def Obligations.InvariantHoldsAtReset : Prop := ∀ c : Config, Inv (State.resetWith c)

/-- R20, with the model's additions to it (log 10, 11, 15): every step keeps the invariant, from every state that has it. -/
def Obligations.InvariantKeptByEveryStep : Prop := ∀ s t : State, Inv s → step s = .next t → Inv t

/-- R252: from every state with the invariant of R20, at no point of the trace of any instruction is CLOCK running while
CRESET is driven low. -/
def Obligations.ClockNeverRunsUnderLowReset : Prop :=
  ∀ (i : Instr) (s t : State), Inv s → exec i s = .next t →
    ∃ es, t.trace = s.trace ++ es ∧
      ∀ n ≤ es.length, ¬clockedInReset (replayClk (es.take n) s.clk) (replayPins (es.take n) s.pins)

/-- R100 to R104: an instruction only appends to the trace, and the pins and the clock generator end as the events it
appended leave them. -/
def Obligations.PinsAndClockFollowTheTrace : Prop :=
  ∀ (i : Instr) (s t : State), exec i s = .next t →
    ∃ es, t.trace = s.trace ++ es ∧ t.pins = replayPins es s.pins ∧ t.clk = replayClk es s.clk

/-- R219: every event of an instruction is on a pin of its own group. -/
def Obligations.EventsStayOnOwnPins : Prop :=
  ∀ (i : Instr) (s t : State), exec i s = .next t →
    ∃ es, t.trace = s.trace ++ es ∧ ∀ e ∈ es, eventPin e ∈ ownPins i

/-- R126, R146, R169 and R11 to R13: only the commands of a group write the group's registers, and only the sequencer's
write the clock generator. -/
def Obligations.EachGroupWritesItsOwnRegisters : Prop :=
  ∀ (i : Instr) (s t : State), exec i s = .next t →
    (ownPins i ≠ fpgaPins → t.fpga = s.fpga ∧ t.clk = s.clk) ∧
      (ownPins i ≠ cramPins → t.cram = s.cram) ∧ (ownPins i ≠ flashPins → t.flash = s.flash)

/-- R10, R41 and, for the frames, log 7: no instruction changes the parameters, its buffer or the host's later requests; a frame leaves the result
register, and a command leaves the transient registers `U` (R17). -/
def Obligations.InputsAndTransientsAfterAnInstruction : Prop :=
  ∀ (i : Instr) (s t : State), exec i s = .next t →
    t.cfg = s.cfg ∧ t.buf = s.buf ∧ t.port = s.port ∧
      (isCommand i = true → t.tmp = Transient.unset) ∧ (isCommand i = false → t.res = s.res)

/-- R217: "Errors do not latch": no command depends on the result register, nor (R17) on the transient registers. -/
def Obligations.ResultRegisterIsNeverRead : Prop :=
  ∀ (i : Instr) (s : State) (r : Byte) (x : Transient), isCommand i = true →
    exec i { s with res := r, tmp := x } = exec i s

/-- R218 and R211: a command ends with one of the codes its row marks. -/
def Obligations.ResultCodesAreThoseOfTheTable : Prop :=
  ∀ (i : Instr) (s t : State), isCommand i = true → exec i s = .next t →
    ∃ k ∈ possibleCodes i, t.res = k.byte

/-- R16: the triple that stands for a program counter, after every instruction. -/
def Obligations.PhaseTripleFollowsTheTable : Prop :=
  ∀ (i : Instr) (s t : State), exec i s = .next t → afterTable i s t

/-- R215, first row: a command that ends with one of these codes emitted nothing and wrote nothing but the result
register; of the environment at most the oracle was asked once. -/
def Obligations.RejectedCommandsLeaveNoTrace : Prop :=
  ∀ (i : Instr) (s t : State), isCommand i = true → exec i s = .next t →
    (∃ k ∈ [Code.range, .notInit, .sessionOpen, .notOpen, .setup, .pinFault], t.res = k.byte) →
      ∃ k, t = onlyResult s k ∨ ∃ site, t = onlyResultAfter site s k

/-! ### FPGA Sequencer -/

/-- R120: FPGA_INIT, whole. -/
def Obligations.FpgaInitStoresTheFrequency : Prop :=
  ∀ (freq : Word) (s : State),
    encode s.cfg (.fpgaInit freq) = .command 0x10000000 freq ∧
      exec (.fpgaInit freq) s =
        .next { s with fpga := ⟨true, freq, s.fpga.phase⟩, res := Code.ok.byte, tmp := Transient.unset }

/-- R121 to R123: FPGA_START, in every phase and whatever CDONE answers. -/
def Obligations.FpgaStartReleasesClocksAndPolls : Prop :=
  ∀ s : State,
    encode s.cfg .fpgaStart = .command 0x11000000 0 ∧
    (s.fpga.bound = false → exec .fpgaStart s = .next (onlyResult s .notInit)) ∧
    (s.fpga.bound = true → ∃ vs t, exec .fpgaStart s = .next t ∧
      ((cdoneRose s.cfg vs ∧
          Ended s t (startEvents s.fpga.freqKhz vs) .ok ⟨true, s.fpga.freqKhz, .configured⟩ s.cram s.flash) ∨
        (cdoneTimedOut s.cfg vs ∧
          Ended s t (startEvents s.fpga.freqKhz vs) .cdoneTimeout ⟨true, s.fpga.freqKhz, .clocking⟩ s.cram s.flash)) ∧
      t.pins.creset = ⟨s.pins.creset.dir, .one⟩ ∧ t.clk = ⟨true, some s.fpga.freqKhz⟩)

/-- R123 on queued answers (R103): FPGA_START takes answers up to the first 1, and times out after `CDONE_POLL_MAX` zeros. -/
def Obligations.FpgaStartFollowsTheSamples : Prop :=
  ∀ (s : State) (rest : List Bool), s.fpga.bound = true → s.world.fpga = none →
    (∀ n, n < s.cfg.cdonePollMax → s.world.cdone = List.replicate n false ++ true :: rest →
      ∃ t, exec .fpgaStart s = .next t ∧
        Ended s t (startEvents s.fpga.freqKhz (List.replicate n false ++ [true])) .ok
          ⟨true, s.fpga.freqKhz, .configured⟩ s.cram s.flash ∧
        t.world = { s.world with cdone := rest }) ∧
    (s.world.cdone = List.replicate s.cfg.cdonePollMax false ++ rest →
      ∃ t, exec .fpgaStart s = .next t ∧
        Ended s t (startEvents s.fpga.freqKhz (List.replicate s.cfg.cdonePollMax false)) .cdoneTimeout
          ⟨true, s.fpga.freqKhz, .clocking⟩ s.cram s.flash ∧
        t.world = { s.world with cdone := rest })

/-- R124: FPGA_STOP, whole: the clock is halted before CRESET is driven low. -/
def Obligations.FpgaStopHaltsThenHoldsInReset : Prop :=
  ∀ s : State,
    encode s.cfg .fpgaStop = .command 0x12000000 0 ∧
    (s.fpga.bound = false → exec .fpgaStop s = .next (onlyResult s .notInit)) ∧
    (s.fpga.bound = true → quietAt .fpgaStop s = false →
      exec .fpgaStop s = .next (onlyResultAfter .fpgaStop s .pinFault)) ∧
    (s.fpga.bound = true → quietAt .fpgaStop s = true → ∃ t, exec .fpgaStop s = .next t ∧
      Ended s t stopEvents .ok ⟨true, s.fpga.freqKhz, .resetHeld⟩ s.cram s.flash ∧
      t.pins.creset = ⟨s.pins.creset.dir, .zero⟩ ∧ t.clk = ⟨false, s.clk.freqKhz⟩)

/-- R125: FPGA_RESET is FPGA_STOP and then, only if that ended with `OK`, FPGA_START. -/
def Obligations.FpgaResetIsStopThenStart : Prop :=
  ∀ s : State,
    encode s.cfg .fpgaReset = .command 0x13000000 0 ∧
    exec .fpgaReset s =
      (match exec .fpgaStop s with
        | .next t => if t.res = Code.ok.byte then exec .fpgaStart t else .next t
        | o => o)

/-- R125 with the pin layer whole: the events of both steps, in order, and the start's result. -/
def Obligations.FpgaResetCompletes : Prop :=
  ∀ s : State, s.fpga.bound = true → quietAt .fpgaStop s = true →
    ∃ vs t, exec .fpgaReset s = .next t ∧
      ((cdoneRose s.cfg vs ∧
          Ended s t (stopEvents ++ startEvents s.fpga.freqKhz vs) .ok ⟨true, s.fpga.freqKhz, .configured⟩ s.cram s.flash) ∨
        (cdoneTimedOut s.cfg vs ∧
          Ended s t (stopEvents ++ startEvents s.fpga.freqKhz vs) .cdoneTimeout ⟨true, s.fpga.freqKhz, .clocking⟩ s.cram
            s.flash))

/-- R216: the commands that need a bound device or an open bracket, without it. -/
def Obligations.UnboundDeviceOrClosedBracketIsNotInit : Prop :=
  ∀ s : State, s.beyondChip = false →
    (s.fpga.bound = false → s.busesBothHeld = false → ∀ i ∈ [Instr.fpgaStart, .fpgaStop, .fpgaReset, .cramOpen],
      exec i s = .next (onlyResult s .notInit)) ∧
    (s.fpga.bound = false → s.busesBothHeld = false → ∀ len : Word,
      exec (.cramLoad len) s = .next (onlyResult s .notInit)) ∧
    (s.flash.active = false → ∀ (a : Addr) (len : Word),
      exec (.flashEraseSector a) s = .next (onlyResult s .notInit) ∧
        exec (.flashProgramPage a len) s = .next (onlyResult s .notInit))

/-! ### CRAM Programmer -/

/-- R140, R141: CRAM_OPEN, whole, where it does not meet a flash bracket on aliased pins (R255). -/
def Obligations.CramOpenStartsASession : Prop :=
  ∀ s : State, s.cfg.pinsAliased = false ∨ s.flash.active = false →
    encode s.cfg .cramOpen = .command 0x20000000 0 ∧
    (s.fpga.bound = false → exec .cramOpen s = .next (onlyResult s .notInit)) ∧
    (s.fpga.bound = true → s.cram.isOpen = true → exec .cramOpen s = .next (onlyResult s .sessionOpen)) ∧
    (s.fpga.bound = true → s.cram.isOpen = false → quietAt .cramOpen s = false →
      exec .cramOpen s = .next (onlyResultAfter .cramOpen s .setup)) ∧
    (s.fpga.bound = true → s.cram.isOpen = false → quietAt .cramOpen s = true →
      ∃ t, exec .cramOpen s = .next t ∧ Ended s t (openEvents s.cfg) .ok s.fpga ⟨true, 0⟩ s.flash ∧
        t.pins.cCs = ⟨.output, Level.ofBit s.cfg.cramCsActive⟩ ∧ t.pins.cSck = ⟨.output, .zero⟩ ∧
        t.pins.cDo = ⟨.output, .zero⟩)

/-- R142: CRAM_WRITE whatever the oracle answers: the bytes before the first fault go out, most significant bit first. -/
def Obligations.CramWriteStreamsTheBuffer : Prop :=
  ∀ (len : Word) (s : State),
    encode s.cfg (.cramWrite len) = .command 0x21000000 len ∧
    (s.cram.isOpen = false → exec (.cramWrite len) s = .next (onlyResult s .notOpen)) ∧
    (s.cram.isOpen = true → ∃ n k t, exec (.cramWrite len) s = .next t ∧
      ((n = len.toNat ∧ k = Code.ok) ∨ (n < len.toNat ∧ k = Code.stream)) ∧
      Ended s t ((s.buf.slice 0 n).flatMap cramByteEvents) k s.fpga
        ⟨true, s.cram.bytes + BitVec.ofNat 32 n⟩ s.flash ∧
      t.pins.cCs = s.pins.cCs)

/-- R142, R110: with the oracle's answers given, exactly the bytes before the first 1 go out, or all of them. -/
def Obligations.CramWriteFollowsTheOracle : Prop :=
  ∀ (len : Word) (s : State), s.cram.isOpen = true →
    (s.cfg.plainWires = true → ∃ t, exec (.cramWrite len) s = .next t ∧
      Ended s t ((s.buf.slice 0 len.toNat).flatMap cramByteEvents) .ok s.fpga ⟨true, s.cram.bytes + len⟩ s.flash) ∧
    (∀ rest, s.cfg.plainWires = false → s.world.faults = List.replicate len.toNat false ++ rest →
      ∃ t, exec (.cramWrite len) s = .next t ∧
        Ended s t ((s.buf.slice 0 len.toNat).flatMap cramByteEvents) .ok s.fpga ⟨true, s.cram.bytes + len⟩ s.flash ∧
        t.world.faults = rest) ∧
    (∀ n rest, n < len.toNat → s.cfg.plainWires = false → s.world.faults = List.replicate n false ++ true :: rest →
      ∃ t, exec (.cramWrite len) s = .next t ∧
        Ended s t ((s.buf.slice 0 n).flatMap cramByteEvents) .stream s.fpga
          ⟨true, s.cram.bytes + BitVec.ofNat 32 n⟩ s.flash ∧
        t.world.faults = rest)

/-- R142, corner cases: successive writes put the same events on the wire as one write of both buffers. -/
def Obligations.CramWritesConcatenate : Prop :=
  ∀ (a b : Word) (m1 m2 : Memory) (s t u : State), s.cram.isOpen = true → s.cfg.plainWires = true →
    a.toNat + b.toNat < 2 ^ 32 → m1.slice 0 a.toNat = s.buf.slice 0 a.toNat →
    m2.slice 0 b.toNat = s.buf.slice a.toNat b.toNat →
    exec (.cramWrite a) { s with buf := m1 } = .next t → exec (.cramWrite b) { t with buf := m2 } = .next u →
      ∃ v, exec (.cramWrite (a + b)) s = .next v ∧ v.trace = u.trace ∧ v.pins = u.pins ∧ v.cram = u.cram ∧ v.res = u.res

/-- R143, R144: CRAM_CLOSE, whole. -/
def Obligations.CramCloseReleasesTheBus : Prop :=
  ∀ s : State,
    encode s.cfg .cramClose = .command 0x22000000 0 ∧
    (s.cram.isOpen = false → exec .cramClose s = .next (onlyResult s .ok)) ∧
    (s.cram.isOpen = true → ∃ t, exec .cramClose s = .next t ∧
      Ended s t (closeEvents s.cfg) .ok s.fpga ⟨false, s.cram.bytes⟩ s.flash ∧
      t.pins.cCs = ⟨.input, Level.ofBit (!s.cfg.cramCsActive)⟩ ∧ t.pins.cDo = ⟨.input, .zero⟩ ∧
      (Inv s → t.pins.cSck = ⟨.input, .zero⟩))

/-- R145: CRAM_LOAD is CRAM_OPEN and then, only if that ended with `OK`, CRAM_WRITE and always CRAM_CLOSE, and it ends with
the write's code. -/
def Obligations.CramLoadIsOpenWriteClose : Prop :=
  ∀ (len : Word) (s : State),
    encode s.cfg (.cramLoad len) = .command 0x23000000 len ∧
    exec (.cramLoad len) s =
      (match exec .cramOpen s with
        | .next t =>
          if t.res = Code.ok.byte then
            (match exec (.cramWrite len) t with
              | .next u =>
                (match exec .cramClose u with
                  | .next v => .next { v with res := u.res }
                  | o => o)
              | o => o)
          else .next t
        | o => o)

/-- R145 where the open succeeds: the whole session, and how many bytes of it went out. -/
def Obligations.CramLoadCompletes : Prop :=
  ∀ (len : Word) (s : State), s.cfg.pinsAliased = false ∨ s.flash.active = false →
    s.fpga.bound = true → s.cram.isOpen = false → quietAt .cramOpen s = true →
    ∃ n k t, exec (.cramLoad len) s = .next t ∧
      ((n = len.toNat ∧ k = Code.ok) ∨ (n < len.toNat ∧ k = Code.stream)) ∧
      (s.cfg.plainWires = true → k = Code.ok) ∧
      Ended s t (openEvents s.cfg ++ (s.buf.slice 0 n).flatMap cramByteEvents ++ closeEvents s.cfg) k s.fpga
        ⟨false, BitVec.ofNat 32 n⟩ s.flash

/-! ### Flash Driver -/

/-- R160: FLASH_CONFIG, whole. -/
def Obligations.FlashConfigStoresTheFrequency : Prop :=
  ∀ (freq : Word) (s : State),
    encode s.cfg (.flashConfig freq) = .command 0x30000000 freq ∧
      exec (.flashConfig freq) s =
        .next { s with flash := ⟨freq, s.flash.active⟩, res := Code.ok.byte, tmp := Transient.unset }

/-- R161: FLASH_INIT, whole, where it does not meet a CRAM session on aliased pins (R255). That a frequency of 0 is refused
before the oracle is asked is the model's reading of the rule's `or` (log 18). -/
def Obligations.FlashInitOpensABracket : Prop :=
  ∀ (freq : Word) (s : State), s.cfg.pinsAliased = false ∨ s.cram.isOpen = false →
    encode s.cfg (.flashInit freq) = .command 0x31000000 freq ∧
    (freq = 0 → exec (.flashInit freq) s = .next (onlyResult s .setup)) ∧
    (freq ≠ 0 → quietAt .flashInit s = false →
      exec (.flashInit freq) s = .next (onlyResultAfter .flashInit s .setup)) ∧
    (freq ≠ 0 → quietAt .flashInit s = true → ∃ t, exec (.flashInit freq) s = .next t ∧
      Ended s t (initEvents s.cfg) .ok s.fpga s.cram ⟨freq, true⟩ ∧
      t.pins.fCs = ⟨.output, Level.ofBit (!s.cfg.flashCsActive)⟩ ∧ t.pins.fSck = ⟨.output, .zero⟩ ∧
      t.pins.fMosi = ⟨.output, .zero⟩ ∧ t.pins.fMiso = ⟨.input, s.pins.fMiso.lvl⟩)

/-- R162: FLASH_DEINIT, whole. -/
def Obligations.FlashDeinitReleasesTheBus : Prop :=
  ∀ s : State,
    encode s.cfg .flashDeinit = .command 0x34000000 0 ∧
    ∃ t, exec .flashDeinit s = .next t ∧ Ended s t deinitEvents .ok s.fpga s.cram ⟨s.flash.freqHz, false⟩ ∧
      ∀ p ∈ flashPins, t.pins.get p = ⟨.input, (s.pins.get p).lvl⟩

/-- R167: FLASH_ERASE_SECTOR, whole, on a chip that has a byte at the address (U5). -/
def Obligations.EraseSectorSendsWrenSeAndWaits : Prop :=
  ∀ (a : Addr) (s : State), flashCovers (a.toNat + 1) s = true →
    encode s.cfg (.flashEraseSector a) = .command (0x32#8 ++ a) 0 ∧
    (s.flash.active = false → exec (.flashEraseSector a) s = .next (onlyResult s .notInit)) ∧
    (s.flash.active = true → ∃ vs k t, exec (.flashEraseSector a) s = .next t ∧ waited s.cfg vs k ∧
      Ended s t (eraseEvents s.cfg a vs) k s.fpga s.cram s.flash ∧
      (eraseEvents s.cfg a vs).length = 26 + 98 + 50 * vs.length)

/-- R168: FLASH_PROGRAM_PAGE, whole, on a chip that has a byte at the address (U5). -/
def Obligations.ProgramPageSendsWrenPpAndWaits : Prop :=
  ∀ (a : Addr) (len : Word) (s : State), flashCovers (a.toNat + 1) s = true →
    encode s.cfg (.flashProgramPage a len) = .command (0x33#8 ++ a) len ∧
    (s.flash.active = false → exec (.flashProgramPage a len) s = .next (onlyResult s .notInit)) ∧
    (s.flash.active = true → ∃ vs k t, exec (.flashProgramPage a len) s = .next t ∧ waited s.cfg vs k ∧
      Ended s t (programEvents s.cfg a (s.buf.slice 0 (min len.toNat s.cfg.pageSize)) vs) k s.fpga s.cram s.flash ∧
      (programEvents s.cfg a (s.buf.slice 0 (min len.toNat s.cfg.pageSize)) vs).length =
        26 + 2 + 24 * (4 + min len.toNat s.cfg.pageSize) + 50 * vs.length)

/-- R166, R103: the status bytes a wait reads are the bits sampled, first sample first, and it stops at the first idle one
or at the timeout. -/
def Obligations.WaitFollowsTheStatusSamples : Prop :=
  ∀ (a : Addr) (len : Word) (s : State) (vs : List Byte) (k : Code) (rest : List Bool),
    s.flash.active = true → s.world.flash = none → s.world.miso = vs.flatMap bitsOf ++ rest → waited s.cfg vs k →
      (∃ t, exec (.flashEraseSector a) s = .next t ∧
        Ended s t (eraseEvents s.cfg a vs) k s.fpga s.cram s.flash ∧ t.world = { s.world with miso := rest }) ∧
      (∃ t, exec (.flashProgramPage a len) s = .next t ∧
        Ended s t (programEvents s.cfg a (s.buf.slice 0 (min len.toNat s.cfg.pageSize)) vs) k s.fpga s.cram s.flash ∧
        t.world = { s.world with miso := rest })

/-! ### Wire frames, each run on its own (the model's reading: log 7) -/

/-- R163, log 7: the frame WREN. -/
def Obligations.WrenFrameEvents : Prop :=
  ∀ s : State, ∃ t, exec .wren s = .next t ∧ Emits (frameEvents s.cfg [s.cfg.opWren]) s t ∧
    (frameEvents s.cfg [s.cfg.opWren]).length = 26

/-- R164, log 7: the frame SE, its address sent whole, high byte first (R80), on a chip that has a byte at the address (U5;
log 15). -/
def Obligations.SeFrameEvents : Prop :=
  ∀ (a : Addr) (s : State), flashCovers (a.toNat + 1) s = true →
    ∃ t, exec (.se a) s = .next t ∧
      Emits (frameEvents s.cfg [s.cfg.opSe, a.extractLsb' 16 8, a.extractLsb' 8 8, a.extractLsb' 0 8]) s t ∧
      (frameEvents s.cfg [s.cfg.opSe, a.extractLsb' 16 8, a.extractLsb' 8 8, a.extractLsb' 0 8]).length = 98

/-- R165, log 7: the frame PP, on a chip that has a byte at the address (U5; log 15). -/
def Obligations.PpFrameEvents : Prop :=
  ∀ (a : Addr) (data : List Byte) (s : State), flashCovers (a.toNat + 1) s = true →
    ∃ t, exec (.pp a data) s = .next t ∧
      Emits (frameEvents s.cfg ([s.cfg.opPp, a.extractLsb' 16 8, a.extractLsb' 8 8, a.extractLsb' 0 8] ++ data)) s t ∧
      (frameEvents s.cfg ([s.cfg.opPp, a.extractLsb' 16 8, a.extractLsb' 8 8, a.extractLsb' 0 8] ++ data)).length =
        2 + 24 * (4 + data.length)

/-- R166, R107: the frame RDSR reads one byte; with queued samples it is the byte they spell. That it runs on its own, from
every state and without writing `res`, is the model's reading (log 7), and that the byte is left in `sh.byte` its choice
(log 8). -/
def Obligations.RdsrFrameReadsTheStatusByte : Prop :=
  ∀ s : State,
    (∃ v t, exec .rdsr s = .next t ∧ Emits (statusEvents s.cfg v) s t ∧ t.tmp.shByte = some v ∧
      (statusEvents s.cfg v).length = 50) ∧
    ∀ (v : Byte) (rest : List Bool), s.world.flash = none → s.world.miso = bitsOf v ++ rest →
      ∃ t, exec .rdsr s = .next t ∧ Emits (statusEvents s.cfg v) s t ∧ t.tmp.shByte = some v ∧
        t.world = { s.world with miso := rest }

/-! ### Flash orchestration -/

/-- R190: the plan, its laws, and the source's scenario on the default sizes. The laws are the spec's own inference ("Laws
[derived: from the definitions]"). -/
def Obligations.PlanLaws : Prop :=
  ∀ c : Config, 1 ≤ c.sectorSize → 1 ≤ c.pageSize →
    nsect c 0 = 0 ∧ npage c 0 = 0 ∧
    nsect Config.standard 5000 = 2 ∧ npage Config.standard 5000 = 20 ∧ pageLen Config.standard 5000 19 = 136 ∧
    ∀ len : Nat,
      nsect c len = (len + c.sectorSize - 1) / c.sectorSize ∧ npage c len = (len + c.pageSize - 1) / c.pageSize ∧
      (∀ k, sectOff c k = k * c.sectorSize) ∧ (∀ p, pageOff c p = p * c.pageSize) ∧
      (∀ p, pageLen c len p = min c.pageSize (len - p * c.pageSize)) ∧
      (∀ k, k < nsect c len ↔ sectOff c k < len) ∧
      (∀ k, k < nsect c len ↔ ∃ o, o < len ∧ k = o / c.sectorSize) ∧
      (∀ p, p < npage c len ↔ pageOff c p < len) ∧
      (∀ p, p < npage c len → 1 ≤ pageLen c len p ∧ pageLen c len p ≤ c.pageSize) ∧
      ((List.range (npage c len)).map (pageLen c len)).sum = len ∧
      (1 ≤ len → nsect c len = (len - 1) / c.sectorSize + 1) ∧
      (len ≤ Config.maxLen → ∀ k, k < nsect c len → (planAddr (sectOff c k)).toNat = sectOff c k) ∧
      (len ≤ Config.maxLen → ∀ p, p < npage c len → (planAddr (pageOff c p)).toNat = pageOff c p)

/-- R191, R193 to R195: FLASH_WRITE where its init succeeds: the init, every erase of the plan in order, then every program
in order, up to the first wait that times out, and the deinit on every path. -/
def Obligations.FlashWriteErasesThenPrograms : Prop :=
  ∀ (len : Word) (s : State), s.cfg.pinsAliased = false ∨ s.cram.isOpen = false → flashCovers len.toNat s = true →
    len.toNat ≤ Config.maxLen → s.flash.freqHz ≠ 0 → quietAt .flashInit s = true →
    ∃ sts pgs k t, exec (.flashWrite len) s = .next t ∧
      writeEnded s.cfg (nsect s.cfg len.toNat) (npage s.cfg len.toNat) sts pgs k ∧
      Ended s t (initEvents s.cfg ++ erasePassEvents s.cfg 0 sts ++
        programPassEvents s.cfg s.buf len.toNat 0 pgs ++ deinitEvents) k s.fpga s.cram ⟨s.flash.freqHz, false⟩ ∧
      ∀ p ∈ flashPins, (t.pins.get p).dir = .input

/-- R192 to R194: FLASH_ERASE where its init succeeds. -/
def Obligations.FlashEraseErasesThePlan : Prop :=
  ∀ (len : Word) (s : State), s.cfg.pinsAliased = false ∨ s.cram.isOpen = false → flashCovers len.toNat s = true →
    len.toNat ≤ Config.maxLen → s.flash.freqHz ≠ 0 → quietAt .flashInit s = true →
    ∃ sts k t, exec (.flashErase len) s = .next t ∧ passEnded s.cfg (nsect s.cfg len.toNat) sts k.byte ∧
      Ended s t (initEvents s.cfg ++ erasePassEvents s.cfg 0 sts ++ deinitEvents) k s.fpga s.cram
        ⟨s.flash.freqHz, false⟩ ∧
      ∀ p ∈ flashPins, (t.pins.get p).dir = .input

/-- R191, R192 on queued status samples (R103): with every wait seeing the chip idle in time, every sector of the plan is
erased, every page programmed, and the result is `OK`. -/
def Obligations.OrchestrationFollowsTheStatusSamples : Prop :=
  ∀ (len : Word) (s : State) (sts pgs : List (List Byte)) (rest : List Bool),
    s.cfg.pinsAliased = false ∨ s.cram.isOpen = false → s.world.flash = none →
    len.toNat ≤ Config.maxLen → s.flash.freqHz ≠ 0 → quietAt .flashInit s = true →
    sts.length = nsect s.cfg len.toNat → pgs.length = npage s.cfg len.toNat →
    (∀ vs ∈ sts ++ pgs, idleSeen s.cfg vs) →
    (s.world.miso = (sts ++ pgs).flatten.flatMap bitsOf ++ rest → ∃ t, exec (.flashWrite len) s = .next t ∧
      Ended s t (initEvents s.cfg ++ erasePassEvents s.cfg 0 sts ++
        programPassEvents s.cfg s.buf len.toNat 0 pgs ++ deinitEvents) .ok s.fpga s.cram ⟨s.flash.freqHz, false⟩ ∧
      t.world.miso = rest) ∧
    (s.world.miso = sts.flatten.flatMap bitsOf ++ rest → ∃ t, exec (.flashErase len) s = .next t ∧
      Ended s t (initEvents s.cfg ++ erasePassEvents s.cfg 0 sts ++ deinitEvents) .ok s.fpga s.cram
        ⟨s.flash.freqHz, false⟩ ∧
      t.world.miso = rest)

/-- R214, R191, R192, R194: a length over `MAX_LEN` is refused before anything else, and where the init fails there is
nothing to clean up. That a stored frequency of 0 is refused before the oracle is asked is the model's reading of R161's
`or` (log 18). -/
def Obligations.OrchestrationRefusedBeforeTheBus : Prop :=
  ∀ (len : Word) (s : State), s.cfg.pinsAliased = false ∨ s.cram.isOpen = false → s.beyondChip = false →
    ∀ i ∈ [Instr.flashWrite len, .flashErase len],
      (Config.maxLen < len.toNat → exec i s = .next (onlyResult s .range)) ∧
      (len.toNat ≤ Config.maxLen → s.flash.freqHz = 0 → exec i s = .next (onlyResult s .setup)) ∧
      (len.toNat ≤ Config.maxLen → s.flash.freqHz ≠ 0 → quietAt .flashInit s = false →
        exec i s = .next (onlyResultAfter .flashInit s .setup))

/-- R192, corner cases: a length of 0 runs the bracket alone, eleven events. -/
def Obligations.EmptyLengthRunsTheBracketAlone : Prop :=
  ∀ s : State, s.cfg.ok = true → s.cfg.pinsAliased = false ∨ s.cram.isOpen = false → flashCovers 0 s = true →
    s.flash.freqHz ≠ 0 → quietAt .flashInit s = true →
    ∀ i ∈ [Instr.flashErase 0, .flashWrite 0], ∃ t, exec i s = .next t ∧
      Ended s t (initEvents s.cfg ++ deinitEvents) .ok s.fpga s.cram ⟨s.flash.freqHz, false⟩

/-! ### Where the model refuses -/

/-- R255, U12 (log 14): a command that would hold a session and a bracket together on aliased pins is refused. -/
def Obligations.AliasedBusesAreRefused : Prop :=
  ∀ s : State, s.cfg.pinsAliased = true →
    (s.flash.active = true → s.fpga.bound = true → s.cram.isOpen = false → quietAt .cramOpen s = true →
      exec .cramOpen s = .refused .aliasedBusesBothHeld ∧
        ∀ len : Word, exec (.cramLoad len) s = .refused .aliasedBusesBothHeld) ∧
    (s.cram.isOpen = true → quietAt .flashInit s = true →
      (∀ freq : Word, freq ≠ 0 → exec (.flashInit freq) s = .refused .aliasedBusesBothHeld) ∧
        (s.flash.freqHz ≠ 0 → ∀ len : Word, len.toNat ≤ Config.maxLen →
          exec (.flashWrite len) s = .refused .aliasedBusesBothHeld ∧
            exec (.flashErase len) s = .refused .aliasedBusesBothHeld))

/-- U5 (log 15): an erase or program at or beyond the size of an idle reference flash is refused. -/
def Obligations.AddressesBeyondTheChipAreRefused : Prop :=
  ∀ (a : Addr) (len : Word) (s : State) (f : RefFlash), Inv s → s.cfg.framesDistinct = true → s.flash.active = true →
    s.world.flash = some f → f.busy = 0 → f.size.val ≤ a.toNat →
      exec (.flashEraseSector a) s = .refused .flashAddressBeyondChip ∧
        exec (.flashProgramPage a len) s = .refused .flashAddressBeyondChip

/-! ### The target chips (20 section 8; log 11) -/

/-- R40, R57, R58 (log 11): no instruction changes a byte of the reference flash outside those it stores to, at addresses computed
as the frames' are. -/
def Obligations.FlashBytesOutsideTheStoresAreKept : Prop :=
  ∀ (i : Instr) (s t : State) (f : RefFlash), Inv s → s.cfg.framesDistinct = true → exec i s = .next t →
    s.world.flash = some f →
      ∃ g, t.world.flash = some g ∧ g.size = f.size ∧
        ∀ x, ¬stores s.cfg i x → g.mem.read x = f.mem.read x

/-- R56, R57, R59 (log 11): what FLASH_ERASE_SECTOR leaves in an idle reference flash. -/
def Obligations.EraseSectorBlanksTheSector : Prop :=
  ∀ (a : Addr) (s t : State) (f : RefFlash), Inv s → s.cfg.framesDistinct = true → flashCovers (a.toNat + 1) s = true →
    s.flash.active = true → s.world.flash = some f → f.busy = 0 → exec (.flashEraseSector a) s = .next t →
      ∃ g, t.world.flash = some g ∧ (∀ x, inSector s.cfg a x → g.mem.read x = 0xFF) ∧
        (∀ x, ¬inSector s.cfg a x → g.mem.read x = f.mem.read x) ∧ g.wel = false ∧
        (t.res = Code.ok.byte → g.busy = 0)

/-- R56, R58, R59 (log 11): what FLASH_PROGRAM_PAGE leaves in an idle reference flash: each data byte is anded into its target. -/
def Obligations.ProgramPageAndsTheData : Prop :=
  ∀ (a : Addr) (len : Word) (s t : State) (f : RefFlash), Inv s → s.cfg.framesDistinct = true → flashCovers (a.toNat + 1) s = true →
    1 ≤ min len.toNat s.cfg.pageSize → s.flash.active = true → s.world.flash = some f → f.busy = 0 →
    exec (.flashProgramPage a len) s = .next t →
      ∃ g, t.world.flash = some g ∧
        (∀ n, n < min len.toNat s.cfg.pageSize →
          g.mem.read (programTarget s.cfg a n) = f.mem.read (programTarget s.cfg a n) &&& s.buf.read n) ∧
        (∀ x, ¬inProgram s.cfg a (min len.toNat s.cfg.pageSize) x → g.mem.read x = f.mem.read x) ∧ g.wel = false ∧
        (t.res = Code.ok.byte → g.busy = 0)

/-- R191 with R55 to R59 (log 11): a FLASH_WRITE that ends with `OK` on an idle reference flash leaves the buffer at offset 0, the
rest of the last sector erased, and every other byte as it was. -/
def Obligations.FlashWriteStoresTheBuffer : Prop :=
  ∀ (len : Word) (s t : State) (f : RefFlash), Inv s → s.cfg.ok = true → s.cfg.framesDistinct = true →
    flashCovers len.toNat s = true → s.world.flash = some f → f.busy = 0 → exec (.flashWrite len) s = .next t →
    t.res = Code.ok.byte →
      ∃ g, t.world.flash = some g ∧
        (∀ x, x < len.toNat → g.mem.read x = s.buf.read x) ∧
        (∀ x, len.toNat ≤ x → x < nsect s.cfg len.toNat * s.cfg.sectorSize → g.mem.read x = 0xFF) ∧
        (∀ x, nsect s.cfg len.toNat * s.cfg.sectorSize ≤ x → g.mem.read x = f.mem.read x)

/-- R60, R61 (log 11, 12): a CRAM_LOAD of a valid stream, with CRESET released and CLOCK running, configures the reference FPGA, and the
next FPGA_START sees it; a FPGA_STOP clears it. -/
def Obligations.ValidStreamConfiguresTheFpga : Prop :=
  ∀ (len : Word) (s t : State) (f : RefFpga), Inv s → s.cfg.ok = true → s.world.fpga = some f →
    (s.fpga.phase = .clocking ∨ s.fpga.phase = .configured) → 1 ≤ s.cfg.trailClocks → s.cram.isOpen = false →
    f.valid.holds (s.buf.slice 0 len.toNat) = true → exec (.cramLoad len) s = .next t → t.res = Code.ok.byte →
      t.world.fpga = some ⟨true, s.buf.slice 0 len.toNat, f.valid⟩ ∧
      (∃ u, exec .fpgaStart t = .next u ∧ u.res = Code.ok.byte ∧ u.fpga.phase = .configured ∧
        u.trace = t.trace ++ startEvents t.fpga.freqKhz [true]) ∧
      (quietAt .fpgaStop t = true → ∃ u, exec .fpgaStop t = .next u ∧
        u.world.fpga = some ⟨false, s.buf.slice 0 len.toNat, f.valid⟩)

/-- The model's choice (log 10): two memories in canonical form that read alike everywhere are equal. -/
def Obligations.CanonicalMemoriesAreEqualWhenTheyReadAlike : Prop :=
  ∀ m n : Memory, m.wf → n.wf → (∀ a, m.read a = n.read a) → m = n
end

