-- ==== Sys2Proof/Laws/Decode.lean ====
section
/-! SUPPORT. The fields of an encoded word come back as they went in. -/

namespace Sys2Proof.Laws

/-- The number of a concatenation. -/
theorem toNat_append_eq {n m : Nat} (x : BitVec n) (y : BitVec m) : (x ++ y).toNat = x.toNat * 2 ^ m + y.toNat := by
  rw [BitVec.toNat_append, ← Nat.shiftLeft_add_eq_or_of_lt y.isLt, Nat.shiftLeft_eq]

theorem toNat_commandWord (op : Byte) (arg : Addr) : (commandWord op arg).toNat = op.toNat * 2 ^ 24 + arg.toNat :=
  toNat_append_eq op arg

theorem toNat_opcodeOf (cw : Word) : (opcodeOf cw).toNat = cw.toNat / 2 ^ 24 := by
  have := cw.isLt
  simp only [opcodeOf, BitVec.extractLsb'_toNat, Nat.shiftRight_eq_div_pow]
  omega

theorem toNat_argOf (cw : Word) : (argOf cw).toNat = cw.toNat % 2 ^ 24 := by
  simp [argOf, BitVec.extractLsb'_toNat]

@[simp] theorem opcodeOf_commandWord (op : Byte) (arg : Addr) : opcodeOf (commandWord op arg) = op := by
  have := arg.isLt
  apply BitVec.eq_of_toNat_eq
  rw [toNat_opcodeOf, toNat_commandWord]
  omega

@[simp] theorem argOf_commandWord (op : Byte) (arg : Addr) : argOf (commandWord op arg) = arg := by
  have := arg.isLt
  apply BitVec.eq_of_toNat_eq
  rw [toNat_argOf, toNat_commandWord]
  omega

/-- A command word is its two fields. -/
theorem commandWord_fields (cw : Word) : commandWord (opcodeOf cw) (argOf cw) = cw := by
  apply BitVec.eq_of_toNat_eq
  rw [toNat_commandWord, toNat_opcodeOf, toNat_argOf]
  omega

/-- The three address bytes stand for the address. -/
@[simp] theorem addrOfBytes_addrBytes (a : Addr) :
    addrOfBytes (a.extractLsb' 16 8) (a.extractLsb' 8 8) (a.extractLsb' 0 8) = a := by
  have := a.isLt
  apply BitVec.eq_of_toNat_eq
  have h : ∀ x y z : Byte, (addrOfBytes x y z).toNat = (x.toNat * 2 ^ 8 + y.toNat) * 2 ^ 8 + z.toNat := by
    intro x y z
    rw [← toNat_append_eq, ← toNat_append_eq]
    rfl
  rw [h]
  simp only [BitVec.extractLsb'_toNat, Nat.shiftRight_eq_div_pow]
  omega

/-- The bytes of an SE frame decode to it, whatever the opcodes are. -/
theorem decodeFrame_se (c : Config) (a : Addr) : decodeFrame c (c.opSe :: addrBytes a) = .ok (.se a) := by
  simp [decodeFrame, addrBytes]

/-- The byte of a WREN frame decodes to it, whatever the opcodes are. -/
theorem decodeFrame_wren (c : Config) : decodeFrame c [c.opWren] = .ok .wren := by simp [decodeFrame]

/-- The byte of an RDSR frame decodes to it. -/
theorem decodeFrame_rdsr {c : Config} (h : c.framesDistinct = true) : decodeFrame c [c.opRdsr] = .ok .rdsr := by
  simp only [Config.framesDistinct, Bool.and_eq_true, decide_eq_true_eq] at h
  simp [decodeFrame, h.1.symm]

/-- The bytes of a PP frame of at most a page of data decode to it. -/
theorem decodeFrame_pp {c : Config} (h : c.framesDistinct = true) (a : Addr) {data : List Byte}
    (hd : data.length ≤ c.pageSize) : decodeFrame c (c.opPp :: (addrBytes a ++ data)) = .ok (.pp a data) := by
  simp only [Config.framesDistinct, Bool.and_eq_true, decide_eq_true_eq] at h
  simp [decodeFrame, addrBytes, h.2.symm, hd]

/-- One byte alone is no SE and no PP frame. -/
theorem decodeFrame_single (c : Config) (b : Byte) :
    (∀ a, decodeFrame c [b] ≠ .ok (.se a)) ∧ ∀ a data, decodeFrame c [b] ≠ .ok (.pp a data) := by
  simp only [decodeFrame]
  constructor
  · intro a
    repeat' (split <;> try simp)
  · intro a data
    repeat' (split <;> try simp)

/-- Whatever frame its first byte makes of it, a frame with these address bytes addresses this byte. -/
theorem decodeFrame_addr {c : Config} {cmd : Byte} {a : Addr} {data : List Byte} :
    (∀ b, decodeFrame c (cmd :: (addrBytes a ++ data)) = .ok (.se b) → b = a) ∧
      ∀ b rest, decodeFrame c (cmd :: (addrBytes a ++ data)) = .ok (.pp b rest) → b = a := by
  have key : decodeFrame c (cmd :: (addrBytes a ++ data)) = .ok (.se a) ∨
      (∃ rest, decodeFrame c (cmd :: (addrBytes a ++ data)) = .ok (.pp a rest)) ∨
      ∃ e, decodeFrame c (cmd :: (addrBytes a ++ data)) = .error e := by
    simp only [decodeFrame, addrBytes, List.cons_append, List.nil_append, addrOfBytes_addrBytes]
    split
    · exact .inl rfl
    · split
      · exact .inr (.inl ⟨data, rfl⟩)
      · exact .inr (.inr ⟨_, rfl⟩)
  rcases key with h | ⟨d, h⟩ | ⟨e, h⟩
  all_goals
    rw [h]
    refine ⟨fun b hb => ?_, fun b rest hb => ?_⟩
    all_goals
      cases hb
      try rfl

end Sys2Proof.Laws
end

