-- ==== Sys2Proof/Laws/Memory.lean ====
section
/-! SUPPORT. The memory laws: what a read gives after a write or an erase, and that both keep the canonical form. -/

namespace Sys2Proof.Machine.Memory

@[simp] theorem read_nil (a : Nat) : read [] a = blank := rfl

/-- Below every listed address a memory reads blank. -/
theorem read_of_lt {m : Memory} {a : Nat} (h : ∀ c ∈ m, a < c.1) : read m a = blank := by
  induction m with
  | nil => rfl
  | cons c m ih =>
    have hc : a < c.1 := h c (by simp)
    rw [show c = (c.1, c.2) from rfl, read, if_neg (by omega)]
    exact ih fun d hd => h d (by simp [hd])

theorem pairwise_tail_lt {c : Host.Cell} {m : Memory} (h : (c :: m).Pairwise (fun a b => a.1 < b.1)) :
    ∀ d ∈ m, c.1 < d.1 := (List.pairwise_cons.mp h).1

/-- A read after a write gives the written byte there and the old byte elsewhere. -/
theorem read_write {m : Memory} (h : m.Pairwise (fun a b => a.1 < b.1)) (a : Nat) (v : Byte) (x : Nat) :
    (m.write a v).read x = if x = a then v else m.read x := by
  induction m with
  | nil => by_cases hv : v = blank <;> by_cases hx : x = a <;> simp [write, read, hv, hx]
  | cons c m ih =>
    obtain ⟨k, w⟩ := c
    have htail := pairwise_tail_lt h
    have ih' := ih (List.pairwise_cons.mp h).2
    simp only [write]
    by_cases h1 : a < k
    · by_cases hv : v = blank
      · subst hv
        by_cases hx : x = a
        · subst hx
          have : read ((k, w) :: m) x = blank := read_of_lt (by
            intro d hd
            rcases List.mem_cons.mp hd with rfl | hd
            · exact h1
            · exact Nat.lt_trans h1 (htail d hd))
          simp [h1, this]
        · simp [h1, hx]
      · by_cases hx : x = a <;> simp [h1, hv, hx, read]
    · by_cases h2 : a = k
      · subst h2
        by_cases hv : v = blank
        · subst hv
          by_cases hx : x = a
          · subst hx
            simp [read_of_lt htail]
          · simp [hx, read]
        · by_cases hx : x = a <;> simp [hv, hx, read]
      · simp only [h1, h2, if_false, read]
        by_cases hk : x = k
        · have : x ≠ a := by omega
          simp [hk, Ne.symm h2]
        · simp [hk, ih']

theorem mem_write {m : Memory} {a : Nat} {v : Byte} {c : Host.Cell} (h : c ∈ m.write a v) : c = (a, v) ∨ c ∈ m := by
  induction m with
  | nil => by_cases hv : v = blank <;> simp_all [write]
  | cons d m ih =>
    obtain ⟨k, w⟩ := d
    simp only [write] at h
    split at h
    · split at h <;> simp_all
    · split at h
      · split at h <;> simp_all
        tauto
      · rcases List.mem_cons.mp h with h | h
        · exact .inr (by simp [h])
        · rcases ih h with h | h <;> simp [h]

/-- A write keeps the canonical form. -/
theorem write_wf {m : Memory} (h : m.wf) (a : Nat) (v : Byte) : (m.write a v).wf := by
  obtain ⟨hs, hb⟩ := h
  induction m with
  | nil => by_cases hv : v = blank <;> simp [write, hv, wf]
  | cons c m ih =>
    obtain ⟨k, w⟩ := c
    have htail := pairwise_tail_lt hs
    have hm := (List.pairwise_cons.mp hs).2
    have ih' := ih hm (fun c hc => hb c (by simp [hc]))
    simp only [write]
    by_cases h1 : a < k
    · by_cases hv : v = blank
      · simp only [h1, hv, if_true]
        exact ⟨hs, hb⟩
      · simp only [h1, hv, if_true, if_false]
        refine ⟨List.pairwise_cons.mpr ⟨?_, hs⟩, ?_⟩
        · intro d hd
          rcases List.mem_cons.mp hd with rfl | hd
          · exact h1
          · exact Nat.lt_trans h1 (htail d hd)
        · intro d hd
          rcases List.mem_cons.mp hd with rfl | hd
          · exact hv
          · exact hb d hd
    · by_cases h2 : a = k
      · subst h2
        by_cases hv : v = blank
        · simp only [Nat.lt_irrefl, hv, if_true, if_false]
          exact ⟨hm, fun c hc => hb c (List.mem_cons_of_mem _ hc)⟩
        · simp only [Nat.lt_irrefl, hv, if_true, if_false]
          refine ⟨List.pairwise_cons.mpr ⟨htail, hm⟩, ?_⟩
          intro d hd
          rcases List.mem_cons.mp hd with rfl | hd
          · exact hv
          · exact hb d (by simp [hd])
      · simp only [h1, h2, if_false]
        refine ⟨List.pairwise_cons.mpr ⟨?_, ih'.1⟩, ?_⟩
        · intro d hd
          rcases mem_write hd with rfl | hd
          · show k < a
            omega
          · exact htail d hd
        · intro d hd
          rcases List.mem_cons.mp hd with rfl | hd
          · exact hb _ (by simp)
          · exact ih'.2 d hd

/-- A read after an erase gives a blank byte in the range and the old byte elsewhere. -/
theorem read_eraseRange (m : Memory) (lo n x : Nat) :
    (m.eraseRange lo n).read x = if lo ≤ x ∧ x < lo + n then blank else m.read x := by
  induction m with
  | nil => simp [eraseRange]
  | cons c m ih =>
    obtain ⟨k, w⟩ := c
    simp only [eraseRange] at ih ⊢
    rw [List.filter_cons]
    by_cases hin : lo ≤ x ∧ x < lo + n
    · split
      · rename_i hk
        have hne : x ≠ k := by
          intro h
          simp only [Bool.or_eq_true, decide_eq_true_eq] at hk
          omega
        simp only [read, hne, if_false, ih, hin, and_self, if_true]
      · simp only [ih, hin, and_self, if_true]
    · split
      · simp only [read, ih]
        simp only [hin, if_false]
      · rename_i hk
        have hne : x ≠ k := by
          intro h
          simp only [Bool.or_eq_true, decide_eq_true_eq] at hk
          omega
        simp only [read, ih, hin, if_false, hne]

/-- An erase keeps the canonical form. -/
theorem eraseRange_wf {m : Memory} (h : m.wf) (lo n : Nat) : (m.eraseRange lo n).wf :=
  ⟨h.1.filter _, fun c hc => h.2 c (List.mem_filter.mp hc).1⟩

@[simp] theorem slice_length (m : Memory) (a n : Nat) : (m.slice a n).length = n := by
  induction n generalizing a with
  | zero => rfl
  | succ n ih => simp [slice, ih]

/-- The byte at an index of a slice. -/
theorem slice_getElem (m : Memory) (a n i : Nat) (h : i < (m.slice a n).length) : (m.slice a n)[i] = m.read (a + i) := by
  induction n generalizing a i with
  | zero => simp at h
  | succ n ih =>
    cases i with
    | zero => rfl
    | succ i =>
      simp only [slice, List.getElem_cons_succ]
      rw [ih]
      congr 1
      omega

/-- A slice cut in two. -/
theorem slice_add (m : Memory) (a n k : Nat) : m.slice a (n + k) = m.slice a n ++ m.slice (a + n) k := by
  induction n generalizing a with
  | zero => simp [slice]
  | succ n ih =>
    rw [show n + 1 + k = (n + k) + 1 by omega]
    simp only [slice, ih, List.cons_append]
    congr 3
    omega

end Sys2Proof.Machine.Memory
end

