-- ==== Sys2Proof/Laws/Pins.lean ====
section
/-! SUPPORT. The pin registers: reading after writing, and what a list of events leaves of them. -/

namespace Sys2Proof.Machine.Pins

@[simp] theorem get_set (r : Pins) (p q : Pin) (x : PinReg) : (r.set p x).get q = if q = p then x else r.get q := by
  cases p <;> cases q <;> rfl

/-- Two pin files that agree on every pin are one. -/
theorem ext_get {a b : Pins} (h : ∀ p, a.get p = b.get p) : a = b := by
  cases a
  cases b
  simp only [Pins.mk.injEq]
  exact ⟨h .cdone, h .clock, h .creset, h .cCs, h .cDo, h .cSck, h .fSck, h .fMosi, h .fMiso, h .fCs⟩

@[simp] theorem get_setLevel (r : Pins) (p q : Pin) (v : Level) :
    (r.setLevel p v).get q = if q = p then ⟨(r.get p).dir, v⟩ else r.get q := by simp [setLevel]

@[simp] theorem get_setDir (r : Pins) (p q : Pin) (d : Dir) :
    (r.setDir p d).get q = if q = p then ⟨d, (r.get p).lvl⟩ else r.get q := by simp [setDir]

end Sys2Proof.Machine.Pins

namespace Sys2Proof.Laws

open Sys2Proof.Machine Sys2Proof.Safety

@[simp] theorem replayPins_nil (r : Pins) : replayPins [] r = r := rfl

@[simp] theorem replayPins_cons (e : Event) (es : List Event) (r : Pins) :
    replayPins (e :: es) r = replayPins es (pinsAfter e r) := rfl

@[simp] theorem replayPins_append (es fs : List Event) (r : Pins) :
    replayPins (es ++ fs) r = replayPins fs (replayPins es r) := List.foldl_append ..

@[simp] theorem replayClk_nil (k : ClkRegs) : replayClk [] k = k := rfl

@[simp] theorem replayClk_cons (e : Event) (es : List Event) (k : ClkRegs) :
    replayClk (e :: es) k = replayClk es (clkAfter e k) := rfl

@[simp] theorem replayClk_append (es fs : List Event) (k : ClkRegs) :
    replayClk (es ++ fs) k = replayClk fs (replayClk es k) := List.foldl_append ..

/-- An event leaves every pin but its own alone. -/
theorem pinsAfter_get_ne {e : Event} {q : Pin} (h : eventPin e ≠ q) (r : Pins) : (pinsAfter e r).get q = r.get q := by
  cases e <;> simp only [eventPin] at h <;> simp [pinsAfter, Ne.symm h]

/-- Events leave alone every pin that none of them is about. -/
theorem replayPins_get_of_forall_ne {es : List Event} {q : Pin} (h : ∀ e ∈ es, eventPin e ≠ q) (r : Pins) :
    (replayPins es r).get q = r.get q := by
  induction es generalizing r with
  | nil => rfl
  | cons e es ih =>
    rw [replayPins_cons, ih (fun f hf => h f (by simp [hf])), pinsAfter_get_ne (h e (by simp))]

/-- Events off the CLOCK pin leave the clock generator alone. -/
theorem replayClk_of_forall_ne {es : List Event} (h : ∀ e ∈ es, eventPin e ≠ .clock) (k : ClkRegs) :
    replayClk es k = k := by
  induction es generalizing k with
  | nil => rfl
  | cons e es ih =>
    have he := h e List.mem_cons_self
    have hs : clkAfter e k = k := by
      cases e with
      | clkOn f => exact absurd rfl he
      | clkOff => exact absurd rfl he
      | drv p v => rfl
      | dir p d => rfl
      | smp p v => rfl
    rw [replayClk_cons, hs]
    exact ih (fun f hf => h f (List.mem_cons_of_mem _ hf)) k

/-- Events with no direction among them leave every direction alone. -/
theorem replayPins_dir {es : List Event} (h : ∀ p d, Event.dir p d ∉ es) (q : Pin) (r : Pins) :
    ((replayPins es r).get q).dir = (r.get q).dir := by
  induction es generalizing r with
  | nil => rfl
  | cons e es ih =>
    rw [replayPins_cons, ih (fun p d hm => h p d (by simp [hm]))]
    cases e with
    | dir p d => exact absurd (List.mem_cons_self ..) (h p d)
    | drv p v =>
      simp only [pinsAfter, Pins.get_setLevel]
      split <;> simp_all
    | smp p v => rfl
    | clkOn f =>
      simp only [pinsAfter, Pins.get_setLevel]
      split <;> simp_all
    | clkOff =>
      simp only [pinsAfter, Pins.get_setLevel]
      split <;> simp_all

end Sys2Proof.Laws
end

