-- ==== Sys2Proof/Laws/State.lean ====
section
/-! SUPPORT. One lemma for each field of State and each named update: what the update leaves in the field. -/

namespace Sys2Proof.Machine.State

@[simp] theorem setShift_fpga (b : Byte) (i : Nat) (s : State) : (s.setShift b i).fpga = s.fpga := rfl
@[simp] theorem setShift_cram (b : Byte) (i : Nat) (s : State) : (s.setShift b i).cram = s.cram := rfl
@[simp] theorem setShift_flash (b : Byte) (i : Nat) (s : State) : (s.setShift b i).flash = s.flash := rfl
@[simp] theorem setShift_clk (b : Byte) (i : Nat) (s : State) : (s.setShift b i).clk = s.clk := rfl
@[simp] theorem setShift_pins (b : Byte) (i : Nat) (s : State) : (s.setShift b i).pins = s.pins := rfl
@[simp] theorem setShift_res (b : Byte) (i : Nat) (s : State) : (s.setShift b i).res = s.res := rfl
@[simp] theorem setShift_tmp (b : Byte) (i : Nat) (s : State) : (s.setShift b i).tmp = { s.tmp with shByte := some b, shBit := some (BitVec.ofNat 3 i) } := rfl
@[simp] theorem setShift_trace (b : Byte) (i : Nat) (s : State) : (s.setShift b i).trace = s.trace := rfl
@[simp] theorem setShift_port (b : Byte) (i : Nat) (s : State) : (s.setShift b i).port = s.port := rfl
@[simp] theorem setShift_buf (b : Byte) (i : Nat) (s : State) : (s.setShift b i).buf = s.buf := rfl
@[simp] theorem setShift_world (b : Byte) (i : Nat) (s : State) : (s.setShift b i).world = s.world := rfl
@[simp] theorem setShift_cfg (b : Byte) (i : Nat) (s : State) : (s.setShift b i).cfg = s.cfg := rfl

@[simp] theorem setIdx_fpga (i : Nat) (s : State) : (s.setIdx i).fpga = s.fpga := rfl
@[simp] theorem setIdx_cram (i : Nat) (s : State) : (s.setIdx i).cram = s.cram := rfl
@[simp] theorem setIdx_flash (i : Nat) (s : State) : (s.setIdx i).flash = s.flash := rfl
@[simp] theorem setIdx_clk (i : Nat) (s : State) : (s.setIdx i).clk = s.clk := rfl
@[simp] theorem setIdx_pins (i : Nat) (s : State) : (s.setIdx i).pins = s.pins := rfl
@[simp] theorem setIdx_res (i : Nat) (s : State) : (s.setIdx i).res = s.res := rfl
@[simp] theorem setIdx_tmp (i : Nat) (s : State) : (s.setIdx i).tmp = { s.tmp with seqIdx := some (BitVec.ofNat 32 i) } := rfl
@[simp] theorem setIdx_trace (i : Nat) (s : State) : (s.setIdx i).trace = s.trace := rfl
@[simp] theorem setIdx_port (i : Nat) (s : State) : (s.setIdx i).port = s.port := rfl
@[simp] theorem setIdx_buf (i : Nat) (s : State) : (s.setIdx i).buf = s.buf := rfl
@[simp] theorem setIdx_world (i : Nat) (s : State) : (s.setIdx i).world = s.world := rfl
@[simp] theorem setIdx_cfg (i : Nat) (s : State) : (s.setIdx i).cfg = s.cfg := rfl

@[simp] theorem setAddr_fpga (a : Addr) (s : State) : (s.setAddr a).fpga = s.fpga := rfl
@[simp] theorem setAddr_cram (a : Addr) (s : State) : (s.setAddr a).cram = s.cram := rfl
@[simp] theorem setAddr_flash (a : Addr) (s : State) : (s.setAddr a).flash = s.flash := rfl
@[simp] theorem setAddr_clk (a : Addr) (s : State) : (s.setAddr a).clk = s.clk := rfl
@[simp] theorem setAddr_pins (a : Addr) (s : State) : (s.setAddr a).pins = s.pins := rfl
@[simp] theorem setAddr_res (a : Addr) (s : State) : (s.setAddr a).res = s.res := rfl
@[simp] theorem setAddr_tmp (a : Addr) (s : State) : (s.setAddr a).tmp = { s.tmp with seqAddr := some a } := rfl
@[simp] theorem setAddr_trace (a : Addr) (s : State) : (s.setAddr a).trace = s.trace := rfl
@[simp] theorem setAddr_port (a : Addr) (s : State) : (s.setAddr a).port = s.port := rfl
@[simp] theorem setAddr_buf (a : Addr) (s : State) : (s.setAddr a).buf = s.buf := rfl
@[simp] theorem setAddr_world (a : Addr) (s : State) : (s.setAddr a).world = s.world := rfl
@[simp] theorem setAddr_cfg (a : Addr) (s : State) : (s.setAddr a).cfg = s.cfg := rfl

@[simp] theorem setUnit_fpga (k : Nat) (s : State) : (s.setUnit k).fpga = s.fpga := rfl
@[simp] theorem setUnit_cram (k : Nat) (s : State) : (s.setUnit k).cram = s.cram := rfl
@[simp] theorem setUnit_flash (k : Nat) (s : State) : (s.setUnit k).flash = s.flash := rfl
@[simp] theorem setUnit_clk (k : Nat) (s : State) : (s.setUnit k).clk = s.clk := rfl
@[simp] theorem setUnit_pins (k : Nat) (s : State) : (s.setUnit k).pins = s.pins := rfl
@[simp] theorem setUnit_res (k : Nat) (s : State) : (s.setUnit k).res = s.res := rfl
@[simp] theorem setUnit_tmp (k : Nat) (s : State) : (s.setUnit k).tmp = { s.tmp with seqUnit := some (BitVec.ofNat 32 k) } := rfl
@[simp] theorem setUnit_trace (k : Nat) (s : State) : (s.setUnit k).trace = s.trace := rfl
@[simp] theorem setUnit_port (k : Nat) (s : State) : (s.setUnit k).port = s.port := rfl
@[simp] theorem setUnit_buf (k : Nat) (s : State) : (s.setUnit k).buf = s.buf := rfl
@[simp] theorem setUnit_world (k : Nat) (s : State) : (s.setUnit k).world = s.world := rfl
@[simp] theorem setUnit_cfg (k : Nat) (s : State) : (s.setUnit k).cfg = s.cfg := rfl

@[simp] theorem setPoll_fpga (k : Nat) (s : State) : (s.setPoll k).fpga = s.fpga := rfl
@[simp] theorem setPoll_cram (k : Nat) (s : State) : (s.setPoll k).cram = s.cram := rfl
@[simp] theorem setPoll_flash (k : Nat) (s : State) : (s.setPoll k).flash = s.flash := rfl
@[simp] theorem setPoll_clk (k : Nat) (s : State) : (s.setPoll k).clk = s.clk := rfl
@[simp] theorem setPoll_pins (k : Nat) (s : State) : (s.setPoll k).pins = s.pins := rfl
@[simp] theorem setPoll_res (k : Nat) (s : State) : (s.setPoll k).res = s.res := rfl
@[simp] theorem setPoll_tmp (k : Nat) (s : State) : (s.setPoll k).tmp = { s.tmp with seqPoll := some (BitVec.ofNat 32 k) } := rfl
@[simp] theorem setPoll_trace (k : Nat) (s : State) : (s.setPoll k).trace = s.trace := rfl
@[simp] theorem setPoll_port (k : Nat) (s : State) : (s.setPoll k).port = s.port := rfl
@[simp] theorem setPoll_buf (k : Nat) (s : State) : (s.setPoll k).buf = s.buf := rfl
@[simp] theorem setPoll_world (k : Nat) (s : State) : (s.setPoll k).world = s.world := rfl
@[simp] theorem setPoll_cfg (k : Nat) (s : State) : (s.setPoll k).cfg = s.cfg := rfl

@[simp] theorem settle_fpga (s : State) : s.settle.fpga = s.fpga := rfl
@[simp] theorem settle_cram (s : State) : s.settle.cram = s.cram := rfl
@[simp] theorem settle_flash (s : State) : s.settle.flash = s.flash := rfl
@[simp] theorem settle_clk (s : State) : s.settle.clk = s.clk := rfl
@[simp] theorem settle_pins (s : State) : s.settle.pins = s.pins := rfl
@[simp] theorem settle_res (s : State) : s.settle.res = s.res := rfl
@[simp] theorem settle_tmp (s : State) : s.settle.tmp = Transient.unset := rfl
@[simp] theorem settle_trace (s : State) : s.settle.trace = s.trace := rfl
@[simp] theorem settle_port (s : State) : s.settle.port = s.port := rfl
@[simp] theorem settle_buf (s : State) : s.settle.buf = s.buf := rfl
@[simp] theorem settle_world (s : State) : s.settle.world = s.world := rfl
@[simp] theorem settle_cfg (s : State) : s.settle.cfg = s.cfg := rfl

@[simp] theorem drive_fpga (p : Pin) (v : Bool) (s : State) : (s.drive p v).fpga = s.fpga := rfl
@[simp] theorem drive_cram (p : Pin) (v : Bool) (s : State) : (s.drive p v).cram = s.cram := rfl
@[simp] theorem drive_flash (p : Pin) (v : Bool) (s : State) : (s.drive p v).flash = s.flash := rfl
@[simp] theorem drive_clk (p : Pin) (v : Bool) (s : State) : (s.drive p v).clk = s.clk := rfl
@[simp] theorem drive_pins (p : Pin) (v : Bool) (s : State) : (s.drive p v).pins = s.pins.setLevel p (Level.ofBit v) := rfl
@[simp] theorem drive_res (p : Pin) (v : Bool) (s : State) : (s.drive p v).res = s.res := rfl
@[simp] theorem drive_tmp (p : Pin) (v : Bool) (s : State) : (s.drive p v).tmp = s.tmp := rfl
@[simp] theorem drive_trace (p : Pin) (v : Bool) (s : State) : (s.drive p v).trace = s.trace ++ [.drv p v] := rfl
@[simp] theorem drive_port (p : Pin) (v : Bool) (s : State) : (s.drive p v).port = s.port := rfl
@[simp] theorem drive_buf (p : Pin) (v : Bool) (s : State) : (s.drive p v).buf = s.buf := rfl
@[simp] theorem drive_world (p : Pin) (v : Bool) (s : State) : (s.drive p v).world = s.world.onDrive s.cfg p (s.pins.get p).dir v := rfl
@[simp] theorem drive_cfg (p : Pin) (v : Bool) (s : State) : (s.drive p v).cfg = s.cfg := rfl

@[simp] theorem setDir_fpga (p : Pin) (d : Dir) (s : State) : (s.setDir p d).fpga = s.fpga := rfl
@[simp] theorem setDir_cram (p : Pin) (d : Dir) (s : State) : (s.setDir p d).cram = s.cram := rfl
@[simp] theorem setDir_flash (p : Pin) (d : Dir) (s : State) : (s.setDir p d).flash = s.flash := rfl
@[simp] theorem setDir_clk (p : Pin) (d : Dir) (s : State) : (s.setDir p d).clk = s.clk := rfl
@[simp] theorem setDir_pins (p : Pin) (d : Dir) (s : State) : (s.setDir p d).pins = s.pins.setDir p d := rfl
@[simp] theorem setDir_res (p : Pin) (d : Dir) (s : State) : (s.setDir p d).res = s.res := rfl
@[simp] theorem setDir_tmp (p : Pin) (d : Dir) (s : State) : (s.setDir p d).tmp = s.tmp := rfl
@[simp] theorem setDir_trace (p : Pin) (d : Dir) (s : State) : (s.setDir p d).trace = s.trace ++ [.dir p d] := rfl
@[simp] theorem setDir_port (p : Pin) (d : Dir) (s : State) : (s.setDir p d).port = s.port := rfl
@[simp] theorem setDir_buf (p : Pin) (d : Dir) (s : State) : (s.setDir p d).buf = s.buf := rfl
@[simp] theorem setDir_world (p : Pin) (d : Dir) (s : State) : (s.setDir p d).world = s.world := rfl
@[simp] theorem setDir_cfg (p : Pin) (d : Dir) (s : State) : (s.setDir p d).cfg = s.cfg := rfl

@[simp] theorem clockRun_fpga (f : Word) (s : State) : (s.clockRun f).fpga = s.fpga := rfl
@[simp] theorem clockRun_cram (f : Word) (s : State) : (s.clockRun f).cram = s.cram := rfl
@[simp] theorem clockRun_flash (f : Word) (s : State) : (s.clockRun f).flash = s.flash := rfl
@[simp] theorem clockRun_clk (f : Word) (s : State) : (s.clockRun f).clk = ⟨true, some f⟩ := rfl
@[simp] theorem clockRun_pins (f : Word) (s : State) : (s.clockRun f).pins = s.pins.setLevel .clock .u := rfl
@[simp] theorem clockRun_res (f : Word) (s : State) : (s.clockRun f).res = s.res := rfl
@[simp] theorem clockRun_tmp (f : Word) (s : State) : (s.clockRun f).tmp = s.tmp := rfl
@[simp] theorem clockRun_trace (f : Word) (s : State) : (s.clockRun f).trace = s.trace ++ [.clkOn f] := rfl
@[simp] theorem clockRun_port (f : Word) (s : State) : (s.clockRun f).port = s.port := rfl
@[simp] theorem clockRun_buf (f : Word) (s : State) : (s.clockRun f).buf = s.buf := rfl
@[simp] theorem clockRun_world (f : Word) (s : State) : (s.clockRun f).world = s.world := rfl
@[simp] theorem clockRun_cfg (f : Word) (s : State) : (s.clockRun f).cfg = s.cfg := rfl

@[simp] theorem clockHalt_fpga (s : State) : s.clockHalt.fpga = s.fpga := rfl
@[simp] theorem clockHalt_cram (s : State) : s.clockHalt.cram = s.cram := rfl
@[simp] theorem clockHalt_flash (s : State) : s.clockHalt.flash = s.flash := rfl
@[simp] theorem clockHalt_clk (s : State) : s.clockHalt.clk = ⟨false, s.clk.freqKhz⟩ := rfl
@[simp] theorem clockHalt_pins (s : State) : s.clockHalt.pins = s.pins.setLevel .clock .u := rfl
@[simp] theorem clockHalt_res (s : State) : s.clockHalt.res = s.res := rfl
@[simp] theorem clockHalt_tmp (s : State) : s.clockHalt.tmp = s.tmp := rfl
@[simp] theorem clockHalt_trace (s : State) : s.clockHalt.trace = s.trace ++ [.clkOff] := rfl
@[simp] theorem clockHalt_port (s : State) : s.clockHalt.port = s.port := rfl
@[simp] theorem clockHalt_buf (s : State) : s.clockHalt.buf = s.buf := rfl
@[simp] theorem clockHalt_world (s : State) : s.clockHalt.world = s.world := rfl
@[simp] theorem clockHalt_cfg (s : State) : s.clockHalt.cfg = s.cfg := rfl

@[simp] theorem sampleCdone_fpga (s : State) : s.sampleCdone.2.fpga = s.fpga := rfl
@[simp] theorem sampleCdone_cram (s : State) : s.sampleCdone.2.cram = s.cram := rfl
@[simp] theorem sampleCdone_flash (s : State) : s.sampleCdone.2.flash = s.flash := rfl
@[simp] theorem sampleCdone_clk (s : State) : s.sampleCdone.2.clk = s.clk := rfl
@[simp] theorem sampleCdone_pins (s : State) : s.sampleCdone.2.pins = s.pins := rfl
@[simp] theorem sampleCdone_res (s : State) : s.sampleCdone.2.res = s.res := rfl
@[simp] theorem sampleCdone_tmp (s : State) : s.sampleCdone.2.tmp = s.tmp := rfl
@[simp] theorem sampleCdone_trace (s : State) : s.sampleCdone.2.trace = s.trace ++ [.smp .cdone s.sampleCdone.1] := rfl
@[simp] theorem sampleCdone_port (s : State) : s.sampleCdone.2.port = s.port := rfl
@[simp] theorem sampleCdone_buf (s : State) : s.sampleCdone.2.buf = s.buf := rfl
@[simp] theorem sampleCdone_world (s : State) : s.sampleCdone.2.world = s.world.nextCdone.2 := rfl
@[simp] theorem sampleCdone_cfg (s : State) : s.sampleCdone.2.cfg = s.cfg := rfl

@[simp] theorem sampleMiso_fpga (l : Option Bool) (s : State) : (s.sampleMiso l).2.fpga = s.fpga := rfl
@[simp] theorem sampleMiso_cram (l : Option Bool) (s : State) : (s.sampleMiso l).2.cram = s.cram := rfl
@[simp] theorem sampleMiso_flash (l : Option Bool) (s : State) : (s.sampleMiso l).2.flash = s.flash := rfl
@[simp] theorem sampleMiso_clk (l : Option Bool) (s : State) : (s.sampleMiso l).2.clk = s.clk := rfl
@[simp] theorem sampleMiso_pins (l : Option Bool) (s : State) : (s.sampleMiso l).2.pins = s.pins := rfl
@[simp] theorem sampleMiso_res (l : Option Bool) (s : State) : (s.sampleMiso l).2.res = s.res := rfl
@[simp] theorem sampleMiso_tmp (l : Option Bool) (s : State) : (s.sampleMiso l).2.tmp = s.tmp := rfl
@[simp] theorem sampleMiso_trace (l : Option Bool) (s : State) : (s.sampleMiso l).2.trace = s.trace ++ [.smp .fMiso (s.sampleMiso l).1] := rfl
@[simp] theorem sampleMiso_port (l : Option Bool) (s : State) : (s.sampleMiso l).2.port = s.port := rfl
@[simp] theorem sampleMiso_buf (l : Option Bool) (s : State) : (s.sampleMiso l).2.buf = s.buf := rfl
@[simp] theorem sampleMiso_cfg (l : Option Bool) (s : State) : (s.sampleMiso l).2.cfg = s.cfg := rfl

@[simp] theorem consult_fpga (site : FaultSite) (s : State) : (s.consult site).2.fpga = s.fpga := rfl
@[simp] theorem consult_cram (site : FaultSite) (s : State) : (s.consult site).2.cram = s.cram := rfl
@[simp] theorem consult_flash (site : FaultSite) (s : State) : (s.consult site).2.flash = s.flash := rfl
@[simp] theorem consult_clk (site : FaultSite) (s : State) : (s.consult site).2.clk = s.clk := rfl
@[simp] theorem consult_pins (site : FaultSite) (s : State) : (s.consult site).2.pins = s.pins := rfl
@[simp] theorem consult_res (site : FaultSite) (s : State) : (s.consult site).2.res = s.res := rfl
@[simp] theorem consult_tmp (site : FaultSite) (s : State) : (s.consult site).2.tmp = s.tmp := rfl
@[simp] theorem consult_trace (site : FaultSite) (s : State) : (s.consult site).2.trace = s.trace := rfl
@[simp] theorem consult_port (site : FaultSite) (s : State) : (s.consult site).2.port = s.port := rfl
@[simp] theorem consult_buf (site : FaultSite) (s : State) : (s.consult site).2.buf = s.buf := rfl
@[simp] theorem consult_world (site : FaultSite) (s : State) : (s.consult site).2.world = (s.world.nextFault s.cfg site).2 := rfl
@[simp] theorem consult_cfg (site : FaultSite) (s : State) : (s.consult site).2.cfg = s.cfg := rfl

@[simp] theorem succeed_fpga (s : State) : s.succeed.fpga = s.fpga := rfl
@[simp] theorem succeed_cram (s : State) : s.succeed.cram = s.cram := rfl
@[simp] theorem succeed_flash (s : State) : s.succeed.flash = s.flash := rfl
@[simp] theorem succeed_clk (s : State) : s.succeed.clk = s.clk := rfl
@[simp] theorem succeed_pins (s : State) : s.succeed.pins = s.pins := rfl
@[simp] theorem succeed_res (s : State) : s.succeed.res = 0 := rfl
@[simp] theorem succeed_tmp (s : State) : s.succeed.tmp = s.tmp := rfl
@[simp] theorem succeed_trace (s : State) : s.succeed.trace = s.trace := rfl
@[simp] theorem succeed_port (s : State) : s.succeed.port = s.port := rfl
@[simp] theorem succeed_buf (s : State) : s.succeed.buf = s.buf := rfl
@[simp] theorem succeed_world (s : State) : s.succeed.world = s.world := rfl
@[simp] theorem succeed_cfg (s : State) : s.succeed.cfg = s.cfg := rfl

@[simp] theorem raise_fpga (k : Code) (s : State) : (s.raise k).fpga = s.fpga := rfl
@[simp] theorem raise_cram (k : Code) (s : State) : (s.raise k).cram = s.cram := rfl
@[simp] theorem raise_flash (k : Code) (s : State) : (s.raise k).flash = s.flash := rfl
@[simp] theorem raise_clk (k : Code) (s : State) : (s.raise k).clk = s.clk := rfl
@[simp] theorem raise_pins (k : Code) (s : State) : (s.raise k).pins = s.pins := rfl
@[simp] theorem raise_res (k : Code) (s : State) : (s.raise k).res = k.byte := rfl
@[simp] theorem raise_tmp (k : Code) (s : State) : (s.raise k).tmp = s.tmp := rfl
@[simp] theorem raise_trace (k : Code) (s : State) : (s.raise k).trace = s.trace := rfl
@[simp] theorem raise_port (k : Code) (s : State) : (s.raise k).port = s.port := rfl
@[simp] theorem raise_buf (k : Code) (s : State) : (s.raise k).buf = s.buf := rfl
@[simp] theorem raise_world (k : Code) (s : State) : (s.raise k).world = s.world := rfl
@[simp] theorem raise_cfg (k : Code) (s : State) : (s.raise k).cfg = s.cfg := rfl

@[simp] theorem withResult_fpga (w : Byte) (s : State) : (s.withResult w).fpga = s.fpga := rfl
@[simp] theorem withResult_cram (w : Byte) (s : State) : (s.withResult w).cram = s.cram := rfl
@[simp] theorem withResult_flash (w : Byte) (s : State) : (s.withResult w).flash = s.flash := rfl
@[simp] theorem withResult_clk (w : Byte) (s : State) : (s.withResult w).clk = s.clk := rfl
@[simp] theorem withResult_pins (w : Byte) (s : State) : (s.withResult w).pins = s.pins := rfl
@[simp] theorem withResult_res (w : Byte) (s : State) : (s.withResult w).res = w := rfl
@[simp] theorem withResult_tmp (w : Byte) (s : State) : (s.withResult w).tmp = s.tmp := rfl
@[simp] theorem withResult_trace (w : Byte) (s : State) : (s.withResult w).trace = s.trace := rfl
@[simp] theorem withResult_port (w : Byte) (s : State) : (s.withResult w).port = s.port := rfl
@[simp] theorem withResult_buf (w : Byte) (s : State) : (s.withResult w).buf = s.buf := rfl
@[simp] theorem withResult_world (w : Byte) (s : State) : (s.withResult w).world = s.world := rfl
@[simp] theorem withResult_cfg (w : Byte) (s : State) : (s.withResult w).cfg = s.cfg := rfl

@[simp] theorem accept_fpga (r : Request) (rest : List Request) (s : State) : (s.accept r rest).fpga = s.fpga := rfl
@[simp] theorem accept_cram (r : Request) (rest : List Request) (s : State) : (s.accept r rest).cram = s.cram := rfl
@[simp] theorem accept_flash (r : Request) (rest : List Request) (s : State) : (s.accept r rest).flash = s.flash := rfl
@[simp] theorem accept_clk (r : Request) (rest : List Request) (s : State) : (s.accept r rest).clk = s.clk := rfl
@[simp] theorem accept_pins (r : Request) (rest : List Request) (s : State) : (s.accept r rest).pins = s.pins := rfl
@[simp] theorem accept_res (r : Request) (rest : List Request) (s : State) : (s.accept r rest).res = s.res := rfl
@[simp] theorem accept_tmp (r : Request) (rest : List Request) (s : State) : (s.accept r rest).tmp = s.tmp := rfl
@[simp] theorem accept_trace (r : Request) (rest : List Request) (s : State) : (s.accept r rest).trace = s.trace := rfl
@[simp] theorem accept_port (r : Request) (rest : List Request) (s : State) : (s.accept r rest).port = rest := rfl
@[simp] theorem accept_buf (r : Request) (rest : List Request) (s : State) : (s.accept r rest).buf = r.buf := rfl
@[simp] theorem accept_world (r : Request) (rest : List Request) (s : State) : (s.accept r rest).world = s.world := rfl
@[simp] theorem accept_cfg (r : Request) (rest : List Request) (s : State) : (s.accept r rest).cfg = s.cfg := rfl

@[simp] theorem setPhase_fpga (p : Phase) (s : State) : (s.setPhase p).fpga = { s.fpga with phase := p } := rfl
@[simp] theorem setPhase_cram (p : Phase) (s : State) : (s.setPhase p).cram = s.cram := rfl
@[simp] theorem setPhase_flash (p : Phase) (s : State) : (s.setPhase p).flash = s.flash := rfl
@[simp] theorem setPhase_clk (p : Phase) (s : State) : (s.setPhase p).clk = s.clk := rfl
@[simp] theorem setPhase_pins (p : Phase) (s : State) : (s.setPhase p).pins = s.pins := rfl
@[simp] theorem setPhase_res (p : Phase) (s : State) : (s.setPhase p).res = s.res := rfl
@[simp] theorem setPhase_tmp (p : Phase) (s : State) : (s.setPhase p).tmp = s.tmp := rfl
@[simp] theorem setPhase_trace (p : Phase) (s : State) : (s.setPhase p).trace = s.trace := rfl
@[simp] theorem setPhase_port (p : Phase) (s : State) : (s.setPhase p).port = s.port := rfl
@[simp] theorem setPhase_buf (p : Phase) (s : State) : (s.setPhase p).buf = s.buf := rfl
@[simp] theorem setPhase_world (p : Phase) (s : State) : (s.setPhase p).world = s.world := rfl
@[simp] theorem setPhase_cfg (p : Phase) (s : State) : (s.setPhase p).cfg = s.cfg := rfl

@[simp] theorem countByte_fpga (s : State) : s.countByte.fpga = s.fpga := rfl
@[simp] theorem countByte_cram (s : State) : s.countByte.cram = { s.cram with bytes := s.cram.bytes + 1 } := rfl
@[simp] theorem countByte_flash (s : State) : s.countByte.flash = s.flash := rfl
@[simp] theorem countByte_clk (s : State) : s.countByte.clk = s.clk := rfl
@[simp] theorem countByte_pins (s : State) : s.countByte.pins = s.pins := rfl
@[simp] theorem countByte_res (s : State) : s.countByte.res = s.res := rfl
@[simp] theorem countByte_tmp (s : State) : s.countByte.tmp = s.tmp := rfl
@[simp] theorem countByte_trace (s : State) : s.countByte.trace = s.trace := rfl
@[simp] theorem countByte_port (s : State) : s.countByte.port = s.port := rfl
@[simp] theorem countByte_buf (s : State) : s.countByte.buf = s.buf := rfl
@[simp] theorem countByte_world (s : State) : s.countByte.world = s.world := rfl
@[simp] theorem countByte_cfg (s : State) : s.countByte.cfg = s.cfg := rfl

@[simp] theorem openSession_fpga (s : State) : s.openSession.fpga = s.fpga := rfl
@[simp] theorem openSession_cram (s : State) : s.openSession.cram = ⟨true, 0⟩ := rfl
@[simp] theorem openSession_flash (s : State) : s.openSession.flash = s.flash := rfl
@[simp] theorem openSession_clk (s : State) : s.openSession.clk = s.clk := rfl
@[simp] theorem openSession_pins (s : State) : s.openSession.pins = s.pins := rfl
@[simp] theorem openSession_res (s : State) : s.openSession.res = s.res := rfl
@[simp] theorem openSession_tmp (s : State) : s.openSession.tmp = s.tmp := rfl
@[simp] theorem openSession_trace (s : State) : s.openSession.trace = s.trace := rfl
@[simp] theorem openSession_port (s : State) : s.openSession.port = s.port := rfl
@[simp] theorem openSession_buf (s : State) : s.openSession.buf = s.buf := rfl
@[simp] theorem openSession_world (s : State) : s.openSession.world = s.world := rfl
@[simp] theorem openSession_cfg (s : State) : s.openSession.cfg = s.cfg := rfl

@[simp] theorem endSession_fpga (s : State) : s.endSession.fpga = s.fpga := rfl
@[simp] theorem endSession_cram (s : State) : s.endSession.cram = ⟨false, s.cram.bytes⟩ := rfl
@[simp] theorem endSession_flash (s : State) : s.endSession.flash = s.flash := rfl
@[simp] theorem endSession_clk (s : State) : s.endSession.clk = s.clk := rfl
@[simp] theorem endSession_pins (s : State) : s.endSession.pins = s.pins := rfl
@[simp] theorem endSession_res (s : State) : s.endSession.res = s.res := rfl
@[simp] theorem endSession_tmp (s : State) : s.endSession.tmp = s.tmp := rfl
@[simp] theorem endSession_trace (s : State) : s.endSession.trace = s.trace := rfl
@[simp] theorem endSession_port (s : State) : s.endSession.port = s.port := rfl
@[simp] theorem endSession_buf (s : State) : s.endSession.buf = s.buf := rfl
@[simp] theorem endSession_world (s : State) : s.endSession.world = s.world := rfl
@[simp] theorem endSession_cfg (s : State) : s.endSession.cfg = s.cfg := rfl

@[simp] theorem openBracket_fpga (f : Word) (s : State) : (s.openBracket f).fpga = s.fpga := rfl
@[simp] theorem openBracket_cram (f : Word) (s : State) : (s.openBracket f).cram = s.cram := rfl
@[simp] theorem openBracket_flash (f : Word) (s : State) : (s.openBracket f).flash = ⟨f, true⟩ := rfl
@[simp] theorem openBracket_clk (f : Word) (s : State) : (s.openBracket f).clk = s.clk := rfl
@[simp] theorem openBracket_pins (f : Word) (s : State) : (s.openBracket f).pins = s.pins := rfl
@[simp] theorem openBracket_res (f : Word) (s : State) : (s.openBracket f).res = s.res := rfl
@[simp] theorem openBracket_tmp (f : Word) (s : State) : (s.openBracket f).tmp = s.tmp := rfl
@[simp] theorem openBracket_trace (f : Word) (s : State) : (s.openBracket f).trace = s.trace := rfl
@[simp] theorem openBracket_port (f : Word) (s : State) : (s.openBracket f).port = s.port := rfl
@[simp] theorem openBracket_buf (f : Word) (s : State) : (s.openBracket f).buf = s.buf := rfl
@[simp] theorem openBracket_world (f : Word) (s : State) : (s.openBracket f).world = s.world := rfl
@[simp] theorem openBracket_cfg (f : Word) (s : State) : (s.openBracket f).cfg = s.cfg := rfl

@[simp] theorem endBracket_fpga (s : State) : s.endBracket.fpga = s.fpga := rfl
@[simp] theorem endBracket_cram (s : State) : s.endBracket.cram = s.cram := rfl
@[simp] theorem endBracket_flash (s : State) : s.endBracket.flash = ⟨s.flash.freqHz, false⟩ := rfl
@[simp] theorem endBracket_clk (s : State) : s.endBracket.clk = s.clk := rfl
@[simp] theorem endBracket_pins (s : State) : s.endBracket.pins = s.pins := rfl
@[simp] theorem endBracket_res (s : State) : s.endBracket.res = s.res := rfl
@[simp] theorem endBracket_tmp (s : State) : s.endBracket.tmp = s.tmp := rfl
@[simp] theorem endBracket_trace (s : State) : s.endBracket.trace = s.trace := rfl
@[simp] theorem endBracket_port (s : State) : s.endBracket.port = s.port := rfl
@[simp] theorem endBracket_buf (s : State) : s.endBracket.buf = s.buf := rfl
@[simp] theorem endBracket_world (s : State) : s.endBracket.world = s.world := rfl
@[simp] theorem endBracket_cfg (s : State) : s.endBracket.cfg = s.cfg := rfl

@[simp] theorem resetLoader_fpga (s : State) : s.resetLoader.fpga = ⟨false, Config.fpgaFreqDefault, .unpowered⟩ := rfl
@[simp] theorem resetLoader_cram (s : State) : s.resetLoader.cram = ⟨false, 0⟩ := rfl
@[simp] theorem resetLoader_flash (s : State) : s.resetLoader.flash = ⟨Config.flashFreqDefault, false⟩ := rfl
@[simp] theorem resetLoader_clk (s : State) : s.resetLoader.clk = ⟨false, none⟩ := rfl
@[simp] theorem resetLoader_pins (s : State) : s.resetLoader.pins = Pins.reset := rfl
@[simp] theorem resetLoader_res (s : State) : s.resetLoader.res = 0 := rfl
@[simp] theorem resetLoader_tmp (s : State) : s.resetLoader.tmp = Transient.unset := rfl
@[simp] theorem resetLoader_trace (s : State) : s.resetLoader.trace = [] := rfl
@[simp] theorem resetLoader_port (s : State) : s.resetLoader.port = s.port := rfl
@[simp] theorem resetLoader_buf (s : State) : s.resetLoader.buf = s.buf := rfl
@[simp] theorem resetLoader_world (s : State) : s.resetLoader.world = s.world.drawDone := rfl
@[simp] theorem resetLoader_cfg (s : State) : s.resetLoader.cfg = s.cfg := rfl

@[simp] theorem resetIn_fpga (c : Config) (w : World) : (State.resetIn c w).fpga = ⟨false, Config.fpgaFreqDefault, .unpowered⟩ := rfl
@[simp] theorem resetIn_cram (c : Config) (w : World) : (State.resetIn c w).cram = ⟨false, 0⟩ := rfl
@[simp] theorem resetIn_flash (c : Config) (w : World) : (State.resetIn c w).flash = ⟨Config.flashFreqDefault, false⟩ := rfl
@[simp] theorem resetIn_clk (c : Config) (w : World) : (State.resetIn c w).clk = ⟨false, none⟩ := rfl
@[simp] theorem resetIn_pins (c : Config) (w : World) : (State.resetIn c w).pins = Pins.reset := rfl
@[simp] theorem resetIn_res (c : Config) (w : World) : (State.resetIn c w).res = 0 := rfl
@[simp] theorem resetIn_tmp (c : Config) (w : World) : (State.resetIn c w).tmp = Transient.unset := rfl
@[simp] theorem resetIn_trace (c : Config) (w : World) : (State.resetIn c w).trace = [] := rfl
@[simp] theorem resetIn_port (c : Config) (w : World) : (State.resetIn c w).port = [] := rfl
@[simp] theorem resetIn_buf (c : Config) (w : World) : (State.resetIn c w).buf = [] := rfl
@[simp] theorem resetIn_world (c : Config) (w : World) : (State.resetIn c w).world = w := rfl
@[simp] theorem resetIn_cfg (c : Config) (w : World) : (State.resetIn c w).cfg = c := rfl

@[simp] theorem consult_fst (site : FaultSite) (s : State) :
    (s.consult site).1 = (s.world.nextFault s.cfg site).1 := rfl

@[simp] theorem succeeded_succeed (s : State) : s.succeed.succeeded = true := rfl

end Sys2Proof.Machine.State
end

