-- ==== Sys2Proof/Laws/Emits.lean ====
section
/-! SUPPORT. What each primitive does, said once: it appends a known list of events, the pins and the clock generator
become what those events make of them, and every other register is as it was. -/

namespace Sys2Proof.Safety

open Sys2Proof.Machine Sys2Proof.Laws

theorem Emits.refl (s : State) : Emits [] s s :=
  ⟨(List.append_nil _).symm, rfl, rfl, rfl, rfl, rfl, rfl, rfl, rfl, rfl⟩

theorem Emits.trans {es fs : List Event} {s t u : State} (h : Emits es s t) (k : Emits fs t u) :
    Emits (es ++ fs) s u where
  trace := by rw [k.trace, h.trace, List.append_assoc]
  pins := by rw [k.pins, h.pins, replayPins_append]
  clk := by rw [k.clk, h.clk, replayClk_append]
  fpga := k.fpga.trans h.fpga
  cram := k.cram.trans h.cram
  flash := k.flash.trans h.flash
  res := k.res.trans h.res
  port := k.port.trans h.port
  buf := k.buf.trans h.buf
  cfg := k.cfg.trans h.cfg

/-- A silent change of the environment and of the transient registers. -/
theorem Emits.of_world_tmp (s : State) (w : World) (x : Transient) : Emits [] s { s with world := w, tmp := x } :=
  ⟨(List.append_nil _).symm, rfl, rfl, rfl, rfl, rfl, rfl, rfl, rfl, rfl⟩

theorem Emits.of_world (s : State) (w : World) : Emits [] s { s with world := w } := .of_world_tmp s w s.tmp

theorem Emits.of_tmp (s : State) (x : Transient) : Emits [] s { s with tmp := x } := .of_world_tmp s s.world x

/-- `res` differs, nothing else of what `Emits` speaks of. -/
theorem Emits.res_congr {es : List Event} {s t : State} (h : Emits es s t) (r : Byte) :
    Emits es { s with res := r } { t with res := r } where
  trace := h.trace
  pins := h.pins
  clk := h.clk
  fpga := h.fpga
  cram := h.cram
  flash := h.flash
  res := rfl
  port := h.port
  buf := h.buf
  cfg := h.cfg

end Sys2Proof.Safety

namespace Sys2Proof.Laws

open Sys2Proof.Machine Sys2Proof.Safety

theorem drive_emits (p : Pin) (v : Bool) (s : State) : Emits [.drv p v] s (s.drive p v) :=
  ⟨rfl, rfl, rfl, rfl, rfl, rfl, rfl, rfl, rfl, rfl⟩

theorem setDir_emits (p : Pin) (d : Dir) (s : State) : Emits [.dir p d] s (s.setDir p d) :=
  ⟨rfl, rfl, rfl, rfl, rfl, rfl, rfl, rfl, rfl, rfl⟩

theorem clockRun_emits (f : Word) (s : State) : Emits [.clkOn f] s (s.clockRun f) :=
  ⟨rfl, rfl, rfl, rfl, rfl, rfl, rfl, rfl, rfl, rfl⟩

theorem clockHalt_emits (s : State) : Emits [.clkOff] s s.clockHalt :=
  ⟨rfl, rfl, rfl, rfl, rfl, rfl, rfl, rfl, rfl, rfl⟩

theorem sampleCdone_emits (s : State) : Emits [.smp .cdone s.sampleCdone.1] s s.sampleCdone.2 :=
  ⟨rfl, rfl, rfl, rfl, rfl, rfl, rfl, rfl, rfl, rfl⟩

theorem sampleMiso_emits (l : Option Bool) (s : State) : Emits [.smp .fMiso (s.sampleMiso l).1] s (s.sampleMiso l).2 :=
  ⟨rfl, rfl, rfl, rfl, rfl, rfl, rfl, rfl, rfl, rfl⟩

theorem consult_emits (site : FaultSite) (s : State) : Emits [] s (s.consult site).2 :=
  ⟨(List.append_nil _).symm, rfl, rfl, rfl, rfl, rfl, rfl, rfl, rfl, rfl⟩

theorem settle_emits (s : State) : Emits [] s s.settle :=
  ⟨(List.append_nil _).symm, rfl, rfl, rfl, rfl, rfl, rfl, rfl, rfl, rfl⟩

theorem setUnit_emits (k : Nat) (s : State) : Emits [] s (s.setUnit k) := .of_tmp s _

theorem setPoll_emits (k : Nat) (s : State) : Emits [] s (s.setPoll k) := .of_tmp s _

theorem setIdx_emits (i : Nat) (s : State) : Emits [] s (s.setIdx i) := .of_tmp s _

theorem setAddr_emits (a : Addr) (s : State) : Emits [] s (s.setAddr a) := .of_tmp s _

theorem setShift_emits (b : Byte) (i : Nat) (s : State) : Emits [] s (s.setShift b i) := .of_tmp s _

theorem pulse_emits (p : Pin) (s : State) : Emits [.drv p true, .drv p false] s (s.pulse p) :=
  (drive_emits p true s).trans (drive_emits p false _)

theorem pulses_emits (p : Pin) (n : Nat) (s : State) : Emits (pulseEvents p n) s (s.pulses p n) := by
  induction n generalizing s with
  | zero => exact .refl s
  | succ n ih => exact (pulse_emits p s).trans (ih _)

/-- The events of the bits `n-1` down to 0 of a byte out. -/
def bitsOutEvents (d c : Pin) (b : Byte) : Nat → List Event
  | 0 => []
  | n + 1 => [.drv d (b.getLsbD n), .drv c true, .drv c false] ++ bitsOutEvents d c b n

/-- The events of the bits `n-1` down to 0 of a byte in. -/
def bitsInEvents (v : Byte) : Nat → List Event
  | 0 => []
  | n + 1 => [.drv .fSck true, .smp .fMiso (v.getLsbD n), .drv .fSck false] ++ bitsInEvents v n

theorem bitsOutEvents_eight (d c : Pin) (b : Byte) : bitsOutEvents d c b 8 = byteOutEvents d c b := rfl

theorem bitsInEvents_eight (v : Byte) : bitsInEvents v 8 = byteInEvents v := rfl

theorem shiftOutBits_emits (d c : Pin) (b : Byte) (n : Nat) (s : State) :
    Emits (bitsOutEvents d c b n) s (State.shiftOutBits d c b n s) := by
  induction n generalizing s with
  | zero => exact .refl s
  | succ n ih =>
    exact (((setShift_emits b n s).trans (drive_emits d _ _)).trans (pulse_emits c _)).trans (ih _)

theorem shiftOutCram_emits (b : Byte) (s : State) : Emits (cramByteEvents b) s (s.shiftOutCram b) := by
  have h := (shiftOutBits_emits .cDo .cSck b 8 s).trans
    (.of_world _ (World.onCramByte (State.shiftOutBits .cDo .cSck b 8 s).cramSelected b
      (State.shiftOutBits .cDo .cSck b 8 s).world))
  rwa [List.append_nil] at h

theorem shiftOutFlash_emits (b : Byte) (s : State) : Emits (flashByteEvents b) s (s.shiftOutFlash b) := by
  have h := (shiftOutBits_emits .fMosi .fSck b 8 s).trans
    (.of_world _ (World.onFlashByte (State.shiftOutBits .fMosi .fSck b 8 s).flashSelected b
      (State.shiftOutBits .fMosi .fSck b 8 s).world))
  rwa [List.append_nil] at h

theorem shiftOutAll_emits (bs : List Byte) (s : State) : Emits (bs.flatMap flashByteEvents) s (s.shiftOutAll bs) := by
  induction bs generalizing s with
  | nil => exact .refl s
  | cons b bs ih => exact (shiftOutFlash_emits b s).trans (ih _)

theorem shiftOutData_emits (bs : List Byte) (i : Nat) (s : State) :
    Emits (bs.flatMap flashByteEvents) s (s.shiftOutData bs i) := by
  induction bs generalizing i s with
  | nil => exact .refl s
  | cons b bs ih => exact ((setIdx_emits i s).trans (shiftOutFlash_emits b _)).trans (ih _ _)

theorem frameBegin_emits (s : State) : Emits [.drv .fCs s.cfg.flashCsActive] s s.frameBegin := drive_emits ..

theorem frameEnd_emits (s : State) : Emits [.drv .fCs (!s.cfg.flashCsActive)] s s.frameEnd := drive_emits ..

/-- `ShiftIn` sets bit `n` of what it returns to the level sampled, and keeps the bits above. -/
theorem shiftInBits_emits (line : Option Byte) (n : Nat) (hn : n ≤ 8) (v : Byte) (hv : ∀ i < n, v.getLsbD i = false)
    (s : State) :
    let r := State.shiftInBits line n v s
    Emits (bitsInEvents r.1 n) s r.2 ∧ ∀ i, n ≤ i → r.1.getLsbD i = v.getLsbD i := by
  induction n generalizing v s with
  | zero => exact ⟨.refl s, fun _ _ => rfl⟩
  | succ n ih =>
    simp only [State.shiftInBits]
    set q := (s.drive .fSck true).sampleMiso (line.map (·.getLsbD n)) with hq
    set v1 : Byte := if q.1 = true then v ||| 1#8 <<< n else v with hv1
    have hbit : ∀ i, v1.getLsbD i = if i = n then q.1 else v.getLsbD i := by
      intro i
      by_cases hi : i = n
      · subst hi
        rw [if_pos rfl, hv1]
        cases hb : q.1
        · simpa using hv i (by omega)
        · have : i < 8 := by omega
          simp [this]
      · rw [if_neg hi, hv1]
        split
        · by_cases h8 : i < 8
          · have : ¬ (n ≤ i ∧ i - n = 0) := by omega
            simp only [BitVec.getLsbD_or, BitVec.getLsbD_shiftLeft, BitVec.getLsbD_one, h8]
            by_cases h : i < n
            · simp [h]
            · have : i - n ≠ 0 := by omega
              simp [this]
          · rw [BitVec.getLsbD_of_ge _ i (by omega), BitVec.getLsbD_of_ge _ i (by omega)]
        · rfl
    have hlow : ∀ i < n, v1.getLsbD i = false := by
      intro i hi
      rw [hbit, if_neg (by omega)]
      exact hv i (by omega)
    obtain ⟨he, hk⟩ := ih (by omega) v1 hlow
      ((q.2.setShift v1 n).drive .fSck false)
    refine ⟨?_, ?_⟩
    · have hn' : (State.shiftInBits line n v1
          ((q.2.setShift v1 n).drive .fSck false)).1.getLsbD n = q.1 := by
        rw [hk n (le_refl n), hbit, if_pos rfl]
      simp only [bitsInEvents, hn']
      exact (((drive_emits .fSck true s).trans (sampleMiso_emits _ _)).trans
        ((setShift_emits v1 n q.2).trans (drive_emits .fSck false _))).trans he
    · intro i hi
      rw [hk i (by omega), hbit, if_neg (by omega)]

theorem shiftIn_emits (s : State) : Emits (byteInEvents s.shiftIn.1) s s.shiftIn.2 := by
  have h := (shiftInBits_emits (s.world.statusReply s.cfg s.flashSelected).1 8 (le_refl 8) 0 (by simp)
    { s with world := (s.world.statusReply s.cfg s.flashSelected).2 }).1
  exact (Emits.of_world s _).trans h

theorem frameWren_emits (s : State) : Emits (frameEvents s.cfg [s.cfg.opWren]) s (frameWren s) := by
  have h := ((frameBegin_emits s).trans (shiftOutFlash_emits s.cfg.opWren _)).trans (frameEnd_emits _)
  have hc : ((s.frameBegin).shiftOutFlash s.cfg.opWren).cfg = s.cfg := ((frameBegin_emits s).trans (shiftOutFlash_emits s.cfg.opWren _)).cfg
  rw [hc] at h
  simpa [frameEvents, frameWren] using h

theorem frameSe_emits (a : Addr) (s : State) :
    Emits (frameEvents s.cfg (s.cfg.opSe :: addrBytes a)) s (frameSe a s) := by
  have h1 := ((setAddr_emits a s).trans (frameBegin_emits _)).trans
    (shiftOutAll_emits (s.cfg.opSe :: addrBytes a) _)
  have h := h1.trans (frameEnd_emits _)
  rw [h1.cfg] at h
  simpa [frameEvents, frameSe] using h

theorem framePp_emits (a : Addr) (data : List Byte) (s : State) :
    Emits (frameEvents s.cfg (s.cfg.opPp :: (addrBytes a ++ data))) s (framePp a data s) := by
  have h1 := (((setAddr_emits a s).trans (frameBegin_emits _)).trans
    (shiftOutAll_emits (s.cfg.opPp :: addrBytes a) _)).trans (shiftOutData_emits data 0 _)
  have h := h1.trans (frameEnd_emits _)
  rw [h1.cfg] at h
  simpa [frameEvents, framePp] using h

theorem readStatus_emits (s : State) : Emits (statusEvents s.cfg (readStatus s).1) s (readStatus s).2 := by
  have h1 := ((frameBegin_emits s).trans (shiftOutFlash_emits s.cfg.opRdsr _)).trans (shiftIn_emits _)
  have h := h1.trans (frameEnd_emits _)
  rw [h1.cfg] at h
  simpa [statusEvents, readStatus] using h

/-- The write-in-progress wait: it reads status bytes, one frame each, and says whether it saw the chip idle. -/
theorem waitIdle_emits (n k : Nat) (s : State) :
    ∃ vs, Emits (waitEvents s.cfg vs) s (waitIdle n k s).2 ∧
      (((waitIdle n k s).1 = true ∧
          ∃ busy v, vs = busy ++ [v] ∧ (∀ b ∈ busy, wipSet s.cfg b = true) ∧ wipSet s.cfg v = false ∧ vs.length ≤ n) ∨
        ((waitIdle n k s).1 = false ∧ vs.length = n ∧ ∀ b ∈ vs, wipSet s.cfg b = true)) := by
  induction n generalizing k s with
  | zero => exact ⟨[], .refl s, .inr ⟨rfl, rfl, by simp⟩⟩
  | succ n ih =>
    simp only [waitIdle]
    set s0 : State := s.setPoll (k + 1) with hs0
    have h0 : Emits (statusEvents s.cfg (readStatus s0).1) s (readStatus s0).2 := by
      simpa [hs0] using (setPoll_emits (k + 1) s).trans (readStatus_emits s0)
    by_cases hw : wipSet s.cfg (readStatus s0).1 = true
    · rw [if_pos hw]
      obtain ⟨vs, he, hd⟩ := ih (k + 1) (readStatus s0).2
      have hc : (readStatus s0).2.cfg = s.cfg := h0.cfg
      rw [hc] at he hd
      refine ⟨(readStatus s0).1 :: vs, ?_, ?_⟩
      · simpa [waitEvents] using h0.trans he
      · rcases hd with ⟨h1, busy, v, rfl, hb, hv, hl⟩ | ⟨h1, hl, hb⟩
        · exact .inl ⟨h1, (readStatus s0).1 :: busy, v, rfl, by simpa [hw] using hb, hv, by simpa using hl⟩
        · exact .inr ⟨h1, by simp [hl], by simpa [hw] using hb⟩
    · rw [if_neg hw]
      exact ⟨[(readStatus s0).1], by simpa [waitEvents] using h0,
        .inl ⟨rfl, [], _, rfl, by simp, by simpa using hw, by simp⟩⟩

/-- The CDONE wait: it samples until a 1 or to the timeout. -/
theorem pollCdone_emits (n k : Nat) (s : State) :
    ∃ vs, Emits (vs.map (.smp .cdone)) s (pollCdone n k s).2 ∧
      (((pollCdone n k s).1 = true ∧ ∃ j, j < n ∧ vs = List.replicate j false ++ [true]) ∨
        ((pollCdone n k s).1 = false ∧ vs = List.replicate n false)) := by
  induction n generalizing k s with
  | zero => exact ⟨[], .refl s, .inr ⟨rfl, rfl⟩⟩
  | succ n ih =>
    simp only [pollCdone]
    set s0 : State := s.setPoll (k + 1) with hs0
    have h0 : Emits [.smp .cdone s0.sampleCdone.1] s s0.sampleCdone.2 :=
      (setPoll_emits (k + 1) s).trans (sampleCdone_emits s0)
    by_cases hw : s0.sampleCdone.1 = true
    · rw [if_pos hw]
      exact ⟨[true], by simpa [hw] using h0, .inl ⟨rfl, 0, by omega, rfl⟩⟩
    · rw [if_neg hw]
      have hf : s0.sampleCdone.1 = false := by simpa using hw
      rw [hf] at h0
      obtain ⟨vs, he, hd⟩ := ih (k + 1) s0.sampleCdone.2
      refine ⟨false :: vs, h0.trans he, ?_⟩
      rcases hd with ⟨h1, j, hj, rfl⟩ | ⟨h1, rfl⟩
      · exact .inl ⟨h1, j + 1, by omega, rfl⟩
      · exact .inr ⟨h1, rfl⟩

theorem leadIn_cramPinsOut_emits (s : State) : Emits (openEvents s.cfg) s (leadIn (cramPinsOut s)) := by
  have h1 : Emits [.drv .cSck false, .dir .cSck .output, .drv .cDo false, .dir .cDo .output,
      .drv .cCs s.cfg.cramCsActive, .dir .cCs .output] s (cramPinsOut s) :=
    (((((drive_emits _ _ s).trans (setDir_emits _ _ _)).trans (drive_emits _ _ _)).trans (setDir_emits _ _ _)).trans
      (drive_emits _ _ _)).trans (setDir_emits _ _ _)
  unfold leadIn openEvents
  rw [h1.cfg]
  split
  · simpa using h1
  · refine h1.trans ?_
    exact ((drive_emits _ _ _).trans (pulses_emits _ _ _)).trans (drive_emits _ _ _)

theorem trailSeen_emits (s : State) : Emits [] s (trailSeen s) := by
  unfold trailSeen
  split
  · exact .refl s
  · exact .of_world s _

/-- The bus part of CRAM_CLOSE. -/
theorem closePins_emits (s : State) :
    Emits (closeEvents s.cfg) s
      ((((trailSeen (((s.drive .cCs (!s.cfg.cramCsActive)).drive .cDo false).pulses .cSck s.cfg.trailClocks)).setDir .cCs
        .input).setDir .cDo .input).setDir .cSck .input) := by
  have h := ((((((drive_emits .cCs (!s.cfg.cramCsActive) s).trans (drive_emits .cDo false _)).trans
    (pulses_emits .cSck s.cfg.trailClocks _)).trans (trailSeen_emits _)).trans (setDir_emits .cCs .input _)).trans
    (setDir_emits .cDo .input _)).trans (setDir_emits .cSck .input _)
  simpa [closeEvents] using h

theorem flashPinsOut_emits (s : State) : Emits (initEvents s.cfg) s (flashPinsOut s) :=
  ((((((drive_emits .fCs (!s.cfg.flashCsActive) s).trans (setDir_emits .fCs .output _)).trans
    (drive_emits .fSck false _)).trans (setDir_emits .fSck .output _)).trans (drive_emits .fMosi false _)).trans
    (setDir_emits .fMosi .output _)).trans (setDir_emits .fMiso .input _)

/-- The bus part of FLASH_DEINIT. -/
theorem deinitPins_emits (s : State) :
    Emits deinitEvents s ((((s.setDir .fSck .input).setDir .fMosi .input).setDir .fMiso .input).setDir .fCs .input) :=
  (((setDir_emits .fSck .input s).trans (setDir_emits .fMosi .input _)).trans (setDir_emits .fMiso .input _)).trans
    (setDir_emits .fCs .input _)

end Sys2Proof.Laws
end

