-- ==== Sys2Proof/Laws/World.lean ====
section
/-! SUPPORT. What the operations do to the environment: who draws, what the reference flash hears of a frame, and which
bytes of its array a frame can change. -/

namespace Sys2Proof.Laws

open Sys2Proof.Machine Sys2Proof.Safety

/-! ### Pins the chips do not hear -/

/-- Pins whose level no chip reacts to (R55, R60). -/
theorem onDrive_other {p : Pin} (h1 : p ≠ .creset) (h2 : p ≠ .cCs) (h3 : p ≠ .fCs) (c : Config) (d : Dir) (v : Bool)
    (w : World) : w.onDrive c p d v = w := by
  cases p <;> first | rfl | contradiction

theorem drive_world_other {p : Pin} (h1 : p ≠ .creset) (h2 : p ≠ .cCs) (h3 : p ≠ .fCs) (v : Bool) (s : State) :
    (s.drive p v).world = s.world := by rw [State.drive_world, onDrive_other h1 h2 h3]

theorem pulses_world_other {p : Pin} (h1 : p ≠ .creset) (h2 : p ≠ .cCs) (h3 : p ≠ .fCs) (n : Nat) (s : State) :
    (s.pulses p n).world = s.world := by
  induction n generalizing s with
  | zero => rfl
  | succ n ih =>
    rw [State.pulses, ih, State.pulse, drive_world_other h1 h2 h3, drive_world_other h1 h2 h3]

theorem shiftOutBits_world {d c : Pin} (hd : d ≠ .creset ∧ d ≠ .cCs ∧ d ≠ .fCs)
    (hc : c ≠ .creset ∧ c ≠ .cCs ∧ c ≠ .fCs) (b : Byte) (n : Nat) (s : State) :
    (State.shiftOutBits d c b n s).world = s.world := by
  induction n generalizing s with
  | zero => rfl
  | succ n ih =>
    simp only [State.shiftOutBits]
    rw [ih, State.pulse, drive_world_other hc.1 hc.2.1 hc.2.2, drive_world_other hc.1 hc.2.1 hc.2.2,
      drive_world_other hd.1 hd.2.1 hd.2.2]
    rfl

/-! ### What the flash hears -/

/-- The frame's bytes so far, as the reference flash notes them. -/
def heard (sel : Bool) (g : RefFlash → RefFlash) (w : World) : World :=
  if sel then { w with flash := w.flash.map g } else w

@[simp] theorem heard_heard (sel : Bool) (g h : RefFlash → RefFlash) (w : World) :
    heard sel h (heard sel g w) = heard sel (fun f => h (g f)) w := by
  cases sel <;> simp [heard, Function.comp_def]

theorem onFlashByte_eq (sel : Bool) (b : Byte) (w : World) :
    w.onFlashByte sel b = heard sel (fun f => { f with out := f.out ++ [b] }) w := rfl

theorem onDrive_fCs (c : Config) (d : Dir) (v : Bool) (w : World) :
    w.onDrive c .fCs d v =
      heard (d == .output) (fun f => if v = c.flashCsActive then { f with out := [] } else f.act c) w := by
  cases d <;> rfl

theorem not_ne_self (b : Bool) : ¬((!b) = b) := by cases b <;> simp

theorem frameBegin_world (s : State) :
    s.frameBegin.world = heard s.flashSelected (fun f => { f with out := [] }) s.world := by
  rw [State.frameBegin, State.drive_world, onDrive_fCs]
  simp [State.flashSelected]

theorem frameEnd_world (s : State) :
    s.frameEnd.world = heard s.flashSelected (fun f => f.act s.cfg) s.world := by
  rw [State.frameEnd, State.drive_world, onDrive_fCs]
  simp [State.flashSelected]

end Sys2Proof.Laws

namespace Sys2Proof.Safety

open Sys2Proof.Machine Sys2Proof.Laws

/-- Events without a direction keep the flash selected or not. -/
theorem Emits.flashSelected {es : List Event} {s t : State} (h : Emits es s t) (hd : ∀ p d, Event.dir p d ∉ es) :
    t.flashSelected = s.flashSelected := by
  unfold State.flashSelected
  rw [h.pins, replayPins_dir hd]

end Sys2Proof.Safety

namespace Sys2Proof.Laws

open Sys2Proof.Machine Sys2Proof.Safety

theorem no_dir_byteOut (d c : Pin) (b : Byte) (p : Pin) (x : Dir) : Event.dir p x ∉ byteOutEvents d c b := by
  simp [byteOutEvents]

theorem no_dir_byteIn (v : Byte) (p : Pin) (x : Dir) : Event.dir p x ∉ byteInEvents v := by
  simp [byteInEvents]

theorem no_dir_flashBytes (bs : List Byte) (p : Pin) (x : Dir) : Event.dir p x ∉ bs.flatMap flashByteEvents := by
  simp only [List.mem_flatMap, not_exists, not_and]
  exact fun b _ => no_dir_byteOut _ _ b p x

theorem shiftOutFlash_world (b : Byte) (s : State) :
    (s.shiftOutFlash b).world = heard s.flashSelected (fun f => { f with out := f.out ++ [b] }) s.world := by
  have h := shiftOutBits_emits .fMosi .fSck b 8 s
  have hw := shiftOutBits_world (d := .fMosi) (c := .fSck) (by decide) (by decide) b 8 s
  have hs := h.flashSelected (by rw [bitsOutEvents_eight]; exact no_dir_byteOut _ _ b)
  show (State.shiftOutBits .fMosi .fSck b 8 s).world.onFlashByte (State.shiftOutBits .fMosi .fSck b 8 s).flashSelected b = _
  rw [hw, hs, onFlashByte_eq]

theorem shiftOutFlash_selected (b : Byte) (s : State) : (s.shiftOutFlash b).flashSelected = s.flashSelected :=
  (shiftOutFlash_emits b s).flashSelected (no_dir_byteOut _ _ b)

theorem frameBegin_selected (s : State) : s.frameBegin.flashSelected = s.flashSelected :=
  (frameBegin_emits s).flashSelected (by simp)

theorem shiftOutAll_world (bs : List Byte) (s : State) :
    (s.shiftOutAll bs).world = heard s.flashSelected (fun f => { f with out := f.out ++ bs }) s.world := by
  induction bs generalizing s with
  | nil => cases h : s.flashSelected <;> simp [State.shiftOutAll, heard]
  | cons b bs ih =>
    rw [State.shiftOutAll, ih, shiftOutFlash_world, shiftOutFlash_selected, heard_heard]
    simp

theorem shiftOutData_world (bs : List Byte) (i : Nat) (s : State) :
    (s.shiftOutData bs i).world = heard s.flashSelected (fun f => { f with out := f.out ++ bs }) s.world := by
  induction bs generalizing i s with
  | nil => cases h : s.flashSelected <;> simp [State.shiftOutData, heard]
  | cons b bs ih =>
    rw [State.shiftOutData, ih, shiftOutFlash_world, shiftOutFlash_selected, heard_heard]
    simp [State.flashSelected]

/-- What the reference flash makes of a whole frame of bytes out: it acts on them (R55). -/
theorem frameWren_world (s : State) :
    (frameWren s).world =
      heard s.flashSelected (fun f => RefFlash.act s.cfg { f with out := [s.cfg.opWren] }) s.world := by
  have h1 := (frameBegin_emits s).trans (shiftOutFlash_emits s.cfg.opWren _)
  rw [frameWren, frameEnd_world, shiftOutFlash_world, frameBegin_world, shiftOutFlash_selected, frameBegin_selected,
    heard_heard, heard_heard, h1.cfg]
  rfl

theorem frameSe_world (a : Addr) (s : State) :
    (frameSe a s).world =
      heard s.flashSelected (fun f => RefFlash.act s.cfg { f with out := s.cfg.opSe :: addrBytes a }) s.world := by
  have h0 := setAddr_emits a s
  have h1 := (h0.trans (frameBegin_emits _)).trans (shiftOutAll_emits (s.cfg.opSe :: addrBytes a) _)
  have hsel := h1.flashSelected (by
    intro p d
    simpa using no_dir_flashBytes (s.cfg.opSe :: addrBytes a) p d)
  simp only [frameSe]
  rw [frameEnd_world, hsel, h1.cfg, shiftOutAll_world, frameBegin_world, frameBegin_selected]
  simp [State.flashSelected]

theorem framePp_world (a : Addr) (data : List Byte) (s : State) :
    (framePp a data s).world =
      heard s.flashSelected
        (fun f => RefFlash.act s.cfg { f with out := s.cfg.opPp :: (addrBytes a ++ data) }) s.world := by
  have h0 := setAddr_emits a s
  have h1 := (h0.trans (frameBegin_emits _)).trans (shiftOutAll_emits (s.cfg.opPp :: addrBytes a) _)
  have hsel1 := h1.flashSelected (by
    intro p d
    simpa using no_dir_flashBytes (s.cfg.opPp :: addrBytes a) p d)
  have h2 := h1.trans (shiftOutData_emits data 0 _)
  have hsel2 := h2.flashSelected (by
    intro p d
    have h3 := no_dir_flashBytes (s.cfg.opPp :: addrBytes a) p d
    have h4 := no_dir_flashBytes data p d
    simp only [List.mem_append, List.mem_singleton, not_or]
    exact ⟨⟨⟨by simp, by simp⟩, h3⟩, h4⟩)
  simp only [framePp]
  rw [frameEnd_world, hsel2, h2.cfg, shiftOutData_world, hsel1, shiftOutAll_world, frameBegin_world,
    frameBegin_selected]
  simp [State.flashSelected]

/-! ### Draws -/

/-- The queued answers and their counters are as they were, and an absent chip stays absent. -/
structure SameDraws (w v : World) : Prop where
  cdone : v.cdone = w.cdone
  miso : v.miso = w.miso
  faults : v.faults = w.faults
  nCdone : v.nCdone = w.nCdone
  nMiso : v.nMiso = w.nMiso
  nFault : v.nFault = w.nFault
  noFpga : w.fpga = none → v.fpga = none
  noFlash : w.flash = none → v.flash = none

theorem SameDraws.refl (w : World) : SameDraws w w := ⟨rfl, rfl, rfl, rfl, rfl, rfl, id, id⟩

theorem SameDraws.trans {u v w : World} (h : SameDraws u v) (k : SameDraws v w) : SameDraws u w :=
  ⟨k.cdone.trans h.cdone, k.miso.trans h.miso, k.faults.trans h.faults, k.nCdone.trans h.nCdone,
    k.nMiso.trans h.nMiso, k.nFault.trans h.nFault, fun x => k.noFpga (h.noFpga x), fun x => k.noFlash (h.noFlash x)⟩

theorem heard_sameDraws (sel : Bool) (g : RefFlash → RefFlash) (w : World) : SameDraws w (heard sel g w) := by
  cases sel
  · exact .refl w
  · exact ⟨rfl, rfl, rfl, rfl, rfl, rfl, id, fun h => by simp [heard, h]⟩

theorem onDrive_sameDraws (c : Config) (p : Pin) (d : Dir) (v : Bool) (w : World) : SameDraws w (w.onDrive c p d v) := by
  cases p
  case creset =>
    cases v
    · exact ⟨rfl, rfl, rfl, rfl, rfl, rfl, fun h => by simp [World.onDrive, h], id⟩
    · exact .refl w
  case cCs =>
    by_cases hv : v = c.cramCsActive
    · exact ⟨by simp [World.onDrive, hv], by simp [World.onDrive, hv], by simp [World.onDrive, hv],
        by simp [World.onDrive, hv], by simp [World.onDrive, hv], by simp [World.onDrive, hv],
        fun h => by simp [World.onDrive, hv, h], fun h => by simp [World.onDrive, hv, h]⟩
    · simpa [World.onDrive, hv] using SameDraws.refl w
  case fCs =>
    rw [onDrive_fCs]
    exact heard_sameDraws _ _ w
  all_goals exact .refl w

theorem drive_sameDraws (p : Pin) (v : Bool) (s : State) : SameDraws s.world (s.drive p v).world := by
  rw [State.drive_world]
  exact onDrive_sameDraws ..

theorem onCramByte_sameDraws (sel : Bool) (b : Byte) (w : World) : SameDraws w (w.onCramByte sel b) := by
  cases sel
  · exact .refl w
  · exact ⟨rfl, rfl, rfl, rfl, rfl, rfl, fun h => by simp [World.onCramByte, h], id⟩

theorem shiftOutCram_sameDraws (b : Byte) (s : State) : SameDraws s.world (s.shiftOutCram b).world := by
  have hw := shiftOutBits_world (d := .cDo) (c := .cSck) (by decide) (by decide) b 8 s
  show SameDraws s.world ((State.shiftOutBits .cDo .cSck b 8 s).world.onCramByte _ b)
  rw [hw]
  exact onCramByte_sameDraws ..

theorem trailSeen_sameDraws (s : State) : SameDraws s.world (trailSeen s).world := by
  unfold trailSeen
  split
  · exact .refl _
  · exact ⟨rfl, rfl, rfl, rfl, rfl, rfl, fun h => by simp [World.onLastTrailingClock, h], id⟩

/-- The oracle's answers touch its own queue and counter only, and in a block of plain wires nothing. -/
theorem nextFault_world (c : Config) (site : FaultSite) (w : World) :
    ∃ q n, (w.nextFault c site).2 = { w with faults := q, nFault := n } := by
  unfold World.nextFault
  split
  · exact ⟨w.faults, w.nFault, rfl⟩
  · split
    · exact ⟨_, w.nFault, rfl⟩
    · exact ⟨w.faults, _, rfl⟩

theorem nextFault_plain {c : Config} (h : c.plainWires = true) (site : FaultSite) (w : World) :
    w.nextFault c site = (false, w) := by simp [World.nextFault, h]

theorem nextFault_queued {c : Config} {w : World} {v : Bool} {rest : List Bool} (hc : c.plainWires = false)
    (h : w.faults = v :: rest) (site : FaultSite) : w.nextFault c site = (v, { w with faults := rest }) := by
  simp [World.nextFault, hc, h]

/-! ### Which bytes of the array a frame can change -/

@[simp] theorem drawBusy_mem (f : RefFlash) : f.drawBusy.mem = f.mem := by
  unfold RefFlash.drawBusy
  split <;> rfl

@[simp] theorem drawBusy_out (f : RefFlash) : f.drawBusy.out = f.out := by
  unfold RefFlash.drawBusy
  split <;> rfl

@[simp] theorem drawBusy_beyond (f : RefFlash) : f.drawBusy.beyond = f.beyond := by
  unfold RefFlash.drawBusy
  split <;> rfl

@[simp] theorem drawBusy_size (f : RefFlash) : f.drawBusy.size = f.size := by
  unfold RefFlash.drawBusy
  split <;> rfl

/-- Programming keeps the canonical form and changes only the targets of its data bytes. -/
theorem programBytes_spec (c : Config) (a : Addr) (data : List Byte) (i : Nat) {m : Memory} (h : m.wf) :
    (programBytes c a data i m).wf ∧
      ∀ x, (∀ j, i ≤ j → j < i + data.length → x ≠ programTarget c a j) →
        (programBytes c a data i m).read x = m.read x := by
  induction data generalizing i m with
  | nil => exact ⟨h, fun _ _ => rfl⟩
  | cons d data ih =>
    have hw := Memory.write_wf h (programTarget c a i) (m.read (programTarget c a i) &&& d)
    obtain ⟨h1, h2⟩ := ih (i + 1) hw
    refine ⟨h1, fun x hx => ?_⟩
    rw [programBytes, h2 x (fun j hj hj' => hx j (by omega) (by simp; omega)), Memory.read_write h.1,
      if_neg (hx i (le_refl i) (by simp))]

/-- R57 on the array: nothing outside the sector changes. -/
theorem erase_spec (c : Config) (f : RefFlash) (a : Addr) :
    (f.erase c a).out = f.out ∧
      (f.mem.wf → (f.erase c a).mem.wf ∧ ∀ x, ¬inSector c a x → (f.erase c a).mem.read x = f.mem.read x) := by
  unfold RefFlash.erase
  split
  · exact ⟨rfl, fun h => ⟨h, fun _ _ => rfl⟩⟩
  · split
    · refine ⟨by simp, fun h => ⟨?_, fun x hx => ?_⟩⟩
      · rw [drawBusy_mem]
        exact Memory.eraseRange_wf h _ _
      · rw [drawBusy_mem]
        simp only [Memory.read_eraseRange]
        exact if_neg hx
    · exact ⟨rfl, fun h => ⟨h, fun _ _ => rfl⟩⟩

/-- R58 on the array: nothing but the targets changes. -/
theorem program_spec (c : Config) (f : RefFlash) (a : Addr) (data : List Byte) :
    (f.program c a data).out = f.out ∧
      (f.mem.wf → (f.program c a data).mem.wf ∧
        ∀ x, ¬inProgram c a data.length x → (f.program c a data).mem.read x = f.mem.read x) := by
  unfold RefFlash.program
  split
  · exact ⟨rfl, fun h => ⟨h, fun _ _ => rfl⟩⟩
  · split
    · refine ⟨by simp, fun h => ?_⟩
      obtain ⟨h1, h2⟩ := programBytes_spec c a data 0 h
      rw [drawBusy_mem]
      exact ⟨h1, fun x hx => h2 x (fun j _ hj hxj => hx ⟨j, by simpa using hj, hxj⟩)⟩
    · exact ⟨rfl, fun h => ⟨h, fun _ _ => rfl⟩⟩

/-- What the reference flash does at the end of a frame, said once: the frame is over; the array is canonical if it was;
and outside the sector of an SE frame, or the targets of a PP frame, it reads as before. -/
theorem act_spec (c : Config) (f : RefFlash) {S : Nat → Prop}
    (hse : ∀ a, decodeFrame c f.out = .ok (.se a) → ∀ x, inSector c a x → S x)
    (hpp : ∀ a data, decodeFrame c f.out = .ok (.pp a data) → ∀ x, inProgram c a data.length x → S x) :
    (f.act c).out = [] ∧
      (f.mem.wf → (f.act c).mem.wf ∧ ∀ x, ¬S x → (f.act c).mem.read x = f.mem.read x) := by
  unfold RefFlash.act
  split
  · split
    · exact ⟨rfl, fun h => ⟨h, fun _ _ => rfl⟩⟩
    · rename_i a hd
      obtain ⟨h1, h2⟩ := erase_spec c { f with out := [] } a
      exact ⟨h1, fun h => ⟨(h2 h).1, fun x hx => (h2 h).2 x (fun hin => hx (hse a hd x hin))⟩⟩
    · rename_i a data hd
      obtain ⟨h1, h2⟩ := program_spec c { f with out := [] } a data
      exact ⟨h1, fun h => ⟨(h2 h).1, fun x hx => (h2 h).2 x (fun hin => hx (hpp a data hd x hin))⟩⟩
    · exact ⟨rfl, fun h => ⟨h, fun _ _ => rfl⟩⟩
  · exact ⟨rfl, fun h => ⟨h, fun _ _ => rfl⟩⟩

theorem erase_size (c : Config) (f : RefFlash) (a : Addr) : (f.erase c a).size = f.size := by
  unfold RefFlash.erase
  split
  · rfl
  · split <;> simp

theorem program_size (c : Config) (f : RefFlash) (a : Addr) (data : List Byte) : (f.program c a data).size = f.size := by
  unfold RefFlash.program
  split
  · rfl
  · split <;> simp

theorem act_size (c : Config) (f : RefFlash) : (f.act c).size = f.size := by
  unfold RefFlash.act
  split
  · split
    · rfl
    · exact erase_size ..
    · exact program_size ..
    · rfl
  · rfl

theorem erase_inside {c : Config} {f : RefFlash} {a : Addr} (h : a.toNat < f.size.val) : (f.erase c a).beyond = f.beyond := by
  unfold RefFlash.erase
  rw [if_neg (by omega)]
  split <;> simp

theorem program_inside {c : Config} {f : RefFlash} {a : Addr} {data : List Byte} (h : a.toNat < f.size.val) :
    (f.program c a data).beyond = f.beyond := by
  unfold RefFlash.program
  rw [if_neg (by omega)]
  split <;> simp

/-- A frame at an address the chip has never sends it beyond its size. -/
theorem act_inside (c : Config) (f : RefFlash) (hse : ∀ a, decodeFrame c f.out = .ok (.se a) → a.toNat < f.size.val)
    (hpp : ∀ a data, decodeFrame c f.out = .ok (.pp a data) → a.toNat < f.size.val) : (f.act c).beyond = f.beyond := by
  unfold RefFlash.act
  split
  · split
    · rfl
    · rename_i a hd
      exact erase_inside (f := { f with out := [] }) (hse a hd)
    · rename_i a data hd
      exact program_inside (f := { f with out := [] }) (hpp a data hd)
    · rfl
  · rfl

/-! ### Reset of the loader -/

/-- A draw of `T.done` finds no FPGA and does nothing, or changes that one bit of the one it finds and counts the draw. -/
theorem drawDone_cases (w : World) :
    (w.fpga = none ∧ w.drawDone = w) ∨
      ∃ f, w.fpga = some f ∧
        w.drawDone = { w with fpga := some { f with done := Config.freeDone w.nDone }, nDone := w.nDone + 1 } := by
  unfold World.drawDone
  cases w.fpga with
  | none => exact .inl ⟨rfl, rfl⟩
  | some f => exact .inr ⟨f, rfl, rfl⟩

@[simp] theorem drawDone_flash (w : World) : w.drawDone.flash = w.flash := by
  unfold World.drawDone
  split <;> rfl

@[simp] theorem drawDone_cdone (w : World) : w.drawDone.cdone = w.cdone := by
  unfold World.drawDone
  split <;> rfl

@[simp] theorem drawDone_miso (w : World) : w.drawDone.miso = w.miso := by
  unfold World.drawDone
  split <;> rfl

@[simp] theorem drawDone_faults (w : World) : w.drawDone.faults = w.faults := by
  unfold World.drawDone
  split <;> rfl

end Sys2Proof.Laws
end

