-- ==== Sys2Proof/Laws/Commands.lean ====
section
/-! SUPPORT. What the shared parts of the commands do, said once: the events, the code they end with, and that every
register the part does not own is as it was. -/

namespace Sys2Proof.Laws

open Sys2Proof.Machine Sys2Proof.Safety

/-- As `Emits`, but for the result register. -/
def EmitsRes (es : List Event) (s t : State) : Prop := Emits es s { t with res := s.res }

end Sys2Proof.Laws

namespace Sys2Proof.Safety

open Sys2Proof.Machine Sys2Proof.Laws

theorem Emits.toRes {es : List Event} {s t : State} (h : Emits es s t) (k : Code) : EmitsRes es s (t.raise k) := by
  constructor
  all_goals first | exact rfl | skip
  · exact h.trace
  · exact h.pins
  · exact h.clk
  · exact h.fpga
  · exact h.cram
  · exact h.flash
  · exact h.port
  · exact h.buf
  · exact h.cfg

end Sys2Proof.Safety

namespace Sys2Proof.Laws

open Sys2Proof.Machine Sys2Proof.Safety

theorem EmitsRes.refl (s : State) : EmitsRes [] s s := Emits.refl s

theorem EmitsRes.trans {es fs : List Event} {s t u : State} (h : EmitsRes es s t) (k : EmitsRes fs t u) :
    EmitsRes (es ++ fs) s u where
  trace := by
    have h1 := h.trace
    have k1 := k.trace
    simp only at h1 k1 ⊢
    rw [k1, h1, List.append_assoc]
  pins := by
    have h1 := h.pins
    have k1 := k.pins
    simp only at h1 k1 ⊢
    rw [k1, h1, replayPins_append]
  clk := by
    have h1 := h.clk
    have k1 := k.clk
    simp only at h1 k1 ⊢
    rw [k1, h1, replayClk_append]
  fpga := k.fpga.trans h.fpga
  cram := k.cram.trans h.cram
  flash := k.flash.trans h.flash
  res := rfl
  port := k.port.trans h.port
  buf := k.buf.trans h.buf
  cfg := k.cfg.trans h.cfg

end Sys2Proof.Laws

namespace Sys2Proof.Safety

open Sys2Proof.Machine Sys2Proof.Laws

theorem Emits.toEmitsRes {es : List Event} {s t : State} (h : Emits es s t) : EmitsRes es s t where
  trace := h.trace
  pins := h.pins
  clk := h.clk
  fpga := h.fpga
  cram := h.cram
  flash := h.flash
  res := rfl
  port := h.port
  buf := h.buf
  cfg := h.cfg

end Sys2Proof.Safety

namespace Sys2Proof.Laws

open Sys2Proof.Machine Sys2Proof.Safety

theorem succeed_eq_raise (s : State) : s.succeed = s.raise .ok := rfl

/-- The end of an erase or program: the status bytes read, and the code they decide. -/
theorem awaitIdle_spec (s : State) :
    ∃ vs, EmitsRes (waitEvents s.cfg vs) s (awaitIdle s) ∧
      ((idleSeen s.cfg vs ∧ (awaitIdle s).res = Code.ok.byte) ∨
        (wipTimedOut s.cfg vs ∧ (awaitIdle s).res = Code.wipTimeout.byte)) := by
  obtain ⟨vs, he, hd⟩ := waitIdle_emits s.cfg.wipPollMax 0 s
  refine ⟨vs, ?_, ?_⟩
  · unfold awaitIdle
    simp only
    split
    · exact he.toRes .ok
    · exact he.toRes .wipTimeout
  · unfold awaitIdle
    rcases hd with ⟨h1, hi⟩ | ⟨h1, ht⟩
    · exact .inl ⟨hi, by simp [h1, Code.byte]⟩
    · exact .inr ⟨ht, by simp [h1]⟩

/-- FLASH_ERASE_SECTOR in a bracket (R167). -/
theorem eraseSector_spec (a : Addr) {s : State} (h : s.flash.active = true) :
    ∃ vs, EmitsRes (eraseEvents s.cfg a vs) s (eraseSector a s) ∧
      ((idleSeen s.cfg vs ∧ (eraseSector a s).res = Code.ok.byte) ∨
        (wipTimedOut s.cfg vs ∧ (eraseSector a s).res = Code.wipTimeout.byte)) := by
  have h1 := frameWren_emits s
  have h2 := frameSe_emits a (frameWren s)
  rw [h1.cfg] at h2
  have h12 := h1.trans h2
  obtain ⟨vs, he, hd⟩ := awaitIdle_spec (frameSe a (frameWren s))
  rw [h12.cfg] at he hd
  simp only [eraseSector, h, if_true]
  exact ⟨vs, by simpa [eraseEvents] using h12.toEmitsRes.trans he, hd⟩

/-- FLASH_PROGRAM_PAGE in a bracket (R168). -/
theorem programPage_spec (a : Addr) (start len : Nat) {s : State} (h : s.flash.active = true) :
    ∃ vs, EmitsRes (programEvents s.cfg a (s.buf.slice start (min len s.cfg.pageSize)) vs) s
        (programPage a start len s) ∧
      ((idleSeen s.cfg vs ∧ (programPage a start len s).res = Code.ok.byte) ∨
        (wipTimedOut s.cfg vs ∧ (programPage a start len s).res = Code.wipTimeout.byte)) := by
  have h1 := frameWren_emits s
  have h2 := framePp_emits a (s.buf.slice start (min len s.cfg.pageSize)) (frameWren s)
  rw [h1.cfg] at h2
  have h12 := h1.trans h2
  obtain ⟨vs, he, hd⟩ := awaitIdle_spec (framePp a (s.buf.slice start (min len s.cfg.pageSize)) (frameWren s))
  rw [h12.cfg] at he hd
  simp only [programPage, h, if_true]
  exact ⟨vs, by simpa [programEvents] using h12.toEmitsRes.trans he, hd⟩

theorem succeeded_iff (s : State) : s.succeeded = true ↔ s.res = Code.ok.byte := by
  simp [State.succeeded, Code.byte]

/-- The erase pass inside a bracket (R191 to R193). -/
theorem erasePass_spec (n k : Nat) {s : State} (h : s.flash.active = true) (hr : s.res = Code.ok.byte) :
    ∃ sts, EmitsRes (erasePassEvents s.cfg k sts) s (erasePass n k s) ∧
      passEnded s.cfg n sts (erasePass n k s).res := by
  induction n generalizing k s with
  | zero => exact ⟨[], .refl s, .inl ⟨rfl, by simp, hr⟩⟩
  | succ n ih =>
    have hu := setUnit_emits k s
    obtain ⟨vs, he, hd⟩ := eraseSector_spec (planAddr (sectOff s.cfg k)) (s := s.setUnit k) h
    have he' : EmitsRes (eraseEvents s.cfg (planAddr (sectOff s.cfg k)) vs) s
        (eraseSector (planAddr (sectOff s.cfg k)) (s.setUnit k)) := by
      simpa using hu.toEmitsRes.trans he
    simp only [erasePass]
    rcases hd with ⟨hi, h0⟩ | ⟨ht, h2⟩
    · rw [if_pos ((succeeded_iff _).mpr h0)]
      obtain ⟨sts, hs, hp⟩ := ih (k + 1) (s := eraseSector (planAddr (sectOff s.cfg k)) (s.setUnit k))
        (by rw [he'.flash]; exact h) h0
      have hc := he'.cfg
      simp only at hc
      rw [hc] at hs hp
      refine ⟨vs :: sts, he'.trans hs, ?_⟩
      rcases hp with ⟨hl, hall, hres⟩ | ⟨done, last, rfl, hl, hall, hlast, hres⟩
      · exact .inl ⟨by simp [hl], by simpa using ⟨hi, hall⟩, hres⟩
      · exact .inr ⟨vs :: done, last, rfl, by simpa using hl, by simpa using ⟨hi, hall⟩, hlast, hres⟩
    · have hne : (eraseSector (planAddr (sectOff s.cfg k)) (s.setUnit k)).succeeded = false := by
        simp [State.succeeded, h2, Code.byte]
      rw [hne]
      refine ⟨[vs], by simpa [erasePassEvents] using he', .inr ⟨[], vs, rfl, by simp, by simp, ht, h2⟩⟩

/-- The program pass inside a bracket (R191, R193). -/
theorem programPass_spec (len n p : Nat) {s : State} (h : s.flash.active = true) (hr : s.res = Code.ok.byte) :
    ∃ sts, EmitsRes (programPassEvents s.cfg s.buf len p sts) s (programPass len n p s) ∧
      passEnded s.cfg n sts (programPass len n p s).res := by
  induction n generalizing p s with
  | zero => exact ⟨[], .refl s, .inl ⟨rfl, by simp, hr⟩⟩
  | succ n ih =>
    have hu := setUnit_emits p s
    obtain ⟨vs, he, hd⟩ := programPage_spec (planAddr (pageOff s.cfg p)) (pageOff s.cfg p) (pageLen s.cfg len p)
      (s := s.setUnit p) h
    have hmin : min (pageLen s.cfg len p) s.cfg.pageSize = pageLen s.cfg len p := by simp [pageLen]
    have he' : EmitsRes (programEvents s.cfg (planAddr (pageOff s.cfg p))
        (s.buf.slice (pageOff s.cfg p) (pageLen s.cfg len p)) vs) s
        (programPage (planAddr (pageOff s.cfg p)) (pageOff s.cfg p) (pageLen s.cfg len p) (s.setUnit p)) := by
      have := hu.toEmitsRes.trans he
      simpa [hmin] using this
    simp only [programPass]
    rcases hd with ⟨hi, h0⟩ | ⟨ht, h2⟩
    · rw [if_pos ((succeeded_iff _).mpr h0)]
      obtain ⟨sts, hs, hp⟩ := ih (p + 1)
        (s := programPage (planAddr (pageOff s.cfg p)) (pageOff s.cfg p) (pageLen s.cfg len p) (s.setUnit p))
        (by rw [he'.flash]; exact h) h0
      have hc := he'.cfg
      have hb := he'.buf
      simp only at hc hb
      rw [hc] at hs hp
      rw [hb] at hs
      refine ⟨vs :: sts, he'.trans hs, ?_⟩
      rcases hp with ⟨hl, hall, hres⟩ | ⟨done, last, rfl, hl, hall, hlast, hres⟩
      · exact .inl ⟨by simp [hl], by simpa using ⟨hi, hall⟩, hres⟩
      · exact .inr ⟨vs :: done, last, rfl, by simpa using hl, by simpa using ⟨hi, hall⟩, hlast, hres⟩
    · have hne : (programPage (planAddr (pageOff s.cfg p)) (pageOff s.cfg p) (pageLen s.cfg len p)
          (s.setUnit p)).succeeded = false := by
        simp [State.succeeded, h2, Code.byte]
      rw [hne]
      refine ⟨[vs], by simpa [programPassEvents] using he', .inr ⟨[], vs, rfl, by simp, by simp, ht, h2⟩⟩

/-- The bytes of a CRAM_WRITE (R142): how many went out before the end or the first fault. -/
theorem cramBytes_spec (n i : Nat) (s : State) :
    ∃ k, k ≤ n ∧
      Emits ((s.buf.slice i k).flatMap cramByteEvents) s { cramBytes n i s with cram := s.cram, res := s.res } ∧
      (cramBytes n i s).cram = ⟨s.cram.isOpen, s.cram.bytes + BitVec.ofNat 32 k⟩ ∧
      ((k = n ∧ (cramBytes n i s).res = Code.ok.byte) ∨ (k < n ∧ (cramBytes n i s).res = Code.stream.byte)) := by
  induction n generalizing i s with
  | zero => exact ⟨0, le_refl 0, .refl s, by simp [cramBytes], .inl ⟨rfl, rfl⟩⟩
  | succ n ih =>
    have h0 : Emits [] s ((s.setIdx i).consult (.cramWrite i)).2 := (setIdx_emits i s).trans (consult_emits _ _)
    simp only [cramBytes]
    by_cases hf : ((s.setIdx i).consult (.cramWrite i)).1 = true
    · rw [if_pos hf]
      refine ⟨0, by omega, ?_, ?_, .inr ⟨by omega, rfl⟩⟩
      · exact ⟨h0.trace, h0.pins, h0.clk, h0.fpga, rfl, h0.flash, rfl, h0.port, h0.buf, h0.cfg⟩
      · rw [State.raise_cram, h0.cram]
        simp
    · rw [if_neg hf]
      have h1 : Emits (cramByteEvents (s.buf.read i)) s
          (((s.setIdx i).consult (.cramWrite i)).2.shiftOutCram (s.buf.read i)) :=
        h0.trans (shiftOutCram_emits (s.buf.read i) _)
      rw [h0.buf]
      generalize ((s.setIdx i).consult (.cramWrite i)).2.shiftOutCram (s.buf.read i) = s1 at h1 ⊢
      obtain ⟨k, hk, he, hcr, hd⟩ := ih (i + 1) s1.countByte
      have hb : s1.buf = s.buf := h1.buf
      have hcram : s1.cram = s.cram := h1.cram
      have hadd : s.cram.bytes + 1 + BitVec.ofNat 32 k = s.cram.bytes + BitVec.ofNat 32 (k + 1) := by
        rw [BitVec.add_assoc]
        congr 1
        apply BitVec.eq_of_toNat_eq
        simp [Nat.add_comm]
      refine ⟨k + 1, by omega, ?_, ?_, ?_⟩
      · have hsl : s.buf.slice i (k + 1) = s.buf.read i :: s.buf.slice (i + 1) k := rfl
        rw [hsl, List.flatMap_cons]
        rw [State.countByte_buf, hb] at he
        exact h1.trans ⟨he.trace, he.pins, he.clk, he.fpga, hcram.symm, he.flash, h1.res.symm, he.port, he.buf, he.cfg⟩
      · rw [hcr]
        rw [State.countByte_cram, hcram, hadd]
      · rcases hd with ⟨rfl, hr⟩ | ⟨hl, hr⟩
        · exact .inl ⟨rfl, hr⟩
        · exact .inr ⟨by omega, hr⟩

/-- A block of plain wires sends every byte. -/
theorem cramBytes_plain (n i : Nat) {s : State} (h : s.cfg.plainWires = true) :
    (cramBytes n i s).res = Code.ok.byte := by
  induction n generalizing i s with
  | zero => rfl
  | succ n ih =>
    simp only [cramBytes]
    rw [if_neg (by simp [nextFault_plain h])]
    apply ih
    rw [State.countByte_cfg, (shiftOutCram_emits _ _).cfg]
    exact h

end Sys2Proof.Laws
end

