-- ==== Sys2Proof/Laws/Brackets.lean ====
section
/-! SUPPORT. The operations that the composite commands share (FPGA_STOP, CRAM_OPEN, CRAM_CLOSE, FLASH_INIT, FLASH_DEINIT,
the bracket, the two passes), each said once: how it is turned away, and else its events and what it leaves. -/

namespace Sys2Proof.Laws

open Sys2Proof.Machine Sys2Proof.Safety

/-- The codes of the table are distinct (R211). -/
theorem byte_injective {a b : Code} (h : a.byte = b.byte) : a = b := by
  cases a <;> cases b <;> first | rfl | simp [Code.byte] at h

theorem quiet_iff (site : FaultSite) (s : State) : quietAt site s = true ↔ (s.consult site).1 = false := by
  simp [quietAt]

theorem not_quiet_iff (site : FaultSite) (s : State) : quietAt site s = false ↔ (s.consult site).1 = true := by
  simp [quietAt]

/-- FPGA_STOP (R124). -/
theorem fpgaStop_cases (s : State) :
    (s.fpga.bound = false ∧ fpgaStop s = s.raise .notInit) ∨
      (s.fpga.bound = true ∧ quietAt .fpgaStop s = false ∧ fpgaStop s = (s.consult .fpgaStop).2.raise .pinFault) ∨
      (s.fpga.bound = true ∧ quietAt .fpgaStop s = true ∧
        Ended s (fpgaStop s).settle stopEvents .ok ⟨true, s.fpga.freqKhz, .resetHeld⟩ s.cram s.flash) := by
  cases hb : s.fpga.bound
  · exact .inl ⟨rfl, by simp [fpgaStop, hb]⟩
  cases hq : quietAt .fpgaStop s
  · refine .inr (.inl ⟨rfl, rfl, ?_⟩)
    rw [not_quiet_iff] at hq
    simp only [fpgaStop, hb, if_true, hq]
  · refine .inr (.inr ⟨rfl, rfl, ?_⟩)
    rw [quiet_iff] at hq
    simp only [fpgaStop, hb, if_true, hq, Bool.false_eq_true, if_false]
    refine ⟨by simp [stopEvents], rfl, rfl, ?_, rfl, rfl, rfl, rfl, rfl, rfl, rfl⟩
    simp [← hb]

/-- CRAM_OPEN (R140, R141). -/
theorem cramOpen_cases (s : State) :
    (s.fpga.bound = false ∧ cramOpen s = s.raise .notInit) ∨
      (s.fpga.bound = true ∧ s.cram.isOpen = true ∧ cramOpen s = s.raise .sessionOpen) ∨
      (s.fpga.bound = true ∧ s.cram.isOpen = false ∧ quietAt .cramOpen s = false ∧
        cramOpen s = (s.consult .cramOpen).2.raise .setup) ∨
      (s.fpga.bound = true ∧ s.cram.isOpen = false ∧ quietAt .cramOpen s = true ∧
        Ended s (cramOpen s).settle (openEvents s.cfg) .ok s.fpga ⟨true, 0⟩ s.flash) := by
  cases hb : s.fpga.bound
  · exact .inl ⟨rfl, by simp [cramOpen, hb]⟩
  cases ho : s.cram.isOpen
  · cases hq : quietAt .cramOpen s
    · refine .inr (.inr (.inl ⟨rfl, rfl, rfl, ?_⟩))
      rw [not_quiet_iff] at hq
      simp only [cramOpen, hb, ho, hq, if_true, if_false, Bool.false_eq_true]
    · refine .inr (.inr (.inr ⟨rfl, rfl, rfl, ?_⟩))
      rw [quiet_iff] at hq
      simp only [cramOpen, hb, ho, hq, if_true, if_false, Bool.false_eq_true]
      have h := (consult_emits .cramOpen s).trans (leadIn_cramPinsOut_emits (s.consult .cramOpen).2)
      exact ⟨h.trace, h.pins, h.clk, h.fpga, rfl, h.flash, rfl, rfl, h.port, h.buf, h.cfg⟩
  · exact .inr (.inl ⟨rfl, rfl, by simp [cramOpen, hb, ho]⟩)

/-- CRAM_CLOSE of an open session (R143). -/
theorem cramClose_spec {s : State} (ho : s.cram.isOpen = true) :
    Ended s (cramClose s).settle (closeEvents s.cfg) .ok s.fpga ⟨false, s.cram.bytes⟩ s.flash := by
  simp only [cramClose, ho, if_true]
  have h := closePins_emits s
  refine ⟨h.trace, h.pins, h.clk, h.fpga, ?_, h.flash, rfl, rfl, h.port, h.buf, h.cfg⟩
  show { (_ : CramRegs) with isOpen := false } = _
  rw [h.cram]

/-- FLASH_INIT (R161). -/
theorem flashInit_cases (f : Word) (s : State) :
    (f = 0 ∧ flashInit f s = s.raise .setup) ∨
      (f ≠ 0 ∧ quietAt .flashInit s = false ∧ flashInit f s = (s.consult .flashInit).2.raise .setup) ∨
      (f ≠ 0 ∧ quietAt .flashInit s = true ∧
        Ended s (flashInit f s).settle (initEvents s.cfg) .ok s.fpga s.cram ⟨f, true⟩) := by
  by_cases h0 : f = 0
  · exact .inl ⟨h0, by simp [flashInit, h0]⟩
  cases hq : quietAt .flashInit s
  · refine .inr (.inl ⟨h0, rfl, ?_⟩)
    rw [not_quiet_iff] at hq
    simp only [flashInit, h0, if_false, hq, if_true]
  · refine .inr (.inr ⟨h0, rfl, ?_⟩)
    rw [quiet_iff] at hq
    simp only [flashInit, h0, hq, if_false, Bool.false_eq_true]
    have h := (consult_emits .flashInit s).trans (flashPinsOut_emits (s.consult .flashInit).2)
    exact ⟨h.trace, h.pins, h.clk, h.fpga, h.cram, rfl, rfl, rfl, h.port, h.buf, h.cfg⟩

/-- FLASH_DEINIT (R162). -/
theorem flashDeinit_spec (s : State) :
    Ended s (flashDeinit s).settle deinitEvents .ok s.fpga s.cram ⟨s.flash.freqHz, false⟩ := by
  have h := deinitPins_emits s
  exact ⟨h.trace, h.pins, h.clk, h.fpga, h.cram, rfl, rfl, rfl, h.port, h.buf, h.cfg⟩

theorem passEnded_code {c : Config} {n : Nat} {sts : List (List Byte)} {r : Byte} (h : passEnded c n sts r) :
    ∃ k : Code, r = k.byte ∧ (k = .ok ∨ k = .wipTimeout) := by
  rcases h with ⟨_, _, h⟩ | ⟨_, _, _, _, _, _, h⟩
  · exact ⟨.ok, h, .inl rfl⟩
  · exact ⟨.wipTimeout, h, .inr rfl⟩

/-- Both passes of a FLASH_WRITE inside a bracket (R191, R193, R195). -/
theorem writePasses_spec (len : Nat) {s : State} (h : s.flash.active = true) (hr : s.res = Code.ok.byte) :
    ∃ sts pgs k, EmitsRes (erasePassEvents s.cfg 0 sts ++ programPassEvents s.cfg s.buf len 0 pgs) s (writePasses len s) ∧
      writeEnded s.cfg (nsect s.cfg len) (npage s.cfg len) sts pgs k ∧ (writePasses len s).res = k.byte := by
  obtain ⟨sts, h1, h2⟩ := erasePass_spec (nsect s.cfg len) 0 h hr
  unfold writePasses
  simp only
  by_cases hs : (erasePass (nsect s.cfg len) 0 s).succeeded = true
  · rw [if_pos hs]
    have hok := (succeeded_iff _).mp hs
    rw [hok] at h2
    obtain ⟨pgs, h3, h4⟩ := programPass_spec len (npage s.cfg len) 0 (s := erasePass (nsect s.cfg len) 0 s)
      (by rw [show _ = s.flash from h1.flash]; exact h) hok
    rw [show (erasePass (nsect s.cfg len) 0 s).cfg = s.cfg from h1.cfg] at h3 h4
    rw [show (erasePass (nsect s.cfg len) 0 s).buf = s.buf from h1.buf] at h3
    obtain ⟨k, hk, _⟩ := passEnded_code h4
    exact ⟨sts, pgs, k, h1.trans h3, .inl ⟨h2, hk ▸ h4⟩, hk⟩
  · rw [if_neg hs]
    obtain ⟨k, hk, rfl | rfl⟩ := passEnded_code h2
    · exact absurd ((succeeded_iff _).mpr hk) hs
    · exact ⟨sts, [], .wipTimeout, by simpa [programPassEvents] using h1, .inr ⟨hk ▸ h2, rfl, rfl⟩, hk⟩

/-- The bracket around passes that emit `es` and end with the code `k` (R194). -/
theorem flashBracket_spec {op : State → State} {s : State} {es : List Event} {k : Code} (h0 : s.flash.freqHz ≠ 0)
    (hq : quietAt .flashInit s = true)
    (hop : EmitsRes es (flashInit s.flash.freqHz s) (op (flashInit s.flash.freqHz s)))
    (hr : (op (flashInit s.flash.freqHz s)).res = k.byte) :
    Ended s (flashBracket op s).settle (initEvents s.cfg ++ es ++ deinitEvents) k s.fpga s.cram
      ⟨s.flash.freqHz, false⟩ := by
  obtain ⟨h, _⟩ | ⟨_, h, _⟩ | ⟨_, _, h1⟩ := flashInit_cases s.flash.freqHz s
  · exact absurd h h0
  · rw [h] at hq
    cases hq
  have hs : (flashInit s.flash.freqHz s).succeeded = true := (succeeded_iff _).mpr h1.res
  have h2 := flashDeinit_spec (op (flashInit s.flash.freqHz s))
  simp only [flashBracket, hs, if_true]
  generalize flashInit s.flash.freqHz s = t at *
  generalize op t = u at *
  generalize flashDeinit u = v at *
  have e1 : t.trace = _ := h1.trace
  have e2 : t.pins = _ := h1.pins
  have e3 : t.clk = _ := h1.clk
  have e4 : t.flash = _ := h1.flash
  have u1 : u.trace = _ := hop.trace
  have u2 : u.pins = _ := hop.pins
  have u3 : u.clk = _ := hop.clk
  have u4 : u.flash = _ := hop.flash
  have v1 : v.trace = _ := h2.trace
  have v2 : v.pins = _ := h2.pins
  have v3 : v.clk = _ := h2.clk
  have v4 : v.flash = _ := h2.flash
  refine ⟨?_, ?_, ?_, ?_, ?_, ?_, hr, rfl, ?_, ?_, ?_⟩
  · rw [State.settle_trace, State.withResult_trace, v1, u1, e1]
    simp
  · rw [State.settle_pins, State.withResult_pins, v2, u2, e2]
    simp only [replayPins_append]
  · rw [State.settle_clk, State.withResult_clk, v3, u3, e3]
    simp only [replayClk_append]
  · exact h2.fpga.trans (hop.fpga.trans h1.fpga)
  · exact h2.cram.trans (hop.cram.trans h1.cram)
  · rw [State.settle_flash, State.withResult_flash, v4, u4]
    simp only [e4]
  · exact h2.port.trans (hop.port.trans h1.port)
  · exact h2.buf.trans (hop.buf.trans h1.buf)
  · exact h2.cfg.trans (hop.cfg.trans h1.cfg)

end Sys2Proof.Laws
end

