-- ==== Sys2Proof/Laws/Chip.lean ====
section
/-! SUPPORT. The reference flash under the commands: which operations reach it, that none takes it beyond its size while it
is addressed inside, and what a status frame, a wait and each frame leave in a chip that hears them. -/

namespace Sys2Proof.Laws

open Sys2Proof.Machine Sys2Proof.Safety

/-! ### Operations the chip does not hear -/

theorem consult_flash (site : FaultSite) (s : State) : (s.consult site).2.world.flash = s.world.flash := by
  obtain ⟨q, n, h⟩ := nextFault_world s.cfg site s.world
  show (s.world.nextFault s.cfg site).2.flash = _
  rw [h]

theorem sampleMiso_flash (l : Option Bool) (s : State) : (s.sampleMiso l).2.world.flash = s.world.flash := by
  cases l
  · simp only [State.sampleMiso, World.nextMiso]
    split <;> rfl
  · rfl

theorem shiftInBits_flash (l : Option Byte) (n : Nat) (v : Byte) (s : State) :
    (State.shiftInBits l n v s).2.world.flash = s.world.flash := by
  induction n generalizing v s with
  | zero => rfl
  | succ n ih =>
    simp only [State.shiftInBits]
    rw [ih, drive_world_other (by decide) (by decide) (by decide), State.setShift_world, sampleMiso_flash,
      drive_world_other (by decide) (by decide) (by decide)]

theorem shiftIn_flash (s : State) : s.shiftIn.2.world.flash = (s.world.statusReply s.cfg s.flashSelected).2.flash := by
  simp only [State.shiftIn]
  rw [shiftInBits_flash]

theorem flashDeinit_world (s : State) : (flashDeinit s).world = s.world := by
  simp only [flashDeinit, State.succeed_world, State.endBracket_world, State.setDir_world]

/-- A chip that has heard no byte does nothing at the end of a frame (R55). -/
theorem act_silent (c : Config) {f : RefFlash} (h : f.out = []) : f.act c = f := by
  unfold RefFlash.act
  rw [h]
  simp only [decodeFrame]
  cases f
  simp_all

/-- Configuring the flash pins ends no frame of a chip that has heard none (R161). -/
theorem flashPinsOut_flash {s : State} (h : ∀ f, s.world.flash = some f → f.out = []) :
    (flashPinsOut s).world.flash = s.world.flash := by
  have e : (flashPinsOut s).world = (s.drive .fCs (!s.cfg.flashCsActive)).world := by
    simp only [flashPinsOut, State.setDir_world]
    rw [drive_world_other (by decide) (by decide) (by decide)]
    simp only [State.setDir_world]
    rw [drive_world_other (by decide) (by decide) (by decide)]
    simp only [State.setDir_world]
  rw [e, State.drive_world, onDrive_fCs]
  cases hsel : ((s.pins.get .fCs).dir == Dir.output)
  · rfl
  · cases hf : s.world.flash with
    | none => simp [heard, hf]
    | some f => simp [heard, hf, act_silent s.cfg (h f hf)]

/-! ### Whole frames -/

/-- The chip after a status frame it hears: a busy count counts down, and the byte sent ends a frame (R59). -/
def afterStatus (c : Config) (f : RefFlash) : RefFlash := RefFlash.act c { f with out := [c.opRdsr], busy := f.busy - 1 }

theorem readStatus_flash (s : State) :
    (readStatus s).2.world.flash =
      if s.flashSelected then s.world.flash.map (afterStatus s.cfg) else s.world.flash := by
  have hc1 : (s.frameBegin.shiftOutFlash s.cfg.opRdsr).cfg = s.cfg :=
    ((frameBegin_emits s).trans (shiftOutFlash_emits _ _)).cfg
  have hs1 : (s.frameBegin.shiftOutFlash s.cfg.opRdsr).flashSelected = s.flashSelected := by
    rw [shiftOutFlash_selected, frameBegin_selected]
  have hw1 : (s.frameBegin.shiftOutFlash s.cfg.opRdsr).world =
      heard s.flashSelected (fun f => { f with out := [s.cfg.opRdsr] }) s.world := by
    rw [shiftOutFlash_world, frameBegin_world, frameBegin_selected, heard_heard]
    rfl
  have hs2 := (shiftIn_emits (s.frameBegin.shiftOutFlash s.cfg.opRdsr)).flashSelected (no_dir_byteIn _)
  have hc2 := (shiftIn_emits (s.frameBegin.shiftOutFlash s.cfg.opRdsr)).cfg
  simp only [readStatus]
  rw [frameEnd_world, hs2, hc2, hc1, hs1]
  cases hsel : s.flashSelected
  · show (heard false _ _).flash = _
    simp only [heard, Bool.false_eq_true, if_false]
    rw [shiftIn_flash, hs1, hw1, hsel, hc1]
    simp only [World.statusReply, heard, Bool.false_eq_true, if_false, Bool.false_and]
    split <;> rfl
  · simp only [heard, if_true]
    rw [shiftIn_flash, hs1, hw1, hsel, hc1]
    simp only [World.statusReply, heard, if_true]
    cases hf : s.world.flash with
    | none => simp
    | some f => simp [afterStatus]

/-! ### Nothing but an address beyond the chip takes it beyond its size -/

theorem covers_beyond {n : Nat} {s : State} (h : flashCovers n s = true) : s.beyondChip = false := by
  unfold flashCovers at h
  unfold State.beyondChip
  split at h
  · simp [*]
  · simp_all

theorem covers_of_flash {n : Nat} {s t : State} (h : t.world.flash = s.world.flash) (hs : flashCovers n s = true) :
    flashCovers n t = true := by
  unfold flashCovers
  rw [h]
  exact hs

theorem covers_out {n : Nat} {s : State} (h : flashCovers n s = true) : ∀ f, s.world.flash = some f → f.out = [] := by
  intro f hf
  unfold flashCovers at h
  rw [hf] at h
  simp_all

theorem covers_size {n : Nat} {s : State} {f : RefFlash} (h : flashCovers n s = true) (hf : s.world.flash = some f) :
    n ≤ f.size.val := by
  unfold flashCovers at h
  rw [hf] at h
  simp_all

/-- A chip that hears whole frames at addresses below `n` only is covered after as before. -/
theorem covers_acted {n : Nat} {sel : Bool} {c : Config} {g : RefFlash → RefFlash} {s t : State}
    (ht : t.world.flash = if sel then s.world.flash.map (fun f => RefFlash.act c (g f)) else s.world.flash)
    (hg : ∀ f, (g f).beyond = f.beyond ∧ (g f).size = f.size)
    (hse : ∀ f a, decodeFrame c (g f).out = .ok (.se a) → a.toNat < n)
    (hpp : ∀ f a data, decodeFrame c (g f).out = .ok (.pp a data) → a.toNat < n)
    (h : flashCovers n s = true) : flashCovers n t = true := by
  cases sel
  · exact covers_of_flash ht h
  · unfold flashCovers at h ⊢
    rw [ht]
    cases hf : s.world.flash with
    | none => simp
    | some f =>
      rw [hf] at h
      simp only [Bool.and_eq_true, Bool.not_eq_true', decide_eq_true_eq] at h
      have h1 := act_inside c (g f) (fun a ha => by rw [(hg f).2]; have := hse f a ha; omega)
        (fun a data ha => by rw [(hg f).2]; have := hpp f a data ha; omega)
      have h2 := (act_spec (S := fun _ => True) c (g f) (fun _ _ _ _ => trivial) (fun _ _ _ _ _ => trivial)).1
      simp [h1, h2, act_size, (hg f).1, (hg f).2, h]

theorem covers_heard {n : Nat} {sel : Bool} {c : Config} {bs : List Byte} {s t : State}
    (ht : t.world = heard sel (fun f => RefFlash.act c { f with out := bs }) s.world)
    (hse : ∀ a, decodeFrame c bs = .ok (.se a) → a.toNat < n)
    (hpp : ∀ a data, decodeFrame c bs = .ok (.pp a data) → a.toNat < n)
    (h : flashCovers n s = true) : flashCovers n t = true :=
  covers_acted (sel := sel) (c := c) (g := fun f => { f with out := bs }) (by rw [ht]; cases sel <;> rfl)
    (fun _ => ⟨rfl, rfl⟩) (fun _ => hse) (fun _ => hpp) h

theorem covers_wren {n : Nat} {s : State} (h : flashCovers n s = true) : flashCovers n (frameWren s) = true :=
  covers_heard (frameWren_world s) (fun a ha => absurd ha ((decodeFrame_single _ _).1 a))
    (fun a d ha => absurd ha ((decodeFrame_single _ _).2 a d)) h

theorem covers_se {n : Nat} {a : Addr} {s : State} (ha : a.toNat < n) (h : flashCovers n s = true) :
    flashCovers n (frameSe a s) = true := by
  have key := decodeFrame_addr (c := s.cfg) (cmd := s.cfg.opSe) (a := a) (data := [])
  rw [List.append_nil] at key
  exact covers_heard (frameSe_world a s) (fun b hb => by rw [key.1 b hb]; exact ha)
    (fun b d hb => by rw [key.2 b d hb]; exact ha) h

theorem covers_pp {n : Nat} {a : Addr} {data : List Byte} {s : State} (ha : a.toNat < n) (h : flashCovers n s = true) :
    flashCovers n (framePp a data s) = true := by
  have key := decodeFrame_addr (c := s.cfg) (cmd := s.cfg.opPp) (a := a) (data := data)
  exact covers_heard (framePp_world a data s) (fun b hb => by rw [key.1 b hb]; exact ha)
    (fun b d hb => by rw [key.2 b d hb]; exact ha) h

theorem covers_status {n : Nat} {s : State} (h : flashCovers n s = true) : flashCovers n (readStatus s).2 = true :=
  covers_acted (sel := s.flashSelected) (c := s.cfg) (g := fun f => { f with out := [s.cfg.opRdsr], busy := f.busy - 1 })
    (readStatus_flash s) (fun _ => ⟨rfl, rfl⟩) (fun _ a ha => absurd ha ((decodeFrame_single _ _).1 a))
    (fun _ a d ha => absurd ha ((decodeFrame_single _ _).2 a d)) h

theorem covers_wait {n : Nat} (m k : Nat) {s : State} (h : flashCovers n s = true) :
    flashCovers n (waitIdle m k s).2 = true := by
  induction m generalizing k s with
  | zero => exact h
  | succ m ih =>
    simp only [waitIdle]
    have h1 : flashCovers n (readStatus (s.setPoll (k + 1))).2 = true := covers_status (s := s.setPoll (k + 1)) h
    split
    · exact ih _ h1
    · exact h1

theorem covers_await {n : Nat} {s : State} (h : flashCovers n s = true) : flashCovers n (awaitIdle s) = true := by
  have := covers_wait s.cfg.wipPollMax 0 h
  unfold awaitIdle
  simp only
  split <;> exact this

theorem covers_erase {n : Nat} {a : Addr} {s : State} (ha : a.toNat < n) (h : flashCovers n s = true) :
    flashCovers n (eraseSector a s) = true := by
  unfold eraseSector
  split
  · exact covers_await (covers_se ha (covers_wren h))
  · exact h

theorem covers_program {n : Nat} {a : Addr} {b len : Nat} {s : State} (ha : a.toNat < n) (h : flashCovers n s = true) :
    flashCovers n (programPage a b len s) = true := by
  unfold programPage
  split
  · exact covers_await (covers_pp ha (covers_wren h))
  · exact h

theorem planAddr_le (off : Nat) : (planAddr off).toNat ≤ off := by
  simp only [planAddr, BitVec.toNat_ofNat]
  exact Nat.mod_le ..

theorem lt_ceilDiv {a b k : Nat} (h : k < ceilDiv a b) : k * b < a := by
  unfold ceilDiv at h
  rcases Nat.eq_zero_or_pos b with rfl | hb
  · simp at h
  · rw [Nat.lt_iff_add_one_le, Nat.le_div_iff_mul_le hb, Nat.add_mul] at h
    omega

theorem eraseSector_cfg (a : Addr) (s : State) : (eraseSector a s).cfg = s.cfg := by
  by_cases h : s.flash.active = true
  · obtain ⟨vs, he, _⟩ := eraseSector_spec a h
    exact he.cfg
  · simp [eraseSector, h]

theorem programPage_cfg (a : Addr) (b len : Nat) (s : State) : (programPage a b len s).cfg = s.cfg := by
  by_cases h : s.flash.active = true
  · obtain ⟨vs, he, _⟩ := programPage_spec a b len h
    exact he.cfg
  · simp [programPage, h]

theorem erasePass_cfg (m k : Nat) (s : State) : (erasePass m k s).cfg = s.cfg := by
  induction m generalizing k s with
  | zero => rfl
  | succ m ih =>
    simp only [erasePass]
    have hk := eraseSector_cfg (planAddr (sectOff s.cfg k)) (s.setUnit k)
    split
    · rw [ih, hk]
      rfl
    · exact hk

theorem covers_erasePass {n : Nat} (m k : Nat) {s : State} (hk : ∀ j, j < k + m → sectOff s.cfg j < n)
    (h : flashCovers n s = true) : flashCovers n (erasePass m k s) = true := by
  induction m generalizing k s with
  | zero => exact h
  | succ m ih =>
    simp only [erasePass]
    have h1 : flashCovers n (eraseSector (planAddr (sectOff s.cfg k)) (s.setUnit k)) = true :=
      covers_erase (s := s.setUnit k) (Nat.lt_of_le_of_lt (planAddr_le _) (hk k (by omega))) h
    split
    · refine ih _ ?_ h1
      rw [eraseSector_cfg]
      exact fun j hj => hk j (by omega)
    · exact h1

theorem covers_programPass {n : Nat} (len m k : Nat) {s : State} (hk : ∀ j, j < k + m → pageOff s.cfg j < n)
    (h : flashCovers n s = true) : flashCovers n (programPass len m k s) = true := by
  induction m generalizing k s with
  | zero => exact h
  | succ m ih =>
    simp only [programPass]
    have h1 : flashCovers n
        (programPage (planAddr (pageOff s.cfg k)) (pageOff s.cfg k) (pageLen s.cfg len k) (s.setUnit k)) = true :=
      covers_program (s := s.setUnit k) (Nat.lt_of_le_of_lt (planAddr_le _) (hk k (by omega))) h
    split
    · refine ih _ ?_ h1
      rw [programPage_cfg]
      exact fun j hj => hk j (by omega)
    · exact h1

/-- The erase pass of a length addresses the chip below it only (R190). -/
theorem covers_eraseAll (len : Nat) {s : State} (h : flashCovers len s = true) :
    flashCovers len (erasePass (nsect s.cfg len) 0 s) = true :=
  covers_erasePass _ _ (fun _ hj => lt_ceilDiv (by simpa [nsect] using hj)) h

/-- Both passes of a length address the chip below it only (R190). -/
theorem covers_writePasses (len : Nat) {s : State} (h : flashCovers len s = true) :
    flashCovers len (writePasses len s) = true := by
  unfold writePasses
  simp only
  have h1 := covers_eraseAll len h
  split
  · refine covers_programPass _ _ _ (fun j hj => ?_) h1
    rw [erasePass_cfg]
    exact lt_ceilDiv (by simpa [npage] using hj)
  · exact h1

theorem covers_init {n : Nat} {f : Word} {s : State} (h : flashCovers n s = true) : flashCovers n (flashInit f s) = true := by
  unfold flashInit
  split
  · exact covers_of_flash (by rw [State.raise_world]) h
  · simp only
    have h1 := covers_of_flash (consult_flash .flashInit s) h
    split
    · exact covers_of_flash (by rw [State.raise_world]) h1
    · exact covers_of_flash
        (by rw [State.succeed_world, State.openBracket_world, flashPinsOut_flash (covers_out h1)]) h1

theorem covers_bracket {n : Nat} {op : State → State} (hop : ∀ s, flashCovers n s = true → flashCovers n (op s) = true)
    {s : State} (h : flashCovers n s = true) : flashCovers n (flashBracket op s) = true := by
  unfold flashBracket
  simp only
  split
  · exact covers_of_flash (by rw [State.withResult_world, flashDeinit_world]) (hop _ (covers_init h))
  · exact covers_init h

theorem covers_flashWrite {len : Word} {s : State} (h : flashCovers len.toNat s = true) :
    flashCovers len.toNat (flashWrite len s) = true := by
  unfold flashWrite
  split
  · exact h
  · exact covers_bracket (fun _ => covers_writePasses _) h

theorem covers_flashErase {len : Word} {s : State} (h : flashCovers len.toNat s = true) :
    flashCovers len.toNat (flashErase len s) = true := by
  unfold flashErase
  split
  · exact h
  · exact covers_bracket (fun _ => covers_eraseAll _) h

/-! ### What a chip that hears them keeps of the frames and waits (R55 to R59) -/

/-- The bits of a line that spells a byte are read back as the byte (R107). -/
theorem shiftInBits_line (n : Nat) (hn : n ≤ 8) (w v : Byte) (s : State) (hv : ∀ i < n, v.getLsbD i = false)
    (hw : ∀ i, n ≤ i → v.getLsbD i = w.getLsbD i) : (State.shiftInBits (some w) n v s).1 = w := by
  induction n generalizing v s with
  | zero =>
    apply BitVec.eq_of_getLsbD_eq
    intro i _
    exact hw i (by omega)
  | succ n ih =>
    have hq : ((s.drive .fSck true).sampleMiso (some (w.getLsbD n))).1 = w.getLsbD n := rfl
    simp only [State.shiftInBits, Option.map_some, hq]
    apply ih (by omega)
    · intro i hi
      split
      · have := hv i (by omega)
        simp [this]
        try omega
      · exact hv i (by omega)
    · intro i hi
      by_cases h8 : i < 8
      · by_cases hin : i = n
        · subst hin
          cases hb : w.getLsbD i
          · simpa using hv i (by omega)
          · simp [h8]
        · have h2 := hw i (by omega)
          split
          · simp [← h2]
            intro _ h3
            omega
          · exact h2
      · rw [BitVec.getLsbD_of_ge _ i (by omega), BitVec.getLsbD_of_ge _ i (by omega)]

/-- A status frame reads the status byte of the chip that hears it (R59). -/
theorem readStatus_reads {s : State} {f : RefFlash} (hs : s.flashSelected = true) (hf : s.world.flash = some f) :
    (readStatus s).1 = f.status s.cfg := by
  have hc1 : (s.frameBegin.shiftOutFlash s.cfg.opRdsr).cfg = s.cfg :=
    ((frameBegin_emits s).trans (shiftOutFlash_emits _ _)).cfg
  have hs1 : (s.frameBegin.shiftOutFlash s.cfg.opRdsr).flashSelected = true := by
    rw [shiftOutFlash_selected, frameBegin_selected, hs]
  have hw1 : (s.frameBegin.shiftOutFlash s.cfg.opRdsr).world.flash = some { f with out := [s.cfg.opRdsr] } := by
    rw [shiftOutFlash_world, frameBegin_world, frameBegin_selected, heard_heard, hs]
    simp [heard, hf]
  simp only [readStatus]
  generalize hu : s.frameBegin.shiftOutFlash s.cfg.opRdsr = u at *
  have hr : (u.world.statusReply u.cfg u.flashSelected).1 = some (f.status s.cfg) := by
    simp [World.statusReply, hw1, hs1, hc1]
    rfl
  show (State.shiftInBits (u.world.statusReply u.cfg u.flashSelected).1 8 0 _).1 = _
  rw [hr]
  exact shiftInBits_line 8 (le_refl 8) _ 0 _ (by simp) (by
    intro i hi
    simp
    rw [BitVec.getLsbD_of_ge _ i (by omega)])

/-- A status frame counts a busy chip down, and nothing else of the chip changes (R59). -/
theorem readStatus_chip {s : State} {f : RefFlash} (hd : s.cfg.framesDistinct = true) (hs : s.flashSelected = true)
    (hf : s.world.flash = some f) : (readStatus s).2.world.flash = some { f with out := [], busy := f.busy - 1 } := by
  rw [readStatus_flash, hs, hf]
  simp only [if_true, Option.map_some, afterStatus, RefFlash.act, decodeFrame_rdsr hd]
  simp

/-- The write-in-progress bit of a chip's status is set exactly while it is busy (R59). -/
theorem wipSet_status (c : Config) (f : RefFlash) : wipSet c (f.status c) = decide (f.busy ≠ 0) := by
  unfold wipSet RefFlash.status
  obtain ⟨ss, ps, a, b, l, ll, t, m1, m2, o1, o2, o3, o4, wb, pa, pw⟩ := c
  have := wb.isLt
  by_cases hb : f.busy = 0
  all_goals
    cases f.wel
    all_goals simp [hb]
  all_goals
    revert wb
    decide

/-- A wait changes nothing of the chip but its busy count, and ends idle only when that is 0 (R166). -/
theorem waitIdle_chip (n k : Nat) {s : State} {f : RefFlash} (hd : s.cfg.framesDistinct = true)
    (hs : s.flashSelected = true) (hf : s.world.flash = some f) (ho : f.out = []) :
    ∃ b, (waitIdle n k s).2.world.flash = some { f with busy := b } ∧ ((waitIdle n k s).1 = true → b = 0) := by
  induction n generalizing k s f with
  | zero => exact ⟨f.busy, hf, by simp [waitIdle]⟩
  | succ n ih =>
    simp only [waitIdle]
    have h1 := readStatus_chip (s := s.setPoll (k + 1)) hd hs hf
    have h2 := readStatus_reads (s := s.setPoll (k + 1)) hs hf
    have he := readStatus_emits (s.setPoll (k + 1))
    have h3 : (readStatus (s.setPoll (k + 1))).2.flashSelected = true := by
      rw [he.flashSelected]
      · exact hs
      · intro p d
        simp only [statusEvents, List.mem_cons, List.mem_append, not_or]
        exact ⟨by simp, ⟨no_dir_byteOut _ _ _ p d, no_dir_byteIn _ p d⟩, by simp⟩
    rw [h2, show wipSet s.cfg (f.status (s.setPoll (k + 1)).cfg) = _ from wipSet_status s.cfg f]
    have e : ({ f with out := [], busy := f.busy - 1 } : RefFlash) = { f with busy := f.busy - 1 } := by
      cases f
      simp_all
    split
    · obtain ⟨b, i1, i2⟩ := ih (k + 1) (f := { f with busy := f.busy - 1 })
        (by rw [he.cfg]; exact hd) h3 (by rw [h1, e]) ho
      exact ⟨b, i1, i2⟩
    · rename_i hb
      refine ⟨f.busy - 1, by rw [h1, e], fun _ => ?_⟩
      simp at hb
      omega

theorem awaitIdle_chip {s : State} {f : RefFlash} (hd : s.cfg.framesDistinct = true) (hs : s.flashSelected = true)
    (hf : s.world.flash = some f) (ho : f.out = []) :
    ∃ b, (awaitIdle s).world.flash = some { f with busy := b } ∧ ((awaitIdle s).res = Code.ok.byte → b = 0) := by
  obtain ⟨b, h1, h2⟩ := waitIdle_chip s.cfg.wipPollMax 0 hd hs hf ho
  refine ⟨b, ?_, ?_⟩
  · unfold awaitIdle
    simp only
    split
    · rw [State.succeed_world]
      exact h1
    · rw [State.raise_world]
      exact h1
  · unfold awaitIdle
    simp only
    split
    · rename_i h
      exact fun _ => h2 h
    · intro h
      exact absurd h (by show Code.wipTimeout.byte ≠ _; decide)

/-- WREN sets the write-enable latch of an idle chip, and nothing else of it (R56). -/
theorem frameWren_chip {s : State} {f : RefFlash} (hs : s.flashSelected = true) (hf : s.world.flash = some f)
    (ho : f.out = []) (hb : f.busy = 0) : (frameWren s).world.flash = some { f with wel := true } := by
  rw [frameWren_world, hs]
  simp only [heard, if_true, hf, Option.map_some]
  unfold RefFlash.act
  simp only [hb, if_true, decodeFrame_wren]
  cases f
  simp_all

/-- SE erases in an idle chip (R57). -/
theorem frameSe_chip {s : State} {f : RefFlash} (a : Addr) (hs : s.flashSelected = true) (hf : s.world.flash = some f)
    (hb : f.busy = 0) : (frameSe a s).world.flash = some (RefFlash.erase s.cfg { f with out := [] } a) := by
  rw [frameSe_world, hs]
  simp only [heard, if_true, hf, Option.map_some]
  unfold RefFlash.act
  simp only [hb, if_true, decodeFrame_se]

/-- PP programs in an idle chip (R58). -/
theorem framePp_chip {s : State} {f : RefFlash} (a : Addr) {data : List Byte} (hd : s.cfg.framesDistinct = true)
    (hl : data.length ≤ s.cfg.pageSize) (hs : s.flashSelected = true) (hf : s.world.flash = some f) (hb : f.busy = 0) :
    (framePp a data s).world.flash = some (RefFlash.program s.cfg { f with out := [] } a data) := by
  rw [framePp_world, hs]
  simp only [heard, if_true, hf, Option.map_some]
  unfold RefFlash.act
  simp only [hb, if_true, decodeFrame_pp hd a hl]

end Sys2Proof.Laws
end

