-- ==== Sys2Proof/Laws/PerInstr.lean ====
section
/-! SUPPORT. The per-instruction family RoundTrip: decoding the encoded words of a well-formed instruction gives it back. -/

namespace Sys2Proof.Laws.RoundTrip

/-- Decoding gives back what was encoded. -/
def Statement (i : Instr) : Prop :=
  ∀ c : Config, c.framesDistinct = true → i.wellFormed c = true → decode c (encode c i) = .ok i

/-- The decoder's answer on a command word with a given opcode. -/
theorem decode_commandWord (c : Config) (op : Byte) (arg : Addr) (ow : Word) :
    decode c (.command (commandWord op arg) ow) = decodeCommand (commandWord op arg) ow := rfl

theorem fpgaInit (freq : Word) : Statement (.fpgaInit freq) := by
  intro c _ _
  simp [encode, decode, decodeCommand, zeroArg]

theorem fpgaStart : Statement .fpgaStart := by
  intro c _ _
  simp [encode, decode, decodeCommand, zeroArg]

theorem fpgaStop : Statement .fpgaStop := by
  intro c _ _
  simp [encode, decode, decodeCommand, zeroArg]

theorem fpgaReset : Statement .fpgaReset := by
  intro c _ _
  simp [encode, decode, decodeCommand, zeroArg]

theorem cramOpen : Statement .cramOpen := by
  intro c _ _
  simp [encode, decode, decodeCommand, zeroArg]

theorem cramWrite (len : Word) : Statement (.cramWrite len) := by
  intro c _ _
  simp [encode, decode, decodeCommand, zeroArg]

theorem cramClose : Statement .cramClose := by
  intro c _ _
  simp [encode, decode, decodeCommand, zeroArg]

theorem cramLoad (len : Word) : Statement (.cramLoad len) := by
  intro c _ _
  simp [encode, decode, decodeCommand, zeroArg]

theorem flashConfig (freq : Word) : Statement (.flashConfig freq) := by
  intro c _ _
  simp [encode, decode, decodeCommand, zeroArg]

theorem flashInit (freq : Word) : Statement (.flashInit freq) := by
  intro c _ _
  simp [encode, decode, decodeCommand, zeroArg]

theorem flashEraseSector (offset : Addr) : Statement (.flashEraseSector offset) := by
  intro c _ _
  simp [encode, decode, decodeCommand]

theorem flashProgramPage (offset : Addr) (len : Word) : Statement (.flashProgramPage offset len) := by
  intro c _ _
  simp [encode, decode, decodeCommand]

theorem flashDeinit : Statement .flashDeinit := by
  intro c _ _
  simp [encode, decode, decodeCommand, zeroArg]

theorem flashWrite (len : Word) : Statement (.flashWrite len) := by
  intro c _ _
  simp [encode, decode, decodeCommand, zeroArg]

theorem flashErase (len : Word) : Statement (.flashErase len) := by
  intro c _ _
  simp [encode, decode, decodeCommand, zeroArg]

theorem wren : Statement .wren := fun c _ _ => decodeFrame_wren c

theorem se (addr : Addr) : Statement (.se addr) := fun c _ _ => decodeFrame_se c addr

theorem pp (addr : Addr) (data : List Byte) : Statement (.pp addr data) := fun _ h hw =>
  decodeFrame_pp h addr (by simpa [Instr.wellFormed] using hw)

theorem rdsr : Statement .rdsr := fun _ h _ => decodeFrame_rdsr h

end Sys2Proof.Laws.RoundTrip
end

