-- ==== Sys2Proof/Tests/Slice0.lean ====
section
/-! SUPPORT. Tests: the well-formedness check refuses, the decoder reads words written out from spec/30_encoding.md, single
steps give what spec/95_test_vectors.md says, and every statement with hypotheses has a witness that meets them. -/

namespace Sys2Proof.Tests

set_option Elab.async false

open Sys2Proof.Machine Sys2Proof.Safety

/-! ### Helper states -/

/-- The trace and the result a step leaves (from an empty trace: the step's events). -/
def seen (o : Host.Outcome State Fault Refusal) : Option (List Event × Byte) :=
  match o with
  | .next t => some (t.trace, t.res)
  | _ => none

/-- The number of events and the result. -/
def tally (o : Host.Outcome State Fault Refusal) : Option (Nat × Byte) := (seen o).map fun p => (p.1.length, p.2)

/-- A part of the next state. -/
def part {α : Type} (f : State → α) (o : Host.Outcome State Fault Refusal) : Option α :=
  match o with
  | .next t => some (f t)
  | _ => none

/-- A bound device, never started. -/
def bound : State := { State.reset with fpga := ⟨true, 48, .unpowered⟩ }

/-- The oracle's queue. -/
def oracle (q : List Bool) (s : State) : State := { s with world := { s.world with faults := q } }

/-- The queue of CDONE. -/
def cdone (q : List Bool) (s : State) : State := { s with world := { s.world with cdone := q } }

/-- The queue of F_MISO, as the bytes it spells. -/
def status (q : List Byte) (s : State) : State := { s with world := { s.world with miso := q.flatMap bitsOf } }

/-- A buffer that holds these bytes from address 0. -/
def holding (q : List Byte) (s : State) : State :=
  { s with buf := ((List.range q.length).zip q).filter (fun c => c.2 != 0xFF) }

/-- A device in phase CLOCKING. -/
def running : State :=
  { State.reset with
    fpga := ⟨true, 48, .clocking⟩
    clk := ⟨true, some 48⟩
    pins := { Pins.reset with creset := ⟨.output, .one⟩ } }

/-- A device in phase CLOCKING with an open session. -/
def session : State :=
  { running with
    cram := ⟨true, 0⟩
    pins := { running.pins with cCs := ⟨.output, .zero⟩, cDo := ⟨.output, .zero⟩, cSck := ⟨.output, .zero⟩ } }

/-- An open flash bracket. -/
def bracket : State :=
  { State.reset with
    flash := ⟨1000000, true⟩
    pins := { Pins.reset with
      fCs := ⟨.output, .one⟩, fSck := ⟨.output, .zero⟩, fMosi := ⟨.output, .zero⟩ } }

/-- Small parameters. -/
def small : Config :=
  { Config.standard with sectorSize := 4, pageSize := 2, leadClocks := 1, trailClocks := 1 }

/-- The block with other parameters. -/
def configured (c : Config) (s : State) : State := { s with cfg := c }

/-- An idle reference flash of a size, every byte listed being 0. -/
def chip (size : FlashBytes) (draws : List Nat) : RefFlash :=
  ⟨[(3, 0), (4, 0), (9, 0)], false, 0, size, [], draws, 0, false⟩

/-- A reference flash is wired to the bus. -/
def withChip (f : RefFlash) (s : State) : State := { s with world := { s.world with flash := some f } }

/-- A reference FPGA that takes one stream is wired to the bus. -/
def withTarget (stream : List Byte) (s : State) : State :=
  { s with world := { s.world with fpga := some ⟨false, [], .listed [stream]⟩ } }

/-! ### Well-formedness and decoding -/

/-- R77: at most PAGE_SIZE data bytes. -/
theorem test_wellFormed_page :
    (Instr.pp 0 (List.replicate 256 0)).wellFormed Config.standard = true ∧
      (Instr.pp 0 (List.replicate 257 0)).wellFormed Config.standard = false := by decide +kernel

/-- R71, R72: each command's word, opcode byte and argument written out. -/
theorem test_decode_commands :
    decodeCommand 0b00010000000000000000000000000000#32 48 = .ok (.fpgaInit 48) ∧
    decodeCommand 0b00010001000000000000000000000000#32 0 = .ok .fpgaStart ∧
    decodeCommand 0b00010010000000000000000000000000#32 0 = .ok .fpgaStop ∧
    decodeCommand 0b00010011000000000000000000000000#32 0 = .ok .fpgaReset ∧
    decodeCommand 0b00100000000000000000000000000000#32 0 = .ok .cramOpen ∧
    decodeCommand 0b00100001000000000000000000000000#32 4 = .ok (.cramWrite 4) ∧
    decodeCommand 0b00100010000000000000000000000000#32 0 = .ok .cramClose ∧
    decodeCommand 0b00100011000000000000000000000000#32 9 = .ok (.cramLoad 9) ∧
    decodeCommand 0b00110000000000000000000000000000#32 0x989680 = .ok (.flashConfig 10000000) ∧
    decodeCommand 0b00110001000000000000000000000000#32 5 = .ok (.flashInit 5) ∧
    decodeCommand 0b00110010111111111111111111111111#32 0 = .ok (.flashEraseSector 0xFFFFFF) ∧
    decodeCommand 0b00110011000000000000000100000000#32 2 = .ok (.flashProgramPage 0x100 2) ∧
    decodeCommand 0b00110100000000000000000000000000#32 0 = .ok .flashDeinit ∧
    decodeCommand 0b00110101000000000000000000000000#32 300 = .ok (.flashWrite 300) ∧
    decodeCommand 0b00110110000000000000000000000000#32 5000 = .ok (.flashErase 5000) := by decide +kernel

/-- V-DEC-3 to V-DEC-8, V-DEC-13, V-DEC-15. -/
theorem test_decode_illegal :
    decodeCommand 0x11000001 0 = .error .argumentNotZero ∧ decodeCommand 0 0 = .error .illegalOpcode ∧
      decodeCommand 0x14000000 0 = .error .illegalOpcode ∧ decodeCommand 0x24000000 0 = .error .illegalOpcode ∧
      decodeCommand 0x37000000 0 = .error .illegalOpcode ∧ decodeCommand 0xFFFFFFFF 0 = .error .illegalOpcode ∧
      decodeCommand 0x36000001 0 = .error .argumentNotZero ∧ decodeCommand 0x35001000 0 = .error .argumentNotZero := by
  decide +kernel

/-- R77, R78, R80: each frame's bytes out. -/
theorem test_decode_frames :
    decodeFrame Config.standard [0b00000110] = .ok .wren ∧
    decodeFrame Config.standard [0b00100000, 0x12, 0x34, 0x56] = .ok (.se 0x123456) ∧
    decodeFrame Config.standard [0b00000010, 0x00, 0x10, 0xFF, 0xAA, 0xBB] = .ok (.pp 0x0010FF [0xAA, 0xBB]) ∧
    decodeFrame Config.standard [0b00000101] = .ok .rdsr ∧
    decodeFrame Config.standard [0b00100000, 0x12] = .error .frameShape ∧
    decodeFrame Config.standard [0x9F] = .error .noSuchFrame := by decide +kernel

/-- R56 to R58, R77: where two frames share their opcode, the number of bytes still tells which frame it is (log 21). -/
theorem test_decode_shared_opcodes :
    decodeFrame { Config.standard with opSe := 0x06 } [0x06, 0, 0, 0] = .ok (.se 0) ∧
    decodeFrame { Config.standard with opSe := 0x06 } [0x06] = .ok .wren ∧
    decodeFrame { Config.standard with opSe := 0x02 } [0x02, 0, 0, 0, 0xAA] = .ok (.pp 0 [0xAA]) ∧
    decodeFrame { Config.standard with opSe := 0x02 } [0x02, 0, 0, 0] = .ok (.se 0) ∧
    decodeFrame { Config.standard with opRdsr := 0x06 } [0x06] = .ok .wren := by decide +kernel

/-- The table's rows laid out for the decoder, low bits first. -/
theorem test_decode_table :
    decodeTableWord 32 0x32FFFFFF = some (.flashEraseSector 0xFFFFFF) ∧
      decodeTableWord 64 0x0000138836000000 = some (.flashErase 5000) ∧ decodeTableWord 8 0x06 = some .wren ∧
      decodeTableWord 32 0x56341220 = some (.se 0x123456) ∧ decodeTableWord 32 0x11000001 = none := by decide +kernel

/-- A table word placed at the port is the next instruction (V-DEC-11). -/
theorem test_withFetchWord :
    seen (step (State.reset.withFetchWord 64 0x0000000421000000)) = some ([], 4) := by decide +kernel

/-! ### FPGA Sequencer -/

/-- V-SEQ-13. -/
theorem test_fpgaInit : part (fun t => (t.fpga, t.clk, t.res)) (exec (.fpgaInit 24) running) =
    some (⟨true, 24, .clocking⟩, ⟨true, some 48⟩, 0) := by decide +kernel

/-- V-SEQ-3 and V-SEQ-12. -/
theorem test_fpgaStart_timeout : seen (exec .fpgaStart (cdone [false, false, false] bound)) =
    some ([.drv .creset true, .clkOn 48, .smp .cdone false, .smp .cdone false, .smp .cdone false], 1) := by
  decide +kernel

/-- V-SEQ-4: polling stops at the first 1. -/
theorem test_fpgaStart_rises : seen (exec .fpgaStart (cdone [false, true, false] running)) =
    some ([.drv .creset true, .clkOn 48, .smp .cdone false, .smp .cdone true], 0) := by decide +kernel

/-- V-SEQ-16: a session stays open. -/
theorem test_fpgaStop : part (fun t => (t.trace, t.fpga.phase, t.clk.running, t.cram.isOpen, t.res))
    (exec .fpgaStop (oracle [false] session)) =
    some ([.clkOff, .drv .creset false], .resetHeld, false, true, 0) := by decide +kernel

/-- V-SEQ-11. -/
theorem test_fpgaStop_fault : part (fun t => (t.trace, t.fpga.phase, t.clk.running, t.res))
    (exec .fpgaStop (oracle [true] running)) = some ([], .clocking, true, 7) := by decide +kernel

/-- V-SEQ-8: the stop fails, so there is no start. -/
theorem test_fpgaReset_fault : part (fun t => (t.trace, t.fpga.phase, t.clk.running, t.world.cdone, t.res))
    (exec .fpgaReset (oracle [true] (cdone [true] running))) = some ([], .clocking, true, [true], 7) := by decide +kernel

/-- V-SEQ-9. -/
theorem test_fpgaReset : seen (exec .fpgaReset (oracle [false] (cdone [false, false, true] running))) =
    some ([.clkOff, .drv .creset false, .drv .creset true, .clkOn 48, .smp .cdone false, .smp .cdone false,
      .smp .cdone true], 0) := by decide +kernel

/-! ### CRAM Programmer -/

/-- V-CRAM-22, the open. -/
theorem test_cramOpen : seen (exec .cramOpen (oracle [false] (configured
      { Config.standard with cramCsActive := true, leadCsLevel := false, leadClocks := 1, trailClocks := 1 } bound))) =
    some ([.drv .cSck false, .dir .cSck .output, .drv .cDo false, .dir .cDo .output, .drv .cCs true, .dir .cCs .output,
      .drv .cCs false, .drv .cSck true, .drv .cSck false, .drv .cCs true], 0) := by decide +kernel

/-- V-CRAM-7: with the defaults, 24 events; V-PRI-3: an open session comes before the oracle. -/
theorem test_cramOpen_counts : tally (exec .cramOpen (oracle [false] bound)) = some (24, 0) ∧
    tally (exec .cramOpen (oracle [true] session)) = some (0, 3) := by decide +kernel

/-- V-CRAM-12. -/
theorem test_cramWrite_fault : part (fun t => (t.trace.length, t.cram, t.pins.cDo.lvl, t.res))
    (exec (.cramWrite 3) (oracle [false, true] (holding [0x11, 0x22, 0x33] session))) =
    some (24, ⟨true, 1⟩, .one, 5) := by decide +kernel

/-- V-GPIO-3 in a session, and V-CRAM-19: the count wraps. -/
theorem test_cramWrite : part (fun t => (t.trace, t.cram.bytes, t.res))
    (exec (.cramWrite 1) (oracle [false] (holding [0xA5] { session with cram := ⟨true, 0xFFFFFFFF⟩ }))) =
    some ([true, false, true, false, false, true, false, true].flatMap
      (fun b => [.drv .cDo b, .drv .cSck true, .drv .cSck false]), 0, 0) := by decide +kernel

/-- V-CRAM-21, the close. -/
theorem test_cramClose : seen (exec .cramClose (configured { Config.standard with trailClocks := 3 } session)) =
    some ([.drv .cCs true, .drv .cDo false, .drv .cSck true, .drv .cSck false, .drv .cSck true, .drv .cSck false,
      .drv .cSck true, .drv .cSck false, .dir .cCs .input, .dir .cDo .input, .dir .cSck .input], 0) := by decide +kernel

/-- V-CRAM-4. -/
theorem test_cramClose_closed : seen (exec .cramClose State.reset) = some ([], 0) := by decide +kernel

/-- V-CRAM-15 with fewer clocks (10 + 2 * 24 + 7 events): the close runs, and its OK does not replace the write's code. -/
theorem test_cramLoad_fault : part (fun t => (t.trace.length, t.cram, t.pins.cCs, t.res))
    (exec (.cramLoad 4) (oracle [false, false, false, true] (configured small (holding [1, 2, 3, 4] bound)))) =
    some (65, ⟨false, 2⟩, ⟨.input, .one⟩, 5) := by decide +kernel

/-- V-CRAM-18. -/
theorem test_cramLoad_setup : seen (exec (.cramLoad 1) (oracle [true] (holding [1] bound))) = some ([], 6) := by
  decide +kernel

/-! ### Flash Driver -/

/-- V-FLD-9. -/
theorem test_flashConfig : part (fun t => (t.trace, t.flash, t.res)) (exec (.flashConfig 123) bracket) =
    some ([], ⟨123, true⟩, 0) := by decide +kernel

/-- V-FLD-6. -/
theorem test_flashInit : part (fun t => (t.trace, t.flash, t.pins.fCs, t.res))
    (exec (.flashInit 1000000) (oracle [false] State.reset)) =
    some ([.drv .fCs true, .dir .fCs .output, .drv .fSck false, .dir .fSck .output, .drv .fMosi false,
      .dir .fMosi .output, .dir .fMiso .input], ⟨1000000, true⟩, ⟨.output, .one⟩, 0) := by decide +kernel

/-- V-FLD-4 and V-FLD-8. -/
theorem test_flashInit_setup : part (fun t => (t.trace, t.flash, t.res)) (exec (.flashInit 0) State.reset) =
      some ([], ⟨10000000, false⟩, 6) ∧
    part (fun t => (t.trace, t.flash, t.res)) (exec (.flashInit 5) (oracle [true] bracket)) =
      some ([], ⟨1000000, true⟩, 6) := by decide +kernel

/-- V-FLD-3. -/
theorem test_flashDeinit : seen (exec .flashDeinit State.reset) =
    some ([.dir .fSck .input, .dir .fMosi .input, .dir .fMiso .input, .dir .fCs .input], 0) := by decide +kernel

/-- V-FLD-10. -/
theorem test_flashEraseSector : part (fun t => (t.trace.length, t.pins.fCs.lvl, t.pins.fSck.lvl, t.pins.fMosi.lvl, t.res))
    (exec (.flashEraseSector 0x001000) (status [0x03, 0x00] bracket)) = some (224, .one, .zero, .one, 0) := by
  decide +kernel

/-- V-FLD-12: success at the last permitted poll. -/
theorem test_flashEraseSector_last :
    tally (exec (.flashEraseSector 0xFFFFFF) (status [1, 1, 0] bracket)) = some (274, 0) := by decide +kernel

/-- V-FLD-14: the data bits follow the address. -/
theorem test_flashProgramPage : part
    (fun t => ((t.trace.filter (fun e => eventPin e == .fMosi)).map (fun e => e == .drv .fMosi true), t.res))
    (exec (.flashProgramPage 0x000100 2) (holding [0x01, 0x02] (status [0x00] bracket))) =
    some (([0x06, 0x02, 0x00, 0x01, 0x00, 0x01, 0x02, 0x05] : List Byte).flatMap bitsOf, 0) := by decide +kernel

/-- V-FLD-18. -/
theorem test_flashProgramPage_bit7 : tally (exec (.flashProgramPage 0x000010 1)
    (holding [0xAB] (status [0x80, 0x7F] (configured { Config.standard with wipBit := 7 } bracket)))) =
    some (248, 0) := by decide +kernel

/-! ### Flash orchestration -/

/-- V-ORC-10. -/
theorem test_flashWrite : part (fun t => (t.trace.length, t.flash, t.res))
    (exec (.flashWrite 1) (oracle [false] (holding [0x09] (status [0, 0] { bracket with flash := ⟨5, true⟩ })))) =
    some (383, ⟨5, false⟩, 0) := by decide +kernel

/-- V-ORC-8, V-ORC-9. -/
theorem test_flashWrite_refused : seen (exec (.flashWrite 16777217) State.reset) = some ([], 9) ∧
    part (fun t => (t.trace, t.flash, t.res)) (exec (.flashWrite 2) { bracket with flash := ⟨0, true⟩ }) =
      some ([], ⟨0, true⟩, 6) := by decide +kernel

/-- V-ORC-1, the row of length 1. -/
theorem test_flashErase : part
    (fun t => (t.trace.length, (t.trace.filter (fun e => e == .drv .fCs false)).length, t.flash.active, t.res))
    (exec (.flashErase 1) (oracle [false] (status [0] State.reset))) = some (185, 3, false, 0) := by decide +kernel

/-- R193 as in V-ORC-6: the first of three sectors times out, so no other is begun, and the deinit runs. -/
theorem test_flashErase_abort : part (fun t => (t.trace.length, t.flash.active, t.pins.fCs.dir, t.res))
    (exec (.flashErase 9000) (oracle [false] (status [1]
      (configured { Config.standard with wipPollMax := 1 } State.reset)))) = some (185, false, .input, 2) := by
  decide +kernel

/-! ### Wire frames -/

/-- V-GPIO-1 and V-GPIO-6. -/
theorem test_wren : part (fun t => t.trace) (exec .wren State.reset) =
    some (.drv .fCs false ::
      ([false, false, false, false, false, true, true, false].flatMap
        (fun b => [.drv .fMosi b, .drv .fSck true, .drv .fSck false]) ++ [.drv .fCs true])) := by decide +kernel

/-- The bytes out of SE 0x001234 (V-FLD-13). -/
theorem test_se : part (fun t => (t.trace.filter (fun e => eventPin e == .fMosi)).map (fun e => e == .drv .fMosi true))
    (exec (.se 0x001234) State.reset) = some (([0x20, 0x00, 0x12, 0x34] : List Byte).flatMap bitsOf) := by decide +kernel

/-- The bytes out of PP 0x0010FF [AA BB] (V-FLD-17). -/
theorem test_pp : part (fun t => (t.trace.filter (fun e => eventPin e == .fMosi)).map (fun e => e == .drv .fMosi true))
    (exec (.pp 0x0010FF [0xAA, 0xBB]) State.reset) =
    some (([0x02, 0x00, 0x10, 0xFF, 0xAA, 0xBB] : List Byte).flatMap bitsOf) := by decide +kernel

/-- V-GPIO-5. -/
theorem test_rdsr : part (fun t => (t.trace.length, t.tmp.shByte))
    (exec .rdsr { State.reset with
      world := { World.free with miso := [false, false, false, false, false, false, true, false] } }) =
    some (50, some 0x02) := by decide +kernel

/-! ### The reference chips -/

/-- R57 to R59: an erase and then an and of the data into the page, with one busy read each. -/
theorem test_chip_program : part (fun t => (t.world.flash.map fun f => (f.mem.read 4, f.mem.read 5, f.mem.read 6), t.res))
    (exec (.flashProgramPage 4 2) (holding [0x0F, 0xF0] (withChip (chip Config.flashBytesDefault [1]) bracket))) =
    some (some (0, 0xF0, 0xFF), 0) ∧
    part (fun t => (t.world.flash.map fun f => (f.mem.read 4, f.mem.read 9), t.res))
      (exec (.flashEraseSector 6) (configured small (withChip (chip Config.flashBytesDefault [2]) bracket))) =
    some (some (0xFF, 0), 0) := by decide +kernel

/-- R60, R61 (program P1, step 4): a valid stream configures the FPGA at the last trailing clock. -/
theorem test_chip_load : part (fun t => t.world.fpga)
    (exec (.cramLoad 2) (oracle [false, false, false] (configured small (holding [0x7E, 0xAA]
      (withTarget [0x7E, 0xAA] running))))) = some (some ⟨true, [0x7E, 0xAA], .listed [[0x7E, 0xAA]]⟩) := by decide +kernel

/-- R5, R241: what the flash holds survives a reset of the loader, which holds no bracket after it. -/
theorem test_resetLoader :
    (withChip (chip 16 []) bracket).resetLoader.world.flash = some (chip 16 []) ∧
      (withChip (chip 16 []) bracket).resetLoader.flash = ⟨10000000, false⟩ ∧
      (withTarget [1] running).resetLoader.world.fpga.map (fun t => t.valid) = some (.listed [[1]]) := by decide +kernel

/-! ### Witnesses: for each statement with hypotheses, a state and operands that meet them -/

/-- A session and a bracket at once, in phase CLOCKING, with both chips wired. -/
def full : State :=
  { session with
    flash := ⟨1000000, true⟩
    pins := { session.pins with
      fCs := ⟨.output, .one⟩, fSck := ⟨.output, .zero⟩, fMosi := ⟨.output, .zero⟩ }
    world := { World.free with
      faults := [false, false, false, false, false, false]
      fpga := some ⟨true, [], .listed [[1, 2]]⟩
      flash := some (chip Config.flashBytesDefault [0, 1, 0, 0, 0]) } }

/-- A device in phase CLOCKING, both buses free, with both chips wired and small parameters. -/
def wired : State :=
  configured small (holding [1, 2]
    { running with world := { full.world with fpga := some ⟨false, [], .listed [[1, 2]]⟩ } })

theorem inv_reset : Inv State.reset := by
  constructor
  all_goals decide +kernel

theorem inv_full : Inv full := by
  constructor
  all_goals decide +kernel

theorem inv_wired : Inv wired := by
  constructor
  all_goals decide +kernel

theorem witness_DecodeOfEncodeIsIdentity : Config.standard.framesDistinct = true ∧
    (Instr.pp 0xFFFFFF []).wellFormed Config.standard = true ∧
    (Instr.pp 0 (List.replicate 256 0)).wellFormed Config.standard = true ∧
    (Instr.fpgaInit 0xFFFFFFFF).wellFormed Config.standard = true := by decide +kernel

theorem witness_EncodeOfDecodedWordsGivesThemBack :
    decode Config.standard (.command 0x32FFFFFF 0xFFFFFFFF) = .ok (.flashEraseSector 0xFFFFFF) ∧
      0x32#8 ∉ operandOpcodes ∧
      decode Config.standard (.command 0x21000000 0xFFFFFFFF) = .ok (.cramWrite 0xFFFFFFFF) ∧ 0x21#8 ∈ operandOpcodes ∧
      decode Config.standard (.frame [0x02, 0xFF, 0xFF, 0xFF]) = .ok (.pp 0xFFFFFF []) := by decide +kernel

theorem witness_IllegalExactlyOutsideTheOpcodeMap :
    illegalWord 0x24000000 ∧ illegalWord 0x37000000 ∧ illegalWord 0x36000001 ∧ ¬illegalWord 0x33FFFFFF := by
  unfold illegalWord
  decide +kernel

theorem witness_LoaderResetKeepsWhatTheTargetsHold : Inv full ∧ State.reset.world.fpga = none ∧
    full.world.fpga = some ⟨true, [], .listed [[1, 2]]⟩ := ⟨inv_full, by decide +kernel⟩

theorem witness_ReferenceEnvironmentAtReset : Memory.wf [(0, 0), (0xFFFFFF, 0x7E)] ∧
    (Config.flashBytesDefault.val = 2 ^ 24) := by decide +kernel

/-- The request of program P1, step 1. -/
def initRequest : Request := ⟨.command 0x10000000 0x30, []⟩

theorem witness_StepRunsTheDecodedInstruction : ∃ rest, (State.reset.withFetchWord 64 0x3010000000).port = initRequest :: rest ∧
    decode State.reset.cfg initRequest.words = .ok (.fpgaInit 48) := ⟨[], by decide +kernel⟩

theorem witness_IllegalWordOnlyAnswersIllegal :
    (State.reset.withFetchWord 32 0x11000001).port = [⟨.command 0x11000001 0, []⟩] ∧ illegalWord 0x11000001 := by
  unfold illegalWord
  decide +kernel

theorem witness_StepWithoutInstruction : State.reset.port = [] ∧
    decode State.reset.cfg (.frame [0x9F]) = .error .noSuchFrame := by decide +kernel

theorem witness_InvariantKeptByEveryStep : Inv { full with port := [initRequest] } ∧
    ∃ t, step { full with port := [initRequest] } = .next t := by
  refine ⟨?_, _, rfl⟩
  constructor
  all_goals decide +kernel

theorem witness_ClockNeverRunsUnderLowReset : Inv full ∧ ∃ t, exec .fpgaReset full = .next t := ⟨inv_full, _, rfl⟩

theorem witness_PinsAndClockFollowTheTrace : ∃ t, exec .fpgaReset full = .next t := ⟨_, rfl⟩

theorem witness_EventsStayOnOwnPins : ∃ t, exec (.cramWrite 2) full = .next t := ⟨_, rfl⟩

theorem witness_EachGroupWritesItsOwnRegisters :
    ((∃ t, exec .cramClose full = .next t) ∧ ownPins .cramClose ≠ fpgaPins ∧ ownPins .cramClose ≠ flashPins) ∧
      (∃ t, exec .fpgaStop full = .next t) ∧ ownPins .fpgaStop ≠ cramPins :=
  ⟨⟨⟨_, rfl⟩, by decide, by decide⟩, ⟨_, rfl⟩, by decide⟩

theorem witness_InputsAndTransientsAfterAnInstruction :
    ((∃ t, exec .fpgaStart full = .next t) ∧ isCommand .fpgaStart = true) ∧
      (∃ t, exec .rdsr full = .next t) ∧ isCommand .rdsr = false := ⟨⟨⟨_, rfl⟩, rfl⟩, ⟨_, rfl⟩, rfl⟩

theorem witness_ResultRegisterIsNeverRead : isCommand (.flashWrite 16777216) = true := rfl

theorem witness_ResultCodesAreThoseOfTheTable :
    isCommand (.flashWrite 16777217) = true ∧ ∃ t, exec (.flashWrite 16777217) full = .next t := ⟨rfl, _, rfl⟩

theorem witness_PhaseTripleFollowsTheTable : part (fun t => t.res) (exec .fpgaStart (cdone [true] bound)) = some 0 ∧
    part (fun t => t.res) (exec .fpgaStart (cdone [false, false, false] bound)) = some 1 ∧
    part (fun t => t.res) (exec .fpgaStart State.reset) = some 8 ∧
    (∃ t, exec (.fpgaInit 0) running = .next t) := ⟨by decide +kernel, by decide +kernel, by decide +kernel, _, rfl⟩

theorem witness_RejectedCommandsLeaveNoTrace :
    (∃ t, exec (.flashWrite 16777217) bracket = .next t ∧ t.res = Code.range.byte) ∧
      ∃ t, exec .fpgaStop (oracle [true] bound) = .next t ∧ t.res = Code.pinFault.byte :=
  ⟨⟨_, rfl, by decide +kernel⟩, _, rfl, by decide +kernel⟩

theorem witness_FpgaStartReleasesClocksAndPolls : State.reset.fpga.bound = false ∧ bound.fpga.bound = true := ⟨rfl, rfl⟩

theorem witness_FpgaStartFollowsTheSamples :
    (bound.fpga.bound = true ∧ bound.world.fpga = none) ∧
      (0 < bound.cfg.cdonePollMax ∧ (cdone [true] bound).world.cdone = List.replicate 0 false ++ true :: []) ∧
      (2 < bound.cfg.cdonePollMax ∧
        (cdone [false, false, true] bound).world.cdone = List.replicate 2 false ++ true :: []) ∧
      (cdone [false, false, false] bound).world.cdone = List.replicate bound.cfg.cdonePollMax false ++ [] := by
  decide +kernel

theorem witness_FpgaStopHaltsThenHoldsInReset : State.reset.fpga.bound = false ∧
    (bound.fpga.bound = true ∧ quietAt .fpgaStop (oracle [true] bound) = false) ∧
      quietAt .fpgaStop (oracle [false] bound) = true := by decide +kernel

theorem witness_FpgaResetCompletes : (oracle [false] running).fpga.bound = true ∧
    quietAt .fpgaStop (oracle [false] running) = true := by decide +kernel

theorem witness_UnboundDeviceOrClosedBracketIsNotInit :
    State.reset.beyondChip = false ∧ State.reset.fpga.bound = false ∧ State.reset.busesBothHeld = false ∧
      State.reset.flash.active = false := by decide +kernel

theorem witness_CramOpenStartsASession :
    (bracket.cfg.pinsAliased = false ∨ bracket.flash.active = false) ∧ bracket.fpga.bound = false ∧
      (session.fpga.bound = true ∧ session.cram.isOpen = true) ∧
      (bound.fpga.bound = true ∧ bound.cram.isOpen = false ∧ quietAt .cramOpen (oracle [true] bound) = false ∧
        quietAt .cramOpen (oracle [false] bound) = true) := by decide +kernel

theorem witness_CramWriteStreamsTheBuffer : bound.cram.isOpen = false ∧ session.cram.isOpen = true := ⟨rfl, rfl⟩

theorem witness_CramWriteFollowsTheOracle : session.cram.isOpen = true ∧
    (configured { Config.standard with plainWires := true } session).cfg.plainWires = true ∧
    session.cfg.plainWires = false ∧
    (oracle [false, false] session).world.faults = List.replicate (2 : Word).toNat false ++ [] ∧
    (0 < (2 : Word).toNat ∧ (oracle [true] session).world.faults = List.replicate 0 false ++ true :: []) ∧
    (1 < (2 : Word).toNat ∧ (oracle [false, true] session).world.faults = List.replicate 1 false ++ true :: []) := by
  decide +kernel

/-- An open session in a block of plain wires, holding two bytes. -/
def plainSession : State :=
  configured { Config.standard with plainWires := true } (holding [1, 2] session)

theorem witness_CramWritesConcatenate :
    (plainSession.cram.isOpen = true ∧ plainSession.cfg.plainWires = true) ∧
      ((1 : Word).toNat + (1 : Word).toNat < 2 ^ 32) ∧
      Memory.slice [(0, 1)] 0 1 = plainSession.buf.slice 0 1 ∧ Memory.slice [(0, 2)] 0 1 = plainSession.buf.slice 1 1 ∧
      ∃ t u, exec (.cramWrite 1) { plainSession with buf := [(0, 1)] } = .next t ∧
        exec (.cramWrite 1) { t with buf := [(0, 2)] } = .next u :=
  ⟨by decide +kernel, by decide +kernel, by decide +kernel, by decide +kernel, _, _, rfl, rfl⟩

theorem witness_CramCloseReleasesTheBus : bound.cram.isOpen = false ∧ full.cram.isOpen = true ∧ Inv full :=
  ⟨rfl, rfl, inv_full⟩

theorem witness_CramLoadCompletes : (bound.cfg.pinsAliased = false ∨ bound.flash.active = false) ∧
    bound.fpga.bound = true ∧ bound.cram.isOpen = false ∧ quietAt .cramOpen (oracle [false] bound) = true ∧
    quietAt .cramOpen (configured { Config.standard with plainWires := true } bound) = true := by decide +kernel

theorem witness_FlashInitOpensABracket : (full.cfg.pinsAliased = false ∨ full.cram.isOpen = false) ∧
    ((1 : Word) ≠ 0 ∧ quietAt .flashInit (oracle [true] full) = false) ∧ quietAt .flashInit full = true := by decide +kernel

theorem witness_EraseSectorSendsWrenSeAndWaits : flashCovers ((0xFFFFFF : Addr).toNat + 1) full = true ∧
    flashCovers ((0xFFFFFF : Addr).toNat + 1) State.reset = true ∧ State.reset.flash.active = false ∧ full.flash.active = true := by decide +kernel

theorem witness_ProgramPageSendsWrenPpAndWaits : flashCovers ((0xFFFFFF : Addr).toNat + 1) full = true ∧
    flashCovers ((0xFFFFFF : Addr).toNat + 1) State.reset = true ∧ State.reset.flash.active = false ∧ full.flash.active = true := by decide +kernel

theorem witness_WaitFollowsTheStatusSamples :
    bracket.flash.active = true ∧ bracket.world.flash = none ∧
      (status [1, 1, 0] bracket).world.miso = [1, 1, 0].flatMap bitsOf ++ [] ∧ waited bracket.cfg [1, 1, 0] .ok ∧
      (status [1, 1, 1] bracket).world.miso = [1, 1, 1].flatMap bitsOf ++ [] ∧
      waited bracket.cfg [1, 1, 1] .wipTimeout :=
  ⟨rfl, rfl, by decide +kernel, .inl ⟨⟨[1, 1], 0, by decide +kernel⟩, rfl⟩, by decide +kernel,
    .inr ⟨⟨rfl, by decide +kernel⟩, rfl⟩⟩

theorem witness_SeFrameEvents : flashCovers ((0xFFFFFF : Addr).toNat + 1) full = true := by decide +kernel

theorem witness_PpFrameEvents : flashCovers ((0xFFFFFF : Addr).toNat + 1) full = true := by decide +kernel

theorem witness_RdsrFrameReadsTheStatusByte : bracket.world.flash = none ∧
    (status [0x80] bracket).world.miso = bitsOf 0x80 ++ [] := by decide +kernel

theorem witness_PlanLaws : 1 ≤ Config.standard.sectorSize ∧ 1 ≤ Config.standard.pageSize ∧
    4095 < nsect Config.standard (2 ^ 24) ∧ 65535 < npage Config.standard (2 ^ 24) ∧ 2 ^ 24 ≤ Config.maxLen := by
  decide +kernel

theorem witness_FlashWriteErasesThenPrograms :
    (full.cfg.pinsAliased = false ∨ full.cram.isOpen = false) ∧ flashCovers (16777216 : Word).toNat full = true ∧
      (16777216 : Word).toNat ≤ Config.maxLen ∧ full.flash.freqHz ≠ 0 ∧ quietAt .flashInit full = true := by
  decide +kernel

theorem witness_FlashEraseErasesThePlan :
    (full.cfg.pinsAliased = false ∨ full.cram.isOpen = false) ∧ flashCovers (16777216 : Word).toNat full = true ∧
      (16777216 : Word).toNat ≤ Config.maxLen ∧ full.flash.freqHz ≠ 0 ∧ quietAt .flashInit full = true := by
  decide +kernel

theorem witness_OrchestrationFollowsTheStatusSamples :
    let s := configured small (oracle [false] State.reset)
    (s.cfg.pinsAliased = false ∨ s.cram.isOpen = false) ∧ s.world.flash = none ∧ (5 : Word).toNat ≤ Config.maxLen ∧
      s.flash.freqHz ≠ 0 ∧ quietAt .flashInit s = true ∧ [[0], [1, 0]].length = nsect s.cfg (5 : Word).toNat ∧
      [[0], [0], [1, 1, 0]].length = npage s.cfg (5 : Word).toNat ∧
      (∀ vs ∈ [[0], [1, 0]] ++ [[0], [0], [1, 1, 0]], idleSeen s.cfg vs) ∧
      (status [0, 1, 0, 0, 0, 1, 1, 0] s).world.miso =
        ([[0], [1, 0]] ++ [[0], [0], [1, 1, 0]] : List (List Byte)).flatten.flatMap bitsOf ++ [] ∧
      (status [0, 1, 0] s).world.miso = ([[0], [1, 0]] : List (List Byte)).flatten.flatMap bitsOf ++ [] := by
  refine ⟨by decide +kernel, rfl, by decide +kernel, by decide +kernel, by decide +kernel, by decide +kernel,
    by decide +kernel, ?_, by decide +kernel, by decide +kernel⟩
  intro vs hvs
  have h0 : idleSeen small [0] := ⟨[], 0, by decide +kernel⟩
  have h1 : idleSeen small [1, 0] := ⟨[1], 0, by decide +kernel⟩
  have h2 : idleSeen small [1, 1, 0] := ⟨[1, 1], 0, by decide +kernel⟩
  simp only [List.cons_append, List.nil_append, List.mem_cons, List.not_mem_nil, or_false] at hvs
  rcases hvs with rfl | rfl | rfl | rfl | rfl
  exacts [h0, h1, h0, h0, h2]

theorem witness_OrchestrationRefusedBeforeTheBus :
    (bracket.cfg.pinsAliased = false ∨ bracket.cram.isOpen = false) ∧ bracket.beyondChip = false ∧
      Config.maxLen < (16777217 : Word).toNat ∧
      ((16777216 : Word).toNat ≤ Config.maxLen ∧ { bracket with flash := ⟨0, true⟩ }.flash.freqHz = 0) ∧
      (bracket.flash.freqHz ≠ 0 ∧ quietAt .flashInit (oracle [true] bracket) = false) := by decide +kernel

theorem witness_EmptyLengthRunsTheBracketAlone : full.cfg.ok = true ∧
    (full.cfg.pinsAliased = false ∨ full.cram.isOpen = false) ∧ flashCovers 0 full = true ∧ full.flash.freqHz ≠ 0 ∧
    quietAt .flashInit full = true := by decide +kernel

theorem witness_AliasedBusesAreRefused :
    let a := { Config.standard with pinsAliased := true }
    let s := configured a (oracle [false] { bound with flash := bracket.flash })
    let t := configured a (oracle [false] session)
    (s.cfg.pinsAliased = true ∧ s.flash.active = true ∧ s.fpga.bound = true ∧ s.cram.isOpen = false ∧
        quietAt .cramOpen s = true) ∧
      (t.cfg.pinsAliased = true ∧ t.cram.isOpen = true ∧ quietAt .flashInit t = true ∧ (1 : Word) ≠ 0 ∧
        t.flash.freqHz ≠ 0 ∧ (16777216 : Word).toNat ≤ Config.maxLen) := by decide +kernel

theorem witness_AddressesBeyondTheChipAreRefused :
    Inv (withChip (chip 0x1000 []) bracket) ∧ bracket.cfg.framesDistinct = true ∧ bracket.flash.active = true ∧
      (withChip (chip 0x1000 []) bracket).world.flash = some (chip 0x1000 []) ∧ (chip 0x1000 []).busy = 0 ∧
      (chip 0x1000 []).size.val ≤ (0x001000 : Addr).toNat := by
  refine ⟨?_, by decide +kernel⟩
  constructor
  all_goals decide +kernel

theorem witness_FlashBytesOutsideTheStoresAreKept : Inv full ∧ full.cfg.framesDistinct = true ∧
    (∃ t, exec (.flashEraseSector 0xFFFFFF) full = .next t) ∧
    full.world.flash = some (chip Config.flashBytesDefault [0, 1, 0, 0, 0]) :=
  ⟨inv_full, by decide +kernel, ⟨_, by rfl⟩, rfl⟩

theorem witness_EraseSectorBlanksTheSector : Inv full ∧ full.cfg.framesDistinct = true ∧
    flashCovers ((0x000FFF : Addr).toNat + 1) full = true ∧ full.flash.active = true ∧ (∃ f, full.world.flash = some f ∧ f.busy = 0) ∧
    part (fun t => t.res) (exec (.flashEraseSector 0x000FFF) full) = some Code.ok.byte :=
  ⟨inv_full, by decide +kernel, by decide +kernel, rfl, ⟨_, rfl, rfl⟩, by decide +kernel⟩

theorem witness_ProgramPageAndsTheData : Inv full ∧ full.cfg.framesDistinct = true ∧
    flashCovers ((0x0000FF : Addr).toNat + 1) full = true ∧ 1 ≤ min (1 : Word).toNat full.cfg.pageSize ∧ full.flash.active = true ∧
    (∃ f, full.world.flash = some f ∧ f.busy = 0) ∧
    part (fun t => t.res) (exec (.flashProgramPage 0x0000FF 1) full) = some Code.ok.byte :=
  ⟨inv_full, by decide +kernel, by decide +kernel, by decide +kernel, rfl, ⟨_, rfl, rfl⟩, by decide +kernel⟩

theorem witness_FlashWriteStoresTheBuffer : Inv wired ∧ wired.cfg.ok = true ∧ wired.cfg.framesDistinct = true ∧
    flashCovers (5 : Word).toNat wired = true ∧ (∃ f, wired.world.flash = some f ∧ f.busy = 0) ∧
    part (fun t => t.res) (exec (.flashWrite 5) wired) = some Code.ok.byte :=
  ⟨inv_wired, by decide +kernel, by decide +kernel, by decide +kernel, ⟨_, rfl, rfl⟩, by decide +kernel⟩

theorem witness_ValidStreamConfiguresTheFpga : Inv wired ∧ wired.cfg.ok = true ∧
    wired.world.fpga = some ⟨false, [], .listed [[1, 2]]⟩ ∧ wired.fpga.phase = .clocking ∧ 1 ≤ wired.cfg.trailClocks ∧
    wired.cram.isOpen = false ∧ (ValidStreams.listed [[1, 2]]).holds (wired.buf.slice 0 (2 : Word).toNat) = true ∧
    part (fun t => (t.res, quietAt .fpgaStop t)) (exec (.cramLoad 2) wired) = some (Code.ok.byte, true) :=
  ⟨inv_wired, by decide +kernel, rfl, rfl, by decide +kernel, rfl, by decide +kernel, by decide +kernel⟩

theorem witness_CanonicalMemoriesAreEqualWhenTheyReadAlike :
    Memory.wf [(0, 0), (16777215, 1)] ∧
      ∀ a, Memory.read [(0, 0), (16777215, 1)] a = Memory.read ((Memory.write [(16777215, 1)] 0) 0) a :=
  ⟨by decide +kernel, fun _ => rfl⟩

end Sys2Proof.Tests
end

section
/-! SUPPORT. The block after a reset, in any environment and with anything at the command port: its registers (R21) and the
invariant (R20). -/

namespace Sys2Proof.Laws

open Sys2Proof.Machine Sys2Proof.Safety

/-- R21: CLOCK and CRESET are the two driven pins, and no latch holds a value. -/
@[simp] theorem resetPins_get (p : Pin) :
    Pins.reset.get p = ⟨if p = .clock ∨ p = .creset then .output else .input, .u⟩ := by
  cases p <;> rfl

theorem afterReset_resetIn (c : Config) (w : World) : afterReset (State.resetIn c w) :=
  ⟨rfl, rfl, rfl, rfl, rfl, rfl, by simp, by simp⟩

/-- The registers after reset have all of R20 by themselves; the memories of the host and of the reference flash are not the
loader's to set, so what the invariant says of them is asked for. -/
theorem inv_resetIn_with {c : Config} {w : World} {port : List Request} {buf : Memory} (hbuf : buf.wf)
    (hport : ∀ r ∈ port, r.buf.wf) (hflash : ∀ f, w.flash = some f → f.mem.wf ∧ f.out = [] ∧ f.beyond = false) :
    Inv { State.resetIn c w with port := port, buf := buf } where
  boundIfOpen := by simp
  cramDirs := by simp [cramPins]
  flashDirs := by simp
  inputDirs := ⟨rfl, rfl⟩
  outputDirs := ⟨rfl, rfl⟩
  clkRuns := by simp
  cresetUnpowered _ := rfl
  cresetHeld := by simp
  cresetReleased := by simp
  cramIdle := by simp
  flashIdle := by simp
  boundIfPowered := by simp
  clocksRestLow := by simp [Pins.reset]
  undriven := ⟨rfl, rfl, rfl⟩
  bufWf := hbuf
  portWf := hport
  flashReady := hflash

theorem afterReset_resetLoader (s : State) : afterReset s.resetLoader := afterReset_resetIn s.cfg s.world.drawDone

theorem inv_resetLoader {s : State} (h : Inv s) : Inv s.resetLoader :=
  inv_resetIn_with h.bufWf h.portWf (by simpa only [drawDone_flash] using h.flashReady)

theorem drawDone_fpga_of_none {w : World} (h : w.fpga = none) : w.drawDone.fpga = none := by
  obtain ⟨_, hw⟩ | ⟨f, hf, _⟩ := drawDone_cases w
  · rw [hw, h]
  · rw [h] at hf
    cases hf

theorem drawDone_fpga_of_some {w : World} {f : RefFpga} (h : w.fpga = some f) :
    w.drawDone.fpga = some { f with done := Config.freeDone w.nDone } := by
  obtain ⟨hn, _⟩ | ⟨g, hg, hw⟩ := drawDone_cases w
  · rw [h] at hn
    cases hn
  · rw [h] at hg
    cases hg
    rw [hw]

end Sys2Proof.Laws
end

section
/-! PROOFS. The statements of spec/00_scope.md. -/

namespace Sys2Proof.Proofs

open Sys2Proof.Machine Sys2Proof.Safety Sys2Proof.Laws

/-- Settles O9: the reset sets the registers whatever they were, and touches the environment by one draw of `T.done`
alone. -/
theorem loaderResetKeepsWhatTheTargetsHold : Obligations.LoaderResetKeepsWhatTheTargetsHold := by
  intro s
  have hdrawn : ∀ f, s.world.fpga = some f → ∃ d, s.resetLoader.world.fpga = some { f with done := d } :=
    fun _ hf => ⟨_, drawDone_fpga_of_some hf⟩
  exact ⟨afterReset_resetLoader s, rfl, rfl, rfl, rfl, drawDone_flash _, drawDone_fpga_of_none, hdrawn, drawDone_cdone _,
    drawDone_miso _, drawDone_faults _, inv_resetLoader⟩

end Sys2Proof.Proofs
end

section
/-! SUPPORT. What an instruction can do, said once for all nineteen: the state it ends in, and for a command its events,
its code and the registers it leaves. -/

namespace Sys2Proof.Laws

open Sys2Proof.Machine Sys2Proof.Safety

/-! ### The state an instruction ends in -/

/-- The state in which an instruction ends, before a command's transient registers are `U` again (R17). -/
def ending : Instr → State → State
  | .fpgaInit freq, s => Machine.fpgaInit freq s
  | .fpgaStart, s => Machine.fpgaStart s
  | .fpgaStop, s => Machine.fpgaStop s
  | .fpgaReset, s => Machine.fpgaReset s
  | .cramOpen, s => Machine.cramOpen s
  | .cramWrite len, s => Machine.cramWrite len s
  | .cramClose, s => Machine.cramClose s
  | .cramLoad len, s => Machine.cramLoad len s
  | .flashConfig freq, s => Machine.flashConfig freq s
  | .flashInit freq, s => Machine.flashInit freq s
  | .flashEraseSector offset, s => eraseSector offset s
  | .flashProgramPage offset len, s => programPage offset 0 len.toNat s
  | .flashDeinit, s => Machine.flashDeinit s
  | .flashWrite len, s => Machine.flashWrite len s
  | .flashErase len, s => Machine.flashErase len s
  | .wren, s => frameWren s
  | .se addr, s => frameSe addr s
  | .pp addr data, s => framePp addr data s
  | .rdsr, s => (readStatus s).2

theorem answer_next {s t : State} (h : s.answer = .next t) : t = s.settle := (Host.Outcome.next.inj h).symm

theorem unlessClash_next {s u t : State} {r : Host.Outcome State Fault Refusal} (h : s.unlessClash u r = .next t) :
    r = .next t := by
  unfold State.unlessClash at h
  split at h
  · split at h
    · cases h
    · exact h
  · exact h

/-- A command that may address the flash is answered where there is no chip, or where the chip was not left beyond its
size. -/
theorem unlessBeyond_next {s u t : State} {r : Host.Outcome State Fault Refusal} (h : s.unlessBeyond u r = .next t) :
    r = .next t ∧ (s.world.flash = none ∨ u.beyondChip = false) := by
  unfold State.unlessBeyond at h
  split at h
  · exact ⟨h, .inl ‹_›⟩
  · split at h
    · cases h
    · exact ⟨h, .inr (Bool.eq_false_iff.mpr ‹_›)⟩

theorem exec_command_next {i : Instr} {s t : State} (hi : isCommand i = true) (h : exec i s = .next t) :
    t = (ending i s).settle := by
  cases i with
  | cramOpen | cramLoad | flashInit => exact answer_next (unlessClash_next h)
  | flashEraseSector | flashProgramPage => exact answer_next (unlessBeyond_next h).1
  | flashWrite | flashErase => exact answer_next (unlessBeyond_next (unlessClash_next h)).1
  | wren | se | pp | rdsr => cases hi
  | _ => exact answer_next h

theorem exec_frame_next {i : Instr} {s t : State} (hi : isCommand i = false) (h : exec i s = .next t) :
    t = ending i s := by
  cases i with
  | wren | rdsr => exact (Host.Outcome.next.inj h).symm
  | se | pp => exact (Host.Outcome.next.inj (unlessBeyond_next h).1).symm
  | _ => cases hi

/-! ### Ways to end -/

theorem ended_of_emitsRes {s t : State} {es : List Event} {k : Code} (h : EmitsRes es s t) (hk : t.res = k.byte) :
    Ended s t.settle es k s.fpga s.cram s.flash :=
  ⟨h.trace, h.pins, h.clk, h.fpga, h.cram, h.flash, hk, rfl, h.port, h.buf, h.cfg⟩

theorem ended_raise (s : State) (k : Code) : Ended s (s.raise k).settle [] k s.fpga s.cram s.flash :=
  ended_of_emitsRes ((Emits.refl s).toRes k) rfl

theorem ended_consult_raise (site : FaultSite) (s : State) (k : Code) :
    Ended s ((s.consult site).2.raise k).settle [] k s.fpga s.cram s.flash :=
  ended_of_emitsRes ((consult_emits site s).toRes k) rfl

/-- A command that goes on where another ended. -/
theorem ended_trans {s t u : State} {es fs : List Event} {j k : Code} {f f' : FpgaRegs} {c c' : CramRegs}
    {l l' : FlashRegs} (h : Ended s t.settle es j f c l) (h' : Ended t u fs k f' c' l') :
    Ended s u (es ++ fs) k f' c' l' where
  trace := by rw [h'.trace, ← State.settle_trace, h.trace, List.append_assoc]
  pins := by rw [h'.pins, ← State.settle_pins, h.pins, replayPins_append]
  clk := by rw [h'.clk, ← State.settle_clk, h.clk, replayClk_append]
  fpga := h'.fpga
  cram := h'.cram
  flash := h'.flash
  res := h'.res
  tmp := h'.tmp
  port := h'.port.trans h.port
  buf := h'.buf.trans h.buf
  cfg := h'.cfg.trans h.cfg

/-- A composite that keeps the code of its main part (R145). -/
theorem ended_withResult {s t : State} {es : List Event} {j k : Code} {f : FpgaRegs} {c : CramRegs} {l : FlashRegs}
    (h : Ended s t.settle es j f c l) : Ended s (t.withResult k.byte).settle es k f c l :=
  ⟨h.trace, h.pins, h.clk, h.fpga, h.cram, h.flash, rfl, rfl, h.port, h.buf, h.cfg⟩

theorem succeeded_of_code {s t : State} {es : List Event} {k : Code} {f : FpgaRegs} {c : CramRegs} {l : FlashRegs}
    (h : Ended s t.settle es k f c l) : t.succeeded = true ↔ k = .ok := by
  rw [succeeded_iff, show t.res = k.byte from h.res]
  exact ⟨byte_injective, congrArg Code.byte⟩

/-! ### What a command can do -/

/-- How a FPGA_START ends: the samples, the code and the phase it leaves (R121, R123). -/
def polled (c : Config) (vs : List Bool) (k : Code) (p : Phase) : Prop :=
  (cdoneRose c vs ∧ k = .ok ∧ p = .configured) ∨ (cdoneTimedOut c vs ∧ k = .cdoneTimeout ∧ p = .clocking)

/-- How a stream of `len` bytes ends: `n` of them went out (R142). -/
def streamed (len : Word) (n : Nat) (k : Code) : Prop := (n = len.toNat ∧ k = .ok) ∨ (n < len.toNat ∧ k = .stream)

/-- The codes of a command that does nothing else (R215, first row). -/
def rejections : List Code := [.range, .notInit, .sessionOpen, .notOpen, .setup, .pinFault]

/-- A rejection is no success, no timeout and no broken stream. -/
theorem rejection_ne {k : Code} (hr : k ∈ rejections) :
    k ≠ .ok ∧ k ≠ .cdoneTimeout ∧ k ≠ .wipTimeout ∧ k ≠ .stream := by
  cases k with
  | ok | cdoneTimeout | wipTimeout | stream => simp [rejections] at hr
  | _ => simp

/-- What a command issued in `s` can do (R120 to R195): the events it emits, the code it ends with, and the FPGA, CRAM and
flash registers it leaves. -/
inductive Ran (s : State) : Instr → List Event → Code → FpgaRegs → CramRegs → FlashRegs → Prop
  | rejected {i : Instr} {k : Code} (hp : k ∈ possibleCodes i) (hr : k ∈ rejections) :
      Ran s i [] k s.fpga s.cram s.flash
  | fpgaInit (freq : Word) : Ran s (.fpgaInit freq) [] .ok ⟨true, freq, s.fpga.phase⟩ s.cram s.flash
  | fpgaStart {vs : List Bool} {k : Code} {p : Phase} (hb : s.fpga.bound = true) (hd : polled s.cfg vs k p) :
      Ran s .fpgaStart (startEvents s.fpga.freqKhz vs) k ⟨true, s.fpga.freqKhz, p⟩ s.cram s.flash
  | fpgaStop (hb : s.fpga.bound = true) :
      Ran s .fpgaStop stopEvents .ok ⟨true, s.fpga.freqKhz, .resetHeld⟩ s.cram s.flash
  | fpgaReset {vs : List Bool} {k : Code} {p : Phase} (hb : s.fpga.bound = true) (hd : polled s.cfg vs k p) :
      Ran s .fpgaReset (stopEvents ++ startEvents s.fpga.freqKhz vs) k ⟨true, s.fpga.freqKhz, p⟩ s.cram s.flash
  | cramOpen (hb : s.fpga.bound = true) (ho : s.cram.isOpen = false) :
      Ran s .cramOpen (openEvents s.cfg) .ok s.fpga ⟨true, 0⟩ s.flash
  | cramWrite {len : Word} {n : Nat} {k : Code} (ho : s.cram.isOpen = true) (hd : streamed len n k) :
      Ran s (.cramWrite len) ((s.buf.slice 0 n).flatMap cramByteEvents) k s.fpga
        ⟨true, s.cram.bytes + BitVec.ofNat 32 n⟩ s.flash
  | cramClose (ho : s.cram.isOpen = true) :
      Ran s .cramClose (closeEvents s.cfg) .ok s.fpga ⟨false, s.cram.bytes⟩ s.flash
  | cramCloseIdle (ho : s.cram.isOpen = false) : Ran s .cramClose [] .ok s.fpga s.cram s.flash
  | cramLoad {len : Word} {n : Nat} {k : Code} (hb : s.fpga.bound = true) (ho : s.cram.isOpen = false)
      (hd : streamed len n k) :
      Ran s (.cramLoad len) (openEvents s.cfg ++ (s.buf.slice 0 n).flatMap cramByteEvents ++ closeEvents s.cfg) k s.fpga
        ⟨false, 0 + BitVec.ofNat 32 n⟩ s.flash
  | flashConfig (freq : Word) : Ran s (.flashConfig freq) [] .ok s.fpga s.cram ⟨freq, s.flash.active⟩
  | flashInit {freq : Word} (hf : freq ≠ 0) :
      Ran s (.flashInit freq) (initEvents s.cfg) .ok s.fpga s.cram ⟨freq, true⟩
  | flashEraseSector {a : Addr} {vs : List Byte} {k : Code} (hd : waited s.cfg vs k) :
      Ran s (.flashEraseSector a) (eraseEvents s.cfg a vs) k s.fpga s.cram s.flash
  | flashProgramPage {a : Addr} {len : Word} {vs : List Byte} {k : Code} (hd : waited s.cfg vs k) :
      Ran s (.flashProgramPage a len) (programEvents s.cfg a (s.buf.slice 0 (min len.toNat s.cfg.pageSize)) vs) k
        s.fpga s.cram s.flash
  | flashDeinit : Ran s .flashDeinit deinitEvents .ok s.fpga s.cram ⟨s.flash.freqHz, false⟩
  | flashWrite {len : Word} {sts pgs : List (List Byte)} {k : Code}
      (hd : writeEnded s.cfg (nsect s.cfg len.toNat) (npage s.cfg len.toNat) sts pgs k) :
      Ran s (.flashWrite len)
        (initEvents s.cfg ++ (erasePassEvents s.cfg 0 sts ++ programPassEvents s.cfg s.buf len.toNat 0 pgs) ++
          deinitEvents) k s.fpga s.cram ⟨s.flash.freqHz, false⟩
  | flashErase {len : Word} {sts : List (List Byte)} {k : Code}
      (hd : passEnded s.cfg (nsect s.cfg len.toNat) sts k.byte) :
      Ran s (.flashErase len) (initEvents s.cfg ++ erasePassEvents s.cfg 0 sts ++ deinitEvents) k s.fpga s.cram
        ⟨s.flash.freqHz, false⟩

/-- `t` is where a command issued in `s` can end, and what it left is what the events of `Ran` leave. -/
def RanTo (i : Instr) (s t : State) : Prop :=
  ∃ es k f c l, Ran s i es k f c l ∧ Ended s t.settle es k f c l

theorem fpgaInit_ends (freq : Word) (s : State) :
    Ended s (Machine.fpgaInit freq s).settle [] .ok ⟨true, freq, s.fpga.phase⟩ s.cram s.flash :=
  ⟨(List.append_nil _).symm, rfl, rfl, rfl, rfl, rfl, rfl, rfl, rfl, rfl, rfl⟩

theorem flashConfig_ends (freq : Word) (s : State) :
    Ended s (Machine.flashConfig freq s).settle [] .ok s.fpga s.cram ⟨freq, s.flash.active⟩ :=
  ⟨(List.append_nil _).symm, rfl, rfl, rfl, rfl, rfl, rfl, rfl, rfl, rfl, rfl⟩

/-- FPGA_START when its wait begins: CRESET released and the clock running (R121). -/
def startReleased (s : State) : State := ((s.drive .creset true).clockRun s.fpga.freqKhz).setPhase .clocking

theorem fpgaStart_of_bound {s : State} (hb : s.fpga.bound = true) :
    Machine.fpgaStart s =
      if (pollCdone s.cfg.cdonePollMax 0 (startReleased s)).1 = true then
        ((pollCdone s.cfg.cdonePollMax 0 (startReleased s)).2.setPhase .configured).succeed
      else (pollCdone s.cfg.cdonePollMax 0 (startReleased s)).2.raise .cdoneTimeout := if_pos hb

/-- FPGA_START of a bound device, in both of its ways to end (R121 to R123). -/
theorem fpgaStart_ends {s : State} (hb : s.fpga.bound = true) :
    ∃ vs k p, polled s.cfg vs k p ∧
      Ended s (Machine.fpgaStart s).settle (startEvents s.fpga.freqKhz vs) k ⟨true, s.fpga.freqKhz, p⟩ s.cram
        s.flash := by
  rw [fpgaStart_of_bound hb]
  obtain ⟨vs, he, hd⟩ := pollCdone_emits s.cfg.cdonePollMax 0 (startReleased s)
  generalize pollCdone s.cfg.cdonePollMax 0 (startReleased s) = r at he hd ⊢
  have htrace : r.2.trace = s.trace ++ startEvents s.fpga.freqKhz vs := by
    rw [he.trace]
    simp [startReleased, startEvents]
  have hfpga : r.2.fpga = ⟨true, s.fpga.freqKhz, .clocking⟩ := by
    rw [he.fpga]
    simp [startReleased, hb]
  obtain ⟨hp, hrose⟩ | ⟨hp, htimed⟩ := hd
  · rw [if_pos hp]
    exact ⟨vs, .ok, .configured, .inl ⟨hrose, rfl, rfl⟩, htrace, he.pins, he.clk, by simp [hfpga], he.cram, he.flash,
      rfl, rfl, he.port, he.buf, he.cfg⟩
  · rw [if_neg (by simp [hp])]
    exact ⟨vs, .cdoneTimeout, .clocking, .inr ⟨htimed, rfl, rfl⟩, htrace, he.pins, he.clk, hfpga, he.cram, he.flash,
      rfl, rfl, he.port, he.buf, he.cfg⟩

theorem cramWrite_ends (len : Word) {s : State} (ho : s.cram.isOpen = true) :
    ∃ n k, streamed len n k ∧
      Ended s (Machine.cramWrite len s).settle ((s.buf.slice 0 n).flatMap cramByteEvents) k s.fpga
        ⟨true, s.cram.bytes + BitVec.ofNat 32 n⟩ s.flash := by
  obtain ⟨n, hn, he, hcram, hd⟩ := cramBytes_spec len.toNat 0 s
  rw [ho] at hcram
  simp only [Machine.cramWrite, ho, if_true]
  have ends (k : Code) (hk : (cramBytes len.toNat 0 s).res = k.byte) :
      Ended s (cramBytes len.toNat 0 s).settle ((s.buf.slice 0 n).flatMap cramByteEvents) k s.fpga
        ⟨true, s.cram.bytes + BitVec.ofNat 32 n⟩ s.flash :=
    ⟨he.trace, he.pins, he.clk, he.fpga, hcram, he.flash, hk, rfl, he.port, he.buf, he.cfg⟩
  obtain ⟨hlen, hk⟩ | ⟨hlt, hk⟩ := hd
  · exact ⟨n, .ok, .inl ⟨hlen, rfl⟩, ends _ hk⟩
  · exact ⟨n, .stream, .inr ⟨hlt, rfl⟩, ends _ hk⟩

/-! ### Every command ends in one of these ways -/

/-- From `s` to `t` a command did nothing but answer one of the codes `ks`. -/
def RejectedTo (ks : List Code) (s t : State) : Prop := ∃ k ∈ ks, Ended s t.settle [] k s.fpga s.cram s.flash

theorem raise_rejectedTo {ks : List Code} {k : Code} (hk : k ∈ ks) (s : State) : RejectedTo ks s (s.raise k) :=
  ⟨k, hk, ended_raise s k⟩

theorem consult_raise_rejectedTo {ks : List Code} {k : Code} (hk : k ∈ ks) (site : FaultSite) (s : State) :
    RejectedTo ks s ((s.consult site).2.raise k) :=
  ⟨k, hk, ended_consult_raise site s k⟩

theorem ranTo_of_rejectedTo {ks : List Code} {i : Instr} {s t : State} (hp : ks ⊆ possibleCodes i)
    (hr : ks ⊆ rejections) (h : RejectedTo ks s t) : RanTo i s t := by
  obtain ⟨k, hk, he⟩ := h
  exact ⟨_, _, _, _, _, .rejected (hp hk) (hr hk), he⟩

theorem not_succeeded_of_rejectedTo {ks : List Code} {s t : State} (hr : ks ⊆ rejections) (h : RejectedTo ks s t) :
    ¬t.succeeded = true := by
  obtain ⟨k, hk, he⟩ := h
  rw [succeeded_of_code he]
  exact (rejection_ne (hr hk)).1

/-- FPGA_STOP does nothing, or stops. -/
theorem fpgaStop_ends (s : State) :
    RejectedTo [.notInit, .pinFault] s (Machine.fpgaStop s) ∨
      (s.fpga.bound = true ∧
        Ended s (Machine.fpgaStop s).settle stopEvents .ok ⟨true, s.fpga.freqKhz, .resetHeld⟩ s.cram s.flash) := by
  obtain ⟨_, h⟩ | ⟨_, _, h⟩ | ⟨hb, _, h⟩ := fpgaStop_cases s
  · rw [h]
    exact .inl (raise_rejectedTo (by decide) s)
  · rw [h]
    exact .inl (consult_raise_rejectedTo (by decide) _ s)
  · exact .inr ⟨hb, h⟩

/-- CRAM_OPEN does nothing, or opens a session. -/
theorem cramOpen_ends (s : State) :
    RejectedTo [.notInit, .sessionOpen, .setup] s (Machine.cramOpen s) ∨
      (s.fpga.bound = true ∧ s.cram.isOpen = false ∧
        Ended s (Machine.cramOpen s).settle (openEvents s.cfg) .ok s.fpga ⟨true, 0⟩ s.flash) := by
  obtain ⟨_, h⟩ | ⟨_, _, h⟩ | ⟨_, _, _, h⟩ | ⟨hb, ho, _, h⟩ := cramOpen_cases s
  · rw [h]
    exact .inl (raise_rejectedTo (by decide) s)
  · rw [h]
    exact .inl (raise_rejectedTo (by decide) s)
  · rw [h]
    exact .inl (consult_raise_rejectedTo (by decide) _ s)
  · exact .inr ⟨hb, ho, h⟩

/-- FLASH_INIT does nothing, or opens a bracket. -/
theorem flashInit_ends (freq : Word) (s : State) :
    RejectedTo [.setup] s (Machine.flashInit freq s) ∨
      (freq ≠ 0 ∧ quietAt .flashInit s = true ∧
        Ended s (Machine.flashInit freq s).settle (initEvents s.cfg) .ok s.fpga s.cram ⟨freq, true⟩) := by
  obtain ⟨_, h⟩ | ⟨_, _, h⟩ | hend := flashInit_cases freq s
  · rw [h]
    exact .inl (raise_rejectedTo (by decide) s)
  · rw [h]
    exact .inl (consult_raise_rejectedTo (by decide) _ s)
  · exact .inr hend

theorem fpgaStart_ran (s : State) : RanTo .fpgaStart s (Machine.fpgaStart s) := by
  cases hb : s.fpga.bound
  · rw [show Machine.fpgaStart s = s.raise .notInit by simp [Machine.fpgaStart, hb]]
    exact ranTo_of_rejectedTo (ks := [.notInit]) (by decide) (by decide) (raise_rejectedTo (by decide) s)
  · obtain ⟨vs, k, p, hd, h⟩ := fpgaStart_ends hb
    exact ⟨_, _, _, _, _, .fpgaStart hb hd, h⟩

theorem fpgaStop_ran (s : State) : RanTo .fpgaStop s (Machine.fpgaStop s) := by
  obtain h | ⟨hb, h⟩ := fpgaStop_ends s
  · exact ranTo_of_rejectedTo (by decide) (by decide) h
  · exact ⟨_, _, _, _, _, .fpgaStop hb, h⟩

/-- R125: a stop that fails is the whole reset; after one that succeeds the device is still bound, so the start runs. -/
theorem fpgaReset_ran (s : State) : RanTo .fpgaReset s (Machine.fpgaReset s) := by
  have hreset : Machine.fpgaReset s =
      if (Machine.fpgaStop s).succeeded = true then Machine.fpgaStart (Machine.fpgaStop s)
      else Machine.fpgaStop s := rfl
  obtain h | ⟨hb, h⟩ := fpgaStop_ends s
  · rw [hreset, if_neg (not_succeeded_of_rejectedTo (by decide) h)]
    exact ranTo_of_rejectedTo (by decide) (by decide) h
  · rw [hreset, if_pos ((succeeded_of_code h).mpr rfl)]
    generalize Machine.fpgaStop s = t at h
    have hfpga : t.fpga = ⟨true, s.fpga.freqKhz, .resetHeld⟩ := h.fpga
    have hcram : t.cram = s.cram := h.cram
    have hflash : t.flash = s.flash := h.flash
    have hcfg : t.cfg = s.cfg := h.cfg
    obtain ⟨vs, k, p, hd, hstart⟩ := fpgaStart_ends (s := t) (by rw [hfpga])
    have hboth := ended_trans h hstart
    rw [hfpga, hcram, hflash] at hboth
    rw [hcfg] at hd
    exact ⟨_, _, _, _, _, .fpgaReset hb hd, hboth⟩

theorem cramOpen_ran (s : State) : RanTo .cramOpen s (Machine.cramOpen s) := by
  obtain h | ⟨hb, ho, h⟩ := cramOpen_ends s
  · exact ranTo_of_rejectedTo (by decide) (by decide) h
  · exact ⟨_, _, _, _, _, .cramOpen hb ho, h⟩

theorem cramWrite_ran (len : Word) (s : State) : RanTo (.cramWrite len) s (Machine.cramWrite len s) := by
  cases ho : s.cram.isOpen
  · rw [show Machine.cramWrite len s = s.raise .notOpen by simp [Machine.cramWrite, ho]]
    exact ranTo_of_rejectedTo (ks := [.notOpen]) (by simp [possibleCodes]) (by decide) (raise_rejectedTo (by decide) s)
  · obtain ⟨n, k, hd, h⟩ := cramWrite_ends len ho
    exact ⟨_, _, _, _, _, .cramWrite ho hd, h⟩

theorem cramClose_ran (s : State) : RanTo .cramClose s (Machine.cramClose s) := by
  cases ho : s.cram.isOpen
  · rw [show Machine.cramClose s = s.raise .ok by simp [Machine.cramClose, ho, succeed_eq_raise]]
    exact ⟨_, _, _, _, _, .cramCloseIdle ho, ended_raise s .ok⟩
  · exact ⟨_, _, _, _, _, .cramClose ho, cramClose_spec ho⟩

/-- R145: an open that fails is the whole load; after one that succeeds the session is open for the write and the close,
and the write's code is kept. -/
theorem cramLoad_ran (len : Word) (s : State) : RanTo (.cramLoad len) s (Machine.cramLoad len s) := by
  have hload : Machine.cramLoad len s =
      if (Machine.cramOpen s).succeeded = true then
        (Machine.cramClose (Machine.cramWrite len (Machine.cramOpen s))).withResult
          (Machine.cramWrite len (Machine.cramOpen s)).res
      else Machine.cramOpen s := rfl
  obtain h | ⟨hb, ho, h⟩ := cramOpen_ends s
  · rw [hload, if_neg (not_succeeded_of_rejectedTo (by decide) h)]
    exact ranTo_of_rejectedTo (by simp [possibleCodes]) (by decide) h
  · rw [hload, if_pos ((succeeded_of_code h).mpr rfl)]
    generalize Machine.cramOpen s = t at h
    have htfpga : t.fpga = s.fpga := h.fpga
    have htcram : t.cram = ⟨true, 0⟩ := h.cram
    have htflash : t.flash = s.flash := h.flash
    have htbuf : t.buf = s.buf := h.buf
    obtain ⟨n, k, hd, h2⟩ := cramWrite_ends len (s := t) (by rw [htcram])
    have h12 := ended_trans h h2
    rw [htfpga, htcram, htflash, htbuf] at h12
    generalize Machine.cramWrite len t = u at h2 h12
    have hufpga : u.fpga = s.fpga := h12.fpga
    have hucram : u.cram = ⟨true, 0 + BitVec.ofNat 32 n⟩ := h12.cram
    have huflash : u.flash = s.flash := h12.flash
    have hucfg : u.cfg = s.cfg := h12.cfg
    have h3 := cramClose_spec (s := u) (by rw [hucram])
    rw [hufpga, hucram, huflash, hucfg] at h3
    rw [show u.res = k.byte from h12.res]
    exact ⟨_, _, _, _, _, .cramLoad hb ho hd, ended_withResult (ended_trans h12 h3)⟩

theorem flashInit_ran (freq : Word) (s : State) : RanTo (.flashInit freq) s (Machine.flashInit freq s) := by
  obtain h | ⟨hf, _, h⟩ := flashInit_ends freq s
  · exact ranTo_of_rejectedTo (by simp [possibleCodes]) (by decide) h
  · exact ⟨_, _, _, _, _, .flashInit hf, h⟩

/-- What a write-in-progress wait makes of a command, in either of its two ways to end. -/
theorem ended_of_waited {s t : State} {es : List Event} {vs : List Byte} (he : EmitsRes es s t)
    (hd : (idleSeen s.cfg vs ∧ t.res = Code.ok.byte) ∨ (wipTimedOut s.cfg vs ∧ t.res = Code.wipTimeout.byte)) :
    ∃ k, waited s.cfg vs k ∧ Ended s t.settle es k s.fpga s.cram s.flash := by
  obtain ⟨hi, hk⟩ | ⟨ht, hk⟩ := hd
  · exact ⟨.ok, .inl ⟨hi, rfl⟩, ended_of_emitsRes he hk⟩
  · exact ⟨.wipTimeout, .inr ⟨ht, rfl⟩, ended_of_emitsRes he hk⟩

theorem eraseSector_ran (a : Addr) (s : State) : RanTo (.flashEraseSector a) s (eraseSector a s) := by
  cases ha : s.flash.active
  · rw [show eraseSector a s = s.raise .notInit by simp [eraseSector, ha]]
    exact ranTo_of_rejectedTo (ks := [.notInit]) (by simp [possibleCodes]) (by decide) (raise_rejectedTo (by decide) s)
  · obtain ⟨vs, he, hd⟩ := eraseSector_spec a ha
    obtain ⟨k, hw, h⟩ := ended_of_waited he hd
    exact ⟨_, _, _, _, _, .flashEraseSector hw, h⟩

theorem programPage_ran (a : Addr) (len : Word) (s : State) :
    RanTo (.flashProgramPage a len) s (programPage a 0 len.toNat s) := by
  cases ha : s.flash.active
  · rw [show programPage a 0 len.toNat s = s.raise .notInit by simp [programPage, ha]]
    exact ranTo_of_rejectedTo (ks := [.notInit]) (by simp [possibleCodes]) (by decide) (raise_rejectedTo (by decide) s)
  · obtain ⟨vs, he, hd⟩ := programPage_spec a 0 len.toNat ha
    obtain ⟨k, hw, h⟩ := ended_of_waited he hd
    exact ⟨_, _, _, _, _, .flashProgramPage hw, h⟩

/-- A bracket (R194) is turned away by its init, or runs its passes to their code. -/
theorem flashBracket_cases (op : State → State) (s : State) :
    RejectedTo [.setup] s (flashBracket op s) ∨
      ∃ t, t.flash.active = true ∧ t.res = Code.ok.byte ∧ t.cfg = s.cfg ∧ t.buf = s.buf ∧
        ∀ es k, EmitsRes es t (op t) → (op t).res = Code.byte k →
          Ended s (flashBracket op s).settle (initEvents s.cfg ++ es ++ deinitEvents) k s.fpga s.cram
            ⟨s.flash.freqHz, false⟩ := by
  obtain h | ⟨hf, hq, h⟩ := flashInit_ends s.flash.freqHz s
  · have hbracket : flashBracket op s = Machine.flashInit s.flash.freqHz s :=
      if_neg (not_succeeded_of_rejectedTo (by decide) h)
    rw [hbracket]
    exact .inl h
  · have hflash : (Machine.flashInit s.flash.freqHz s).flash = ⟨s.flash.freqHz, true⟩ := h.flash
    exact .inr ⟨Machine.flashInit s.flash.freqHz s, by rw [hflash], h.res, h.cfg, h.buf,
      fun es k he hk => flashBracket_spec hf hq he hk⟩

theorem flashWrite_ran (len : Word) (s : State) : RanTo (.flashWrite len) s (Machine.flashWrite len s) := by
  unfold Machine.flashWrite
  split
  · exact ranTo_of_rejectedTo (ks := [.range]) (by simp [possibleCodes]) (by decide) (raise_rejectedTo (by decide) s)
  · obtain h | ⟨t, ha, hr, hcfg, hbuf, h⟩ := flashBracket_cases (writePasses len.toNat) s
    · exact ranTo_of_rejectedTo (by simp [possibleCodes]) (by decide) h
    · obtain ⟨sts, pgs, k, he, hd, hk⟩ := writePasses_spec len.toNat ha hr
      have hend := h _ k he hk
      rw [hcfg, hbuf] at hend
      rw [hcfg] at hd
      exact ⟨_, _, _, _, _, .flashWrite hd, hend⟩

theorem flashErase_ran (len : Word) (s : State) : RanTo (.flashErase len) s (Machine.flashErase len s) := by
  unfold Machine.flashErase
  split
  · exact ranTo_of_rejectedTo (ks := [.range]) (by simp [possibleCodes]) (by decide) (raise_rejectedTo (by decide) s)
  · obtain h | ⟨t, ha, hr, hcfg, _, h⟩ := flashBracket_cases (fun t => erasePass (nsect t.cfg len.toNat) 0 t) s
    · exact ranTo_of_rejectedTo (by simp [possibleCodes]) (by decide) h
    · obtain ⟨sts, he, hd⟩ := erasePass_spec (nsect t.cfg len.toNat) 0 ha hr
      obtain ⟨k, hk, _⟩ := passEnded_code hd
      have hend := h _ k he hk
      rw [hcfg] at hend
      rw [hk, hcfg] at hd
      exact ⟨_, _, _, _, _, .flashErase hd, hend⟩

/-- Every command ends in one of the ways of `Ran`. -/
theorem ending_ran {i : Instr} (hi : isCommand i = true) (s : State) : RanTo i s (ending i s) := by
  cases i with
  | fpgaInit freq => exact ⟨_, _, _, _, _, .fpgaInit freq, fpgaInit_ends freq s⟩
  | fpgaStart => exact fpgaStart_ran s
  | fpgaStop => exact fpgaStop_ran s
  | fpgaReset => exact fpgaReset_ran s
  | cramOpen => exact cramOpen_ran s
  | cramWrite len => exact cramWrite_ran len s
  | cramClose => exact cramClose_ran s
  | cramLoad len => exact cramLoad_ran len s
  | flashConfig freq => exact ⟨_, _, _, _, _, .flashConfig freq, flashConfig_ends freq s⟩
  | flashInit freq => exact flashInit_ran freq s
  | flashEraseSector offset => exact eraseSector_ran offset s
  | flashProgramPage offset len => exact programPage_ran offset len s
  | flashDeinit => exact ⟨_, _, _, _, _, .flashDeinit, flashDeinit_spec s⟩
  | flashWrite len => exact flashWrite_ran len s
  | flashErase len => exact flashErase_ran len s
  | wren | se | pp | rdsr => cases hi

/-- What a command that is answered did: the one inversion lemma of `exec` for commands. -/
theorem exec_ran {i : Instr} {s t : State} (hi : isCommand i = true) (h : exec i s = .next t) :
    ∃ es k f c l, Ran s i es k f c l ∧ Ended s t es k f c l := by
  rw [exec_command_next hi h]
  exact ending_ran hi s

/-- The events of a wire frame on its own (R163 to R166). -/
inductive Framed (c : Config) : Instr → List Event → Prop
  | wren : Framed c .wren (frameEvents c [c.opWren])
  | se (a : Addr) : Framed c (.se a) (frameEvents c (c.opSe :: addrBytes a))
  | pp (a : Addr) (data : List Byte) : Framed c (.pp a data) (frameEvents c (c.opPp :: (addrBytes a ++ data)))
  | rdsr (v : Byte) : Framed c .rdsr (statusEvents c v)

/-- What a frame that is answered did: it emitted its events. -/
theorem exec_framed {i : Instr} {s t : State} (hi : isCommand i = false) (h : exec i s = .next t) :
    ∃ es, Framed s.cfg i es ∧ Emits es s t := by
  rw [exec_frame_next hi h]
  cases i with
  | wren => exact ⟨_, .wren, frameWren_emits s⟩
  | se a => exact ⟨_, .se a, frameSe_emits a s⟩
  | pp a data => exact ⟨_, .pp a data, framePp_emits a data s⟩
  | rdsr => exact ⟨_, .rdsr _, readStatus_emits s⟩
  | _ => cases hi

end Sys2Proof.Laws
end

section
/-! SUPPORT. The invariant of R20 in three parts, one for each group's pins, and what the event lists of the commands make
of them. -/

namespace Sys2Proof.Laws

open Sys2Proof.Machine Sys2Proof.Safety

/-! ### Latches that come to rest -/

/-- After the events the latch of `p` is at `l`, or as it was. -/
def RestsAt (p : Pin) (l : Level) (es : List Event) : Prop :=
  ∀ r : Pins, ((replayPins es r).get p).lvl = l ∨ ((replayPins es r).get p).lvl = (r.get p).lvl

theorem restsAt_append {p : Pin} {l : Level} {es fs : List Event} (h : RestsAt p l es) (h' : RestsAt p l fs) :
    RestsAt p l (es ++ fs) := by
  intro r
  rw [replayPins_append]
  obtain hf | hf := h' (replayPins es r)
  · exact .inl hf
  · rw [hf]
    exact h r

theorem restsAt_of_forall_ne {p : Pin} {l : Level} {es : List Event} (h : ∀ e ∈ es, eventPin e ≠ p) :
    RestsAt p l es :=
  fun r => .inr (by rw [replayPins_get_of_forall_ne h])

theorem restsAt_concat_drv (p : Pin) (v : Bool) (es : List Event) : RestsAt p (Level.ofBit v) (es ++ [.drv p v]) :=
  fun r => .inl (by simp [pinsAfter])

/-- A latch at its rest level comes back to it. -/
theorem RestsAt.lvl {p : Pin} {l : Level} {es : List Event} (h : RestsAt p l es) {r : Pins} (hr : (r.get p).lvl = l) :
    ((replayPins es r).get p).lvl = l := by
  obtain h | h := h r
  · exact h
  · rw [h, hr]

/-- A latch that rests at another level than `m`, and was not at `m`, does not end at `m`. -/
theorem RestsAt.lvl_ne {p : Pin} {l m : Level} {es : List Event} (h : RestsAt p l es) {r : Pins} (hl : l ≠ m)
    (hr : (r.get p).lvl ≠ m) : ((replayPins es r).get p).lvl ≠ m := by
  obtain h | h := h r
  · rw [h]
    exact hl
  · rw [h]
    exact hr

/-- Events on a bus that turn no pin around and leave certain latches at rest. -/
structure Rests (own : List Pin) (rest : List (Pin × Level)) (es : List Event) : Prop where
  own : ∀ e ∈ es, eventPin e ∈ own
  noDir : ∀ p d, Event.dir p d ∉ es
  rests : ∀ x ∈ rest, RestsAt x.1 x.2 es

theorem rests_nil (own : List Pin) (rest : List (Pin × Level)) : Rests own rest [] :=
  ⟨by simp, by simp, fun _ _ _ => .inr rfl⟩

theorem rests_append {own : List Pin} {rest : List (Pin × Level)} {es fs : List Event} (h : Rests own rest es)
    (h' : Rests own rest fs) : Rests own rest (es ++ fs) where
  own e he := (List.mem_append.mp he).elim (h.own e) (h'.own e)
  noDir p d he := (List.mem_append.mp he).elim (h.noDir p d) (h'.noDir p d)
  rests x hx := restsAt_append (h.rests x hx) (h'.rests x hx)

theorem rests_flatMap {α : Type} {own : List Pin} {rest : List (Pin × Level)} {g : α → List Event}
    (h : ∀ x, Rests own rest (g x)) (xs : List α) : Rests own rest (xs.flatMap g) := by
  induction xs with
  | nil => exact rests_nil own rest
  | cons x xs ih => exact rests_append (h x) ih

/-- One clock pulse, after which the clock pin is low (R105). -/
theorem rests_pulse {own : List Pin} {rest : List (Pin × Level)} {p : Pin} (hp : p ∈ own)
    (hr : ∀ x ∈ rest, x.1 = p → x.2 = .zero) : Rests own rest [.drv p true, .drv p false] where
  own := by simp [eventPin, hp]
  noDir := by simp
  rests x hx := by
    by_cases h : x.1 = p
    · rw [h, hr x hx h]
      exact restsAt_concat_drv p false [.drv p true]
    · exact restsAt_of_forall_ne (by simpa [eventPin] using Ne.symm h)

theorem rests_pulses {own : List Pin} {rest : List (Pin × Level)} {p : Pin} (hp : p ∈ own)
    (hr : ∀ x ∈ rest, x.1 = p → x.2 = .zero) (n : Nat) : Rests own rest (pulseEvents p n) := by
  induction n with
  | zero => exact rests_nil own rest
  | succ n ih => exact rests_append (rests_pulse hp hr) ih

/-- An event on a pin of the bus of which nothing is asked. -/
theorem rests_single {own : List Pin} {rest : List (Pin × Level)} {e : Event} (hown : eventPin e ∈ own)
    (hdir : ∀ p d, e ≠ .dir p d) (hr : ∀ x ∈ rest, RestsAt x.1 x.2 [e]) : Rests own rest [e] :=
  ⟨by simpa using hown, fun p d => by simpa using Ne.symm (hdir p d), hr⟩

/-- A byte out, most significant bit first (R106). -/
theorem rests_byteOut {own : List Pin} {rest : List (Pin × Level)} {d p : Pin} (hd : d ∈ own) (hp : p ∈ own)
    (hdr : ∀ x ∈ rest, x.1 ≠ d) (hpr : ∀ x ∈ rest, x.1 = p → x.2 = .zero) (b : Byte) :
    Rests own rest (byteOutEvents d p b) :=
  rests_flatMap (g := fun i => [.drv d (b.getLsbD i), .drv p true, .drv p false])
    (fun i => rests_append (es := [.drv d (b.getLsbD i)])
      (rests_single hd (by simp) fun x hx => restsAt_of_forall_ne (by simpa [eventPin] using Ne.symm (hdr x hx)))
      (rests_pulse hp hpr)) [7, 6, 5, 4, 3, 2, 1, 0]

/-- Two levels of one pin around events that leave the latches at rest: the pin is left at the second (R109, R140). -/
theorem rests_between {own : List Pin} {rest : List (Pin × Level)} {p : Pin} {w : Bool} {es : List Event}
    (hp : p ∈ own) (hr : ∀ x ∈ rest, x.1 = p → x.2 = Level.ofBit w) (h : Rests own rest es) (v : Bool) :
    Rests own rest (.drv p v :: (es ++ [.drv p w])) where
  own := List.forall_mem_cons.mpr ⟨hp, List.forall_mem_append.mpr ⟨h.own, List.forall_mem_singleton.mpr hp⟩⟩
  noDir q d := by simpa using h.noDir q d
  rests x hx := by
    rw [← List.cons_append]
    by_cases hxp : x.1 = p
    · rw [hxp, hr x hx hxp]
      exact restsAt_concat_drv p w _
    · have aside (u : Bool) : RestsAt x.1 x.2 [.drv p u] :=
        restsAt_of_forall_ne (by simpa [eventPin] using Ne.symm hxp)
      exact restsAt_append (restsAt_append (aside v) (h.rests x hx)) (aside w)

/-! ### The CRAM bus -/

/-- Where the latches of the CRAM bus rest in a session (R20). -/
def cramRest (c : Config) : List (Pin × Level) := [(.cCs, Level.ofBit c.cramCsActive), (.cSck, .zero)]

/-- What the invariant says of the CRAM bus. -/
structure CramInv (c : Config) (isOpen : Bool) (r : Pins) : Prop where
  dirs : ∀ p ∈ cramPins, (r.get p).dir = if isOpen then Dir.output else Dir.input
  idle : isOpen = true → (r.get .cCs).lvl = Level.ofBit c.cramCsActive ∧ (r.get .cSck).lvl = .zero
  restsLow : (r.get .cSck).lvl ≠ .one

theorem cramInv_of_rests {c : Config} {o : Bool} {es : List Event} {r : Pins} (h : Rests cramPins (cramRest c) es)
    (hr : CramInv c o r) : CramInv c o (replayPins es r) := by
  have hcs : RestsAt .cCs (Level.ofBit c.cramCsActive) es :=
    h.rests (.cCs, Level.ofBit c.cramCsActive) List.mem_cons_self
  have hsck : RestsAt .cSck .zero es := h.rests (.cSck, _) (by simp [cramRest])
  refine ⟨fun p hp => ?_, fun ho => ?_, hsck.lvl_ne nofun hr.restsLow⟩
  · rw [replayPins_dir h.noDir]
    exact hr.dirs p hp
  · obtain ⟨hcs', hsck'⟩ := hr.idle ho
    exact ⟨hcs.lvl hcs', hsck.lvl hsck'⟩

theorem cramInv_off {c : Config} {o : Bool} {es : List Event} {r : Pins} (h : ∀ e ∈ es, eventPin e ∉ cramPins)
    (hr : CramInv c o r) : CramInv c o (replayPins es r) := by
  have same {p : Pin} (hp : p ∈ cramPins) : (replayPins es r).get p = r.get p :=
    replayPins_get_of_forall_ne (fun e he hep => h e he (hep ▸ hp)) r
  have hcs := same (p := .cCs) (by decide)
  have hsck := same (p := .cSck) (by decide)
  refine ⟨fun p hp => ?_, ?_, ?_⟩
  · rw [same hp]
    exact hr.dirs p hp
  · rw [hcs, hsck]
    exact hr.idle
  · rw [hsck]
    exact hr.restsLow

theorem rests_cramPulses (c : Config) (n : Nat) : Rests cramPins (cramRest c) (pulseEvents .cSck n) :=
  rests_pulses (by decide) (by simp [cramRest]) n

theorem rests_cramBytes (c : Config) (bs : List Byte) : Rests cramPins (cramRest c) (bs.flatMap cramByteEvents) :=
  rests_flatMap (fun b => rests_byteOut (by decide) (by decide) (by simp [cramRest]) (by simp [cramRest]) b) bs

/-- The leading clocks of an open end with the chip selected (R140). -/
theorem rests_leadIn (c : Config) (v : Bool) (n : Nat) :
    Rests cramPins (cramRest c) (.drv .cCs v :: (pulseEvents .cSck n ++ [.drv .cCs c.cramCsActive])) :=
  rests_between (by decide) (by simp [cramRest]) (rests_cramPulses c n) v

/-- R140 sets the bus up, whatever it was. -/
theorem cramInv_open (c : Config) (r : Pins) : CramInv c true (replayPins (openEvents c) r) := by
  unfold openEvents
  rw [replayPins_append]
  have hout : CramInv c true (replayPins [.drv .cSck false, .dir .cSck .output, .drv .cDo false, .dir .cDo .output,
      .drv .cCs c.cramCsActive, .dir .cCs .output] r) :=
    ⟨by simp [cramPins, pinsAfter], by simp [pinsAfter, Level.ofBit], by simp [pinsAfter, Level.ofBit]⟩
  split
  · exact hout
  · exact cramInv_of_rests (rests_leadIn c c.leadCsLevel c.leadClocks) hout

/-- R143 releases the bus and leaves its clock low. -/
theorem cramInv_close {c : Config} {o : Bool} {r : Pins} (hr : CramInv c o r) :
    CramInv c false (replayPins (closeEvents c) r) := by
  have hlow : ((replayPins (pulseEvents .cSck c.trailClocks)
      (replayPins [.drv .cCs (!c.cramCsActive), .drv .cDo false] r)).get .cSck).lvl ≠ .one :=
    ((rests_cramPulses c c.trailClocks).rests (.cSck, .zero) (by simp [cramRest])).lvl_ne nofun
      (by simpa [pinsAfter] using hr.restsLow)
  unfold closeEvents
  rw [replayPins_append, replayPins_append]
  exact ⟨by simp [cramPins, pinsAfter], nofun, by simpa [pinsAfter] using hlow⟩

theorem own_open (c : Config) : ∀ e ∈ openEvents c, eventPin e ∈ cramPins := by
  unfold openEvents
  refine List.forall_mem_append.mpr ⟨by simp [eventPin, cramPins], ?_⟩
  split
  · simp
  · exact (rests_leadIn c c.leadCsLevel c.leadClocks).own

theorem own_close (c : Config) : ∀ e ∈ closeEvents c, eventPin e ∈ cramPins :=
  List.forall_mem_append.mpr
    ⟨List.forall_mem_append.mpr ⟨by simp [eventPin, cramPins], (rests_cramPulses c c.trailClocks).own⟩,
      by simp [eventPin, cramPins]⟩

/-! ### The flash bus -/

/-- Where the latches of the flash bus rest in a bracket (R20); the input pin is never driven. -/
def flashRest (c : Config) : List (Pin × Level) :=
  [(.fCs, Level.ofBit (!c.flashCsActive)), (.fSck, .zero), (.fMiso, .u)]

/-- What the invariant says of the flash bus. -/
structure FlashInv (c : Config) (active : Bool) (r : Pins) : Prop where
  dirs : ∀ p ∈ [Pin.fCs, .fSck, .fMosi], (r.get p).dir = if active then Dir.output else Dir.input
  misoInput : (r.get .fMiso).dir = .input
  idle : active = true → (r.get .fCs).lvl = Level.ofBit (!c.flashCsActive) ∧ (r.get .fSck).lvl = .zero
  restsLow : (r.get .fSck).lvl ≠ .one
  misoUndriven : (r.get .fMiso).lvl = .u

theorem flashInv_of_rests {c : Config} {a : Bool} {es : List Event} {r : Pins} (h : Rests flashPins (flashRest c) es)
    (hr : FlashInv c a r) : FlashInv c a (replayPins es r) := by
  have hcs : RestsAt .fCs (Level.ofBit (!c.flashCsActive)) es :=
    h.rests (.fCs, Level.ofBit (!c.flashCsActive)) List.mem_cons_self
  have hsck : RestsAt .fSck .zero es := h.rests (.fSck, _) (by simp [flashRest])
  have hmiso : RestsAt .fMiso .u es := h.rests (.fMiso, _) (by simp [flashRest])
  refine ⟨fun p hp => ?_, ?_, fun ha => ?_, hsck.lvl_ne nofun hr.restsLow, hmiso.lvl hr.misoUndriven⟩
  · rw [replayPins_dir h.noDir]
    exact hr.dirs p hp
  · rw [replayPins_dir h.noDir]
    exact hr.misoInput
  · obtain ⟨hcs', hsck'⟩ := hr.idle ha
    exact ⟨hcs.lvl hcs', hsck.lvl hsck'⟩

theorem flashInv_off {c : Config} {a : Bool} {es : List Event} {r : Pins} (h : ∀ e ∈ es, eventPin e ∉ flashPins)
    (hr : FlashInv c a r) : FlashInv c a (replayPins es r) := by
  have same {p : Pin} (hp : p ∈ flashPins) : (replayPins es r).get p = r.get p :=
    replayPins_get_of_forall_ne (fun e he hep => h e he (hep ▸ hp)) r
  have hcs := same (p := .fCs) (by decide)
  have hsck := same (p := .fSck) (by decide)
  have hmiso := same (p := .fMiso) (by decide)
  have hbus : ∀ p ∈ [Pin.fCs, .fSck, .fMosi], p ∈ flashPins := by decide
  refine ⟨fun p hp => ?_, ?_, ?_, ?_, ?_⟩
  · rw [same (hbus p hp)]
    exact hr.dirs p hp
  · rw [hmiso]
    exact hr.misoInput
  · rw [hcs, hsck]
    exact hr.idle
  · rw [hsck]
    exact hr.restsLow
  · rw [hmiso]
    exact hr.misoUndriven

theorem rests_flashBytes (c : Config) (bs : List Byte) : Rests flashPins (flashRest c) (bs.flatMap flashByteEvents) :=
  rests_flatMap (fun b => rests_byteOut (by decide) (by decide) (by simp [flashRest]) (by simp [flashRest]) b) bs

/-- A byte in: a sample moves no latch (R107). -/
theorem rests_byteIn (c : Config) (v : Byte) : Rests flashPins (flashRest c) (byteInEvents v) :=
  rests_flatMap (g := fun i => [.drv .fSck true, .smp .fMiso (v.getLsbD i), .drv .fSck false])
    (fun _ => ⟨by simp [eventPin, flashPins], by simp, by simp [flashRest, RestsAt, pinsAfter, Level.ofBit]⟩)
    [7, 6, 5, 4, 3, 2, 1, 0]

/-- A frame around bytes that leave the bus at rest ends with the chip not selected (R109). -/
theorem rests_frame {c : Config} {es : List Event} (h : Rests flashPins (flashRest c) es) :
    Rests flashPins (flashRest c) (.drv .fCs c.flashCsActive :: (es ++ [.drv .fCs (!c.flashCsActive)])) :=
  rests_between (by decide) (by simp [flashRest]) h _

theorem rests_frameEvents (c : Config) (bytes : List Byte) : Rests flashPins (flashRest c) (frameEvents c bytes) :=
  rests_frame (rests_flashBytes c bytes)

theorem rests_statusEvents (c : Config) (v : Byte) : Rests flashPins (flashRest c) (statusEvents c v) :=
  rests_frame (rests_append (by simpa using rests_flashBytes c [c.opRdsr]) (rests_byteIn c v))

theorem rests_waitEvents (c : Config) (vs : List Byte) : Rests flashPins (flashRest c) (waitEvents c vs) :=
  rests_flatMap (rests_statusEvents c) vs

theorem rests_eraseEvents (c : Config) (a : Addr) (vs : List Byte) :
    Rests flashPins (flashRest c) (eraseEvents c a vs) :=
  rests_append (rests_append (rests_frameEvents c _) (rests_frameEvents c _)) (rests_waitEvents c vs)

theorem rests_programEvents (c : Config) (a : Addr) (data vs : List Byte) :
    Rests flashPins (flashRest c) (programEvents c a data vs) :=
  rests_append (rests_append (rests_frameEvents c _) (rests_frameEvents c _)) (rests_waitEvents c vs)

theorem rests_erasePassEvents (c : Config) (k : Nat) (sts : List (List Byte)) :
    Rests flashPins (flashRest c) (erasePassEvents c k sts) := by
  induction sts generalizing k with
  | nil => exact rests_nil _ _
  | cons vs sts ih => exact rests_append (rests_eraseEvents c _ vs) (ih (k + 1))

theorem rests_programPassEvents (c : Config) (m : Memory) (len p : Nat) (pgs : List (List Byte)) :
    Rests flashPins (flashRest c) (programPassEvents c m len p pgs) := by
  induction pgs generalizing p with
  | nil => exact rests_nil _ _
  | cons vs pgs ih => exact rests_append (rests_programEvents c _ _ vs) (ih (p + 1))

theorem rests_framed {c : Config} {i : Instr} {es : List Event} (h : Framed c i es) :
    Rests flashPins (flashRest c) es := by
  cases h with
  | rdsr v => exact rests_statusEvents c v
  | _ => exact rests_frameEvents c _

/-- R161 sets the bus up, whatever it was. -/
theorem flashInv_init {c : Config} {a : Bool} {r : Pins} (hr : FlashInv c a r) :
    FlashInv c true (replayPins (initEvents c) r) := by
  have := hr.misoUndriven
  constructor <;> simp [initEvents, pinsAfter, Level.ofBit, this]

/-- R162 releases the bus. -/
theorem flashInv_deinit {c : Config} {a : Bool} {r : Pins} (hr : FlashInv c a r) :
    FlashInv c false (replayPins deinitEvents r) := by
  have hlow := hr.restsLow
  have hmiso := hr.misoUndriven
  constructor <;> simp [deinitEvents, pinsAfter, hlow, hmiso]

/-- A bracket of frames leaves the bus released (R194). -/
theorem flashInv_bracket {c : Config} {a : Bool} {es : List Event} {r : Pins} (h : Rests flashPins (flashRest c) es)
    (hr : FlashInv c a r) : FlashInv c false (replayPins (initEvents c ++ es ++ deinitEvents) r) := by
  rw [replayPins_append, replayPins_append]
  exact flashInv_deinit (flashInv_of_rests h (flashInv_init hr))

theorem own_init (c : Config) : ∀ e ∈ initEvents c, eventPin e ∈ flashPins := by
  simp [initEvents, eventPin, flashPins]

theorem own_deinit : ∀ e ∈ deinitEvents, eventPin e ∈ flashPins := by decide

theorem own_bracket {c : Config} {es : List Event} (h : Rests flashPins (flashRest c) es) :
    ∀ e ∈ initEvents c ++ es ++ deinitEvents, eventPin e ∈ flashPins :=
  List.forall_mem_append.mpr ⟨List.forall_mem_append.mpr ⟨own_init c, h.own⟩, own_deinit⟩

/-! ### The sequencer's pins -/

/-- What the invariant says of the FPGA device, its clock and its pins. -/
structure FpgaInv (f : FpgaRegs) (k : ClkRegs) (r : Pins) : Prop where
  clkRuns : k.running = true ↔ f.phase = .clocking ∨ f.phase = .configured
  cresetUnpowered : f.phase = .unpowered → (r.get .creset).lvl = .u
  cresetHeld : f.phase = .resetHeld → (r.get .creset).lvl = .zero
  cresetReleased : f.phase = .clocking ∨ f.phase = .configured → (r.get .creset).lvl = .one
  boundIfPowered : f.phase ≠ .unpowered → f.bound = true
  cresetOutput : (r.get .creset).dir = .output
  clockPin : r.get .clock = ⟨.output, .u⟩
  cdonePin : r.get .cdone = ⟨.input, .u⟩

theorem fpgaInv_off {f : FpgaRegs} {k : ClkRegs} {es : List Event} {r : Pins}
    (h : ∀ e ∈ es, eventPin e ∉ fpgaPins) (hr : FpgaInv f k r) : FpgaInv f (replayClk es k) (replayPins es r) := by
  have off {p : Pin} (hp : p ∈ fpgaPins) : ∀ e ∈ es, eventPin e ≠ p := fun e he hep => h e he (hep ▸ hp)
  have hcdone := replayPins_get_of_forall_ne (off (p := .cdone) (by decide)) r
  have hclock := replayPins_get_of_forall_ne (off (p := .clock) (by decide)) r
  have hcreset := replayPins_get_of_forall_ne (off (p := .creset) (by decide)) r
  rw [replayClk_of_forall_ne (off (by decide))]
  obtain ⟨hruns, hunpowered, hheld, hreleased, hbound, houtput, hclockPin, hcdonePin⟩ := hr
  rw [← hcreset] at hunpowered hheld hreleased houtput
  rw [← hclock] at hclockPin
  rw [← hcdone] at hcdonePin
  exact ⟨hruns, hunpowered, hheld, hreleased, hbound, houtput, hclockPin, hcdonePin⟩

@[simp] theorem replayPins_samples (p : Pin) (vs : List Bool) (r : Pins) : replayPins (vs.map (.smp p)) r = r := by
  induction vs with
  | nil => rfl
  | cons v vs ih => exact ih

@[simp] theorem replayClk_samples (p : Pin) (vs : List Bool) (k : ClkRegs) : replayClk (vs.map (.smp p)) k = k := by
  induction vs with
  | nil => rfl
  | cons v vs ih => exact ih

/-- R120 binds the device in the phase it is in. -/
theorem fpgaInv_bind {f : FpgaRegs} {k : ClkRegs} {r : Pins} (hr : FpgaInv f k r) (freq : Word) :
    FpgaInv ⟨true, freq, f.phase⟩ k r :=
  { hr with boundIfPowered := fun _ => rfl }

/-- R121 releases CRESET and runs the clock. -/
theorem fpgaInv_start {f : FpgaRegs} {k : ClkRegs} {r : Pins} (hr : FpgaInv f k r) (freq freq' : Word) (vs : List Bool)
    {p : Phase} (hp : p = .clocking ∨ p = .configured) :
    FpgaInv ⟨true, freq', p⟩ (replayClk (startEvents freq vs) k) (replayPins (startEvents freq vs) r) := by
  have hpins (q : Pin) : (replayPins (startEvents freq vs) r).get q =
      if q = .clock then ⟨(r.get .clock).dir, .u⟩ else if q = .creset then ⟨(r.get .creset).dir, .one⟩
      else r.get q := by
    simp [startEvents, pinsAfter, Level.ofBit]
  have hclk : replayClk (startEvents freq vs) k = ⟨true, some freq⟩ := replayClk_samples .cdone vs _
  have hdir := hr.cresetOutput
  have hclock := hr.clockPin
  have hcdone := hr.cdonePin
  obtain rfl | rfl := hp
  all_goals constructor <;> simp [hpins, hclk, hdir, hclock, hcdone]

/-- R124 halts the clock and holds the FPGA in reset. -/
theorem fpgaInv_stop {f : FpgaRegs} {k : ClkRegs} {r : Pins} (hr : FpgaInv f k r) (freq : Word) :
    FpgaInv ⟨true, freq, .resetHeld⟩ (replayClk stopEvents k) (replayPins stopEvents r) := by
  have hpins (q : Pin) : (replayPins stopEvents r).get q =
      if q = .creset then ⟨(r.get .creset).dir, .zero⟩ else if q = .clock then ⟨(r.get .clock).dir, .u⟩
      else r.get q := by
    simp [stopEvents, pinsAfter, Level.ofBit]
  have hclk : replayClk stopEvents k = ⟨false, k.freqKhz⟩ := rfl
  have hdir := hr.cresetOutput
  have hclock := hr.clockPin
  have hcdone := hr.cdonePin
  constructor <;> simp [hpins, hclk, hdir, hclock, hcdone]

theorem own_start (freq : Word) (vs : List Bool) : ∀ e ∈ startEvents freq vs, eventPin e ∈ fpgaPins := by
  have hsmp : ∀ e ∈ vs.map (Event.smp .cdone), eventPin e ∈ fpgaPins :=
    List.forall_mem_map.mpr fun _ _ => List.mem_cons_self
  exact List.forall_mem_cons.mpr ⟨by simp [eventPin, fpgaPins],
    List.forall_mem_cons.mpr ⟨by simp [eventPin, fpgaPins], hsmp⟩⟩

theorem own_stop : ∀ e ∈ stopEvents, eventPin e ∈ fpgaPins := by decide

/-! ### The groups of instructions -/

theorem ownPins_cases (i : Instr) : ownPins i = fpgaPins ∨ ownPins i = cramPins ∨ ownPins i = flashPins := by
  cases i <;> simp [ownPins]

/-- The three groups of pins have none in common (R14, R108). -/
theorem groups_disjoint (p : Pin) :
    (p ∈ fpgaPins → p ∉ cramPins ∧ p ∉ flashPins) ∧ (p ∈ cramPins → p ∉ flashPins) := by
  cases p <;> decide

/-- A pin of an instruction's group is in no other group. -/
theorem not_mem_of_ownPins_ne {i : Instr} {p : Pin} (hp : p ∈ ownPins i) :
    (ownPins i ≠ fpgaPins → p ∉ fpgaPins) ∧ (ownPins i ≠ cramPins → p ∉ cramPins) ∧
      (ownPins i ≠ flashPins → p ∉ flashPins) := by
  have := groups_disjoint p
  obtain h | h | h := ownPins_cases i
  all_goals
    rw [h] at hp ⊢
    tauto

section
variable {s : State} {i : Instr} {es : List Event} {k : Code} {f : FpgaRegs} {c : CramRegs} {l : FlashRegs}

/-- Every event of a command is on a pin of its own group (R219). -/
theorem ran_own (h : Ran s i es k f c l) : ∀ e ∈ es, eventPin e ∈ ownPins i := by
  cases h with
  | rejected | fpgaInit | cramCloseIdle | flashConfig => simp
  | fpgaStart => exact own_start _ _
  | fpgaStop => exact own_stop
  | fpgaReset => exact List.forall_mem_append.mpr ⟨own_stop, own_start _ _⟩
  | cramOpen => exact own_open _
  | cramWrite => exact (rests_cramBytes s.cfg _).own
  | cramClose => exact own_close _
  | cramLoad =>
    exact List.forall_mem_append.mpr
      ⟨List.forall_mem_append.mpr ⟨own_open _, (rests_cramBytes s.cfg _).own⟩, own_close _⟩
  | flashInit => exact own_init _
  | flashEraseSector => exact (rests_eraseEvents ..).own
  | flashProgramPage => exact (rests_programEvents ..).own
  | flashDeinit => exact own_deinit
  | flashWrite => exact own_bracket (rests_append (rests_erasePassEvents ..) (rests_programPassEvents ..))
  | flashErase => exact own_bracket (rests_erasePassEvents ..)

/-- A command writes no register of another group (R11 to R13). -/
theorem ran_foreign (h : Ran s i es k f c l) :
    (ownPins i ≠ fpgaPins → f = s.fpga) ∧ (ownPins i ≠ cramPins → c = s.cram) ∧ (ownPins i ≠ flashPins → l = s.flash) := by
  cases h with
  | rejected | cramCloseIdle | flashEraseSector | flashProgramPage =>
    exact ⟨fun _ => rfl, fun _ => rfl, fun _ => rfl⟩
  | fpgaInit | fpgaStart | fpgaStop | fpgaReset => exact ⟨fun h => absurd rfl h, fun _ => rfl, fun _ => rfl⟩
  | cramOpen | cramWrite | cramClose | cramLoad => exact ⟨fun _ => rfl, fun h => absurd rfl h, fun _ => rfl⟩
  | flashConfig | flashInit | flashDeinit | flashWrite | flashErase =>
    exact ⟨fun _ => rfl, fun _ => rfl, fun h => absurd rfl h⟩

/-! ### Every command keeps the three parts -/

theorem polled_phase {c : Config} {vs : List Bool} {k : Code} {p : Phase} (h : polled c vs k p) :
    p = .clocking ∨ p = .configured := by
  obtain ⟨-, -, h⟩ | ⟨-, -, h⟩ := h
  · exact .inr h
  · exact .inl h

theorem ran_fpgaInv (h : Ran s i es k f c l) (hs : FpgaInv s.fpga s.clk s.pins) :
    FpgaInv f (replayClk es s.clk) (replayPins es s.pins) := by
  by_cases hi : ownPins i = fpgaPins
  · cases h with
    | rejected => exact hs
    | fpgaInit freq => exact fpgaInv_bind hs freq
    | fpgaStart hb hd => exact fpgaInv_start hs _ _ _ (polled_phase hd)
    | fpgaStop => exact fpgaInv_stop hs _
    | fpgaReset hb hd =>
      rw [replayClk_append, replayPins_append]
      exact fpgaInv_start (fpgaInv_stop hs s.fpga.freqKhz) _ _ _ (polled_phase hd)
    | _ => cases hi
  · rw [(ran_foreign h).1 hi]
    exact fpgaInv_off (fun e he => (not_mem_of_ownPins_ne (ran_own h e he)).1 hi) hs

theorem ran_cramInv (h : Ran s i es k f c l) (hs : CramInv s.cfg s.cram.isOpen s.pins) :
    CramInv s.cfg c.isOpen (replayPins es s.pins) := by
  by_cases hi : ownPins i = cramPins
  · cases h with
    | rejected | cramCloseIdle => exact hs
    | cramOpen => exact cramInv_open _ _
    | cramWrite ho => exact cramInv_of_rests (rests_cramBytes _ _) (ho ▸ hs)
    | cramClose => exact cramInv_close hs
    | cramLoad =>
      rw [replayPins_append, replayPins_append]
      exact cramInv_close (cramInv_of_rests (rests_cramBytes _ _) (cramInv_open _ _))
    | _ => cases hi
  · rw [(ran_foreign h).2.1 hi]
    exact cramInv_off (fun e he => (not_mem_of_ownPins_ne (ran_own h e he)).2.1 hi) hs

theorem ran_flashInv (h : Ran s i es k f c l) (hs : FlashInv s.cfg s.flash.active s.pins) :
    FlashInv s.cfg l.active (replayPins es s.pins) := by
  by_cases hi : ownPins i = flashPins
  · cases h with
    | rejected | flashConfig => exact hs
    | flashInit => exact flashInv_init hs
    | flashEraseSector => exact flashInv_of_rests (rests_eraseEvents ..) hs
    | flashProgramPage => exact flashInv_of_rests (rests_programEvents ..) hs
    | flashDeinit => exact flashInv_deinit hs
    | flashWrite => exact flashInv_bracket (rests_append (rests_erasePassEvents ..) (rests_programPassEvents ..)) hs
    | flashErase => exact flashInv_bracket (rests_erasePassEvents ..) hs
    | _ => cases hi
  · rw [(ran_foreign h).2.2 hi]
    exact flashInv_off (fun e he => (not_mem_of_ownPins_ne (ran_own h e he)).2.2 hi) hs

/-- A device once bound stays bound, and a session opens only on a bound one (R20). -/
theorem ran_boundIfOpen (h : Ran s i es k f c l) (hs : s.cram.isOpen = true → s.fpga.bound = true) :
    c.isOpen = true → f.bound = true := by
  cases h with
  | fpgaInit | fpgaStart | fpgaStop | fpgaReset => exact fun _ => rfl
  | cramOpen hb => exact fun _ => hb
  | cramWrite ho => exact fun _ => hs ho
  | cramClose | cramLoad => exact nofun
  | _ => exact hs

end

end Sys2Proof.Laws
end

section
/-! SUPPORT. The reference flash between instructions (R55; log 11, 15): its memory stays canonical, and no frame is left
half heard. -/

namespace Sys2Proof.Laws

open Sys2Proof.Machine Sys2Proof.Safety

/-! ### Operations of the FPGA and of the CRAM bus -/

theorem drive_flash {p : Pin} (hp : p ≠ .fCs) (v : Bool) (s : State) : (s.drive p v).world.flash = s.world.flash := by
  rw [State.drive_world]
  cases p with
  | fCs => exact absurd rfl hp
  | creset => cases v <;> rfl
  | cCs =>
    simp only [World.onDrive]
    split <;> rfl
  | _ => rfl

theorem sampleCdone_flash (s : State) : s.sampleCdone.2.world.flash = s.world.flash := by
  simp only [State.sampleCdone, World.nextCdone]
  split
  · rfl
  · split <;> rfl

theorem pollCdone_flash (n k : Nat) (s : State) : (pollCdone n k s).2.world.flash = s.world.flash := by
  induction n generalizing k s with
  | zero => rfl
  | succ n ih =>
    simp only [pollCdone]
    split
    · exact sampleCdone_flash _
    · exact (ih _ _).trans (sampleCdone_flash _)

theorem startReleased_flash (s : State) : (startReleased s).world.flash = s.world.flash := by
  rw [startReleased, State.setPhase_world, State.clockRun_world, drive_flash (by decide)]

theorem fpgaStart_flash (s : State) : (fpgaStart s).world.flash = s.world.flash := by
  by_cases hb : s.fpga.bound = true
  · rw [fpgaStart_of_bound hb]
    split
    · rw [State.succeed_world, State.setPhase_world, pollCdone_flash, startReleased_flash]
    · rw [State.raise_world, pollCdone_flash, startReleased_flash]
  · rw [fpgaStart, if_neg hb, State.raise_world]

theorem fpgaStop_flash (s : State) : (fpgaStop s).world.flash = s.world.flash := by
  simp only [fpgaStop]
  split
  · split
    · rw [State.raise_world, consult_flash]
    · rw [State.succeed_world, State.setPhase_world, drive_flash (by decide), State.clockHalt_world, consult_flash]
  · rw [State.raise_world]

theorem fpgaReset_flash (s : State) : (fpgaReset s).world.flash = s.world.flash := by
  simp only [fpgaReset]
  split
  · exact (fpgaStart_flash _).trans (fpgaStop_flash s)
  · exact fpgaStop_flash s

theorem cramPinsOut_flash (s : State) : (cramPinsOut s).world.flash = s.world.flash := by
  rw [cramPinsOut, State.setDir_world, drive_flash (by decide), State.setDir_world, drive_flash (by decide),
    State.setDir_world, drive_flash (by decide)]

theorem leadIn_flash (s : State) : (leadIn s).world.flash = s.world.flash := by
  unfold leadIn
  split
  · rfl
  · rw [drive_flash (by decide), pulses_world_other (by decide) (by decide) (by decide), drive_flash (by decide)]

theorem cramOpen_flash (s : State) : (cramOpen s).world.flash = s.world.flash := by
  simp only [cramOpen]
  split
  · split
    · rw [State.raise_world]
    · split
      · rw [State.raise_world, consult_flash]
      · rw [State.succeed_world, State.openSession_world, leadIn_flash, cramPinsOut_flash, consult_flash]
  · rw [State.raise_world]

theorem shiftOutCram_flash (b : Byte) (s : State) : (s.shiftOutCram b).world.flash = s.world.flash := by
  have hbits := shiftOutBits_world (d := .cDo) (c := .cSck) (by decide) (by decide) b 8 s
  simp only [State.shiftOutCram, World.onCramByte, hbits]
  split <;> rfl

theorem cramBytes_flash (n i : Nat) (s : State) : (cramBytes n i s).world.flash = s.world.flash := by
  induction n generalizing i s with
  | zero => rfl
  | succ n ih =>
    simp only [cramBytes]
    split
    · rw [State.raise_world, consult_flash, State.setIdx_world]
    · rw [ih, State.countByte_world, shiftOutCram_flash, consult_flash, State.setIdx_world]

theorem cramWrite_flash (len : Word) (s : State) : (cramWrite len s).world.flash = s.world.flash := by
  unfold cramWrite
  split
  · exact cramBytes_flash _ _ _
  · rfl

theorem trailSeen_flash (s : State) : (trailSeen s).world.flash = s.world.flash := by
  unfold trailSeen
  split <;> rfl

theorem cramClose_flash (s : State) : (cramClose s).world.flash = s.world.flash := by
  simp only [cramClose]
  split
  · rw [State.succeed_world, State.endSession_world, State.setDir_world, State.setDir_world, State.setDir_world,
      trailSeen_flash, pulses_world_other (by decide) (by decide) (by decide), drive_flash (by decide),
      drive_flash (by decide)]
  · rw [State.succeed_world]

theorem cramLoad_flash (len : Word) (s : State) : (cramLoad len s).world.flash = s.world.flash := by
  simp only [cramLoad]
  split
  · exact (cramClose_flash _).trans ((cramWrite_flash _ _).trans (cramOpen_flash s))
  · exact cramOpen_flash s

/-! ### Operations the chip hears -/

/-- The reference flash of a state: it is there as `here` says, its memory is canonical and it is in no frame. -/
def chipResting (here : Bool) (s : State) : Prop :=
  s.world.flash.isSome = here ∧ ∀ f, s.world.flash = some f → f.mem.wf ∧ f.out = []

section
variable {here : Bool} {s t : State}

theorem resting_of_flash (h : t.world.flash = s.world.flash) (hs : chipResting here s) : chipResting here t := by
  unfold chipResting
  rw [h]
  exact hs

/-- A chip rests again after it has acted on a frame, whichever frame it was. -/
theorem resting_acted {sel : Bool} {c : Config} {g : RefFlash → RefFlash}
    (ht : t.world.flash = if sel then s.world.flash.map (fun f => RefFlash.act c (g f)) else s.world.flash)
    (hg : ∀ f, (g f).mem = f.mem) (hs : chipResting here s) : chipResting here t := by
  cases sel
  · exact resting_of_flash ht hs
  · obtain ⟨hhere, hrest⟩ := hs
    refine ⟨by rw [ht, ← hhere]; exact Option.isSome_map, fun f' hf' => ?_⟩
    rw [ht] at hf'
    obtain ⟨f, hf, rfl⟩ := Option.map_eq_some_iff.mp hf'
    obtain ⟨hout, hmem⟩ := act_spec (S := fun _ => True) c (g f) (fun _ _ _ _ => trivial) (fun _ _ _ _ _ => trivial)
    exact ⟨(hmem (by rw [hg]; exact (hrest f hf).1)).1, hout⟩

theorem resting_heard {sel : Bool} {c : Config} {bs : List Byte}
    (ht : t.world = heard sel (fun f => RefFlash.act c { f with out := bs }) s.world) (hs : chipResting here s) :
    chipResting here t :=
  resting_acted (sel := sel) (c := c) (g := fun f => { f with out := bs }) (by rw [ht]; cases sel <;> rfl)
    (fun _ => rfl) hs

theorem resting_wren (hs : chipResting here s) : chipResting here (frameWren s) := resting_heard (frameWren_world s) hs

theorem resting_se (a : Addr) (hs : chipResting here s) : chipResting here (frameSe a s) :=
  resting_heard (frameSe_world a s) hs

theorem resting_pp (a : Addr) (data : List Byte) (hs : chipResting here s) : chipResting here (framePp a data s) :=
  resting_heard (framePp_world a data s) hs

theorem resting_status (hs : chipResting here s) : chipResting here (readStatus s).2 :=
  resting_acted (g := fun f => { f with out := [s.cfg.opRdsr], busy := f.busy - 1 }) (readStatus_flash s)
    (fun _ => rfl) hs

theorem resting_wait (n k : Nat) (hs : chipResting here s) : chipResting here (waitIdle n k s).2 := by
  induction n generalizing k s with
  | zero => exact hs
  | succ n ih =>
    have hread := resting_status (resting_of_flash (t := s.setPoll (k + 1)) rfl hs)
    simp only [waitIdle]
    split
    · exact ih _ hread
    · exact hread

theorem resting_await (hs : chipResting here s) : chipResting here (awaitIdle s) := by
  have hwait := resting_wait s.cfg.wipPollMax 0 hs
  simp only [awaitIdle]
  split <;> exact hwait

theorem resting_erase (a : Addr) (hs : chipResting here s) : chipResting here (eraseSector a s) := by
  unfold eraseSector
  split
  · exact resting_await (resting_se a (resting_wren hs))
  · exact hs

theorem resting_program (a : Addr) (start len : Nat) (hs : chipResting here s) :
    chipResting here (programPage a start len s) := by
  unfold programPage
  split
  · exact resting_await (resting_pp a _ (resting_wren hs))
  · exact hs

theorem resting_erasePass (n k : Nat) (hs : chipResting here s) : chipResting here (erasePass n k s) := by
  induction n generalizing k s with
  | zero => exact hs
  | succ n ih =>
    have hunit := resting_erase (planAddr (sectOff s.cfg k)) (resting_of_flash (t := s.setUnit k) rfl hs)
    simp only [erasePass]
    split
    · exact ih _ hunit
    · exact hunit

theorem resting_programPass (len n p : Nat) (hs : chipResting here s) : chipResting here (programPass len n p s) := by
  induction n generalizing p s with
  | zero => exact hs
  | succ n ih =>
    have hunit := resting_program (planAddr (pageOff s.cfg p)) (pageOff s.cfg p) (pageLen s.cfg len p)
      (resting_of_flash (t := s.setUnit p) rfl hs)
    simp only [programPass]
    split
    · exact ih _ hunit
    · exact hunit

theorem resting_writePasses (len : Nat) (hs : chipResting here s) : chipResting here (writePasses len s) := by
  have herased := resting_erasePass (nsect s.cfg len) 0 hs
  simp only [writePasses]
  split
  · exact resting_programPass _ _ _ herased
  · exact herased

theorem resting_init (freq : Word) (hs : chipResting here s) : chipResting here (flashInit freq s) := by
  have hask := resting_of_flash (consult_flash .flashInit s) hs
  simp only [flashInit]
  split
  · exact hs
  · split
    · exact hask
    · refine resting_of_flash ?_ hask
      rw [State.succeed_world, State.openBracket_world, flashPinsOut_flash fun f hf => (hask.2 f hf).2]

theorem resting_bracket {op : State → State} (hop : ∀ u, chipResting here u → chipResting here (op u))
    (hs : chipResting here s) : chipResting here (flashBracket op s) := by
  have hinit := resting_init s.flash.freqHz hs
  simp only [flashBracket]
  split
  · exact resting_of_flash (congrArg World.flash (flashDeinit_world _)) (hop _ hinit)
  · exact hinit

theorem resting_flashWrite (len : Word) (hs : chipResting here s) : chipResting here (flashWrite len s) := by
  unfold flashWrite
  split
  · exact hs
  · exact resting_bracket (fun _ => resting_writePasses _) hs

theorem resting_flashErase (len : Word) (hs : chipResting here s) : chipResting here (flashErase len s) := by
  unfold flashErase
  split
  · exact hs
  · exact resting_bracket (fun _ => resting_erasePass _ 0) hs

/-- Every instruction that ends leaves the chip at rest. -/
theorem ending_resting (i : Instr) (hs : chipResting here s) : chipResting here (ending i s) := by
  cases i with
  | fpgaInit | flashConfig => exact hs
  | fpgaStart => exact resting_of_flash (fpgaStart_flash s) hs
  | fpgaStop => exact resting_of_flash (fpgaStop_flash s) hs
  | fpgaReset => exact resting_of_flash (fpgaReset_flash s) hs
  | cramOpen => exact resting_of_flash (cramOpen_flash s) hs
  | cramWrite len => exact resting_of_flash (cramWrite_flash len s) hs
  | cramClose => exact resting_of_flash (cramClose_flash s) hs
  | cramLoad len => exact resting_of_flash (cramLoad_flash len s) hs
  | flashInit freq => exact resting_init freq hs
  | flashEraseSector offset => exact resting_erase offset hs
  | flashProgramPage offset len => exact resting_program offset 0 len.toNat hs
  | flashDeinit => exact resting_of_flash (congrArg World.flash (flashDeinit_world s)) hs
  | flashWrite len => exact resting_flashWrite len hs
  | flashErase len => exact resting_flashErase len hs
  | wren => exact resting_wren hs
  | se a => exact resting_se a hs
  | pp a data => exact resting_pp a data hs
  | rdsr => exact resting_status hs

/-- A resting chip that no frame took beyond its size is what `flashCovers` asks for at 0 bytes. -/
theorem covers_zero_of_resting (hs : chipResting here s) (hb : s.beyondChip = false) : flashCovers 0 s = true := by
  obtain ⟨-, hrest⟩ := hs
  unfold State.beyondChip at hb
  unfold flashCovers
  cases hf : s.world.flash with
  | none => rfl
  | some f =>
    rw [hf] at hb
    simp [hb, (hrest f hf).2]

theorem beyondChip_congr (h : t.world.flash = s.world.flash) : t.beyondChip = s.beyondChip := by
  unfold State.beyondChip
  rw [h]

theorem beyondChip_of_absent (hs : chipResting false s) : s.beyondChip = false := by
  have hnone : s.world.flash = none := by simpa using hs.1
  rw [State.beyondChip, hnone]

/-- An instruction that is answered has taken no chip beyond its size (U5): it addresses none, or its answer depends on
that. -/
theorem ending_beyondChip {i : Instr} (h : exec i s = .next t) (hs : chipResting here s) (hb : s.beyondChip = false) :
    (ending i s).beyondChip = false := by
  have hcov := covers_zero_of_resting hs hb
  have checked (hanswer : s.world.flash = none ∨ (ending i s).beyondChip = false) :
      (ending i s).beyondChip = false := by
    obtain hnone | hb' := hanswer
    · obtain rfl : here = false := by simpa [hnone] using hs.1.symm
      exact beyondChip_of_absent (ending_resting i hs)
    · exact hb'
  cases i with
  | fpgaInit | flashConfig => exact hb
  | fpgaStart => exact (beyondChip_congr (fpgaStart_flash s)).trans hb
  | fpgaStop => exact (beyondChip_congr (fpgaStop_flash s)).trans hb
  | fpgaReset => exact (beyondChip_congr (fpgaReset_flash s)).trans hb
  | cramOpen => exact (beyondChip_congr (cramOpen_flash s)).trans hb
  | cramWrite len => exact (beyondChip_congr (cramWrite_flash len s)).trans hb
  | cramClose => exact (beyondChip_congr (cramClose_flash s)).trans hb
  | cramLoad len => exact (beyondChip_congr (cramLoad_flash len s)).trans hb
  | flashInit => exact covers_beyond (covers_init hcov)
  | flashDeinit => exact (beyondChip_congr (congrArg World.flash (flashDeinit_world s))).trans hb
  | flashEraseSector | flashProgramPage | se | pp => exact checked (unlessBeyond_next h).2
  | flashWrite | flashErase => exact checked (unlessBeyond_next (unlessClash_next h)).2
  | wren => exact covers_beyond (covers_wren hcov)
  | rdsr => exact covers_beyond (covers_status hcov)

end

end Sys2Proof.Laws
end

section
/-! SUPPORT. The invariant of R20 put together from its parts, and the table of R16 read off what a command can do. -/

namespace Sys2Proof.Laws

open Sys2Proof.Machine Sys2Proof.Safety

/-! ### The invariant and its parts -/

theorem fpgaInv_of_inv {s : State} (h : Inv s) : FpgaInv s.fpga s.clk s.pins where
  clkRuns := h.clkRuns
  cresetUnpowered := h.cresetUnpowered
  cresetHeld := h.cresetHeld
  cresetReleased := h.cresetReleased
  boundIfPowered := h.boundIfPowered
  cresetOutput := h.outputDirs.2
  clockPin := congrArg₂ PinReg.mk h.outputDirs.1 h.undriven.2.2
  cdonePin := congrArg₂ PinReg.mk h.inputDirs.2 h.undriven.1

theorem cramInv_of_inv {s : State} (h : Inv s) : CramInv s.cfg s.cram.isOpen s.pins :=
  ⟨h.cramDirs, h.cramIdle, h.clocksRestLow.1⟩

theorem flashInv_of_inv {s : State} (h : Inv s) : FlashInv s.cfg s.flash.active s.pins :=
  ⟨h.flashDirs, h.inputDirs.1, h.flashIdle, h.clocksRestLow.2, h.undriven.2.1⟩

theorem resting_of_inv {s : State} (h : Inv s) : chipResting s.world.flash.isSome s :=
  ⟨rfl, fun f hf => ⟨(h.flashReady f hf).1, (h.flashReady f hf).2.1⟩⟩

theorem beyondChip_of_inv {s : State} (h : Inv s) : s.beyondChip = false := by
  unfold State.beyondChip
  cases hf : s.world.flash with
  | none => rfl
  | some f => exact (h.flashReady f hf).2.2

/-- The invariant is that of the three groups of pins, of the host's memories and of the reference flash. -/
theorem inv_of_parts {s : State} {here : Bool} (hfpga : FpgaInv s.fpga s.clk s.pins)
    (hcram : CramInv s.cfg s.cram.isOpen s.pins) (hflash : FlashInv s.cfg s.flash.active s.pins)
    (hbound : s.cram.isOpen = true → s.fpga.bound = true) (hbuf : s.buf.wf) (hport : ∀ r ∈ s.port, r.buf.wf)
    (hrest : chipResting here s) (hbeyond : s.beyondChip = false) : Inv s where
  boundIfOpen := hbound
  cramDirs := hcram.dirs
  flashDirs := hflash.dirs
  inputDirs := ⟨hflash.misoInput, congrArg PinReg.dir hfpga.cdonePin⟩
  outputDirs := ⟨congrArg PinReg.dir hfpga.clockPin, hfpga.cresetOutput⟩
  clkRuns := hfpga.clkRuns
  cresetUnpowered := hfpga.cresetUnpowered
  cresetHeld := hfpga.cresetHeld
  cresetReleased := hfpga.cresetReleased
  cramIdle := hcram.idle
  flashIdle := hflash.idle
  boundIfPowered := hfpga.boundIfPowered
  clocksRestLow := ⟨hcram.restsLow, hflash.restsLow⟩
  undriven := ⟨congrArg PinReg.lvl hfpga.cdonePin, hflash.misoUndriven, congrArg PinReg.lvl hfpga.clockPin⟩
  bufWf := hbuf
  portWf := hport
  flashReady f hf := by
    obtain ⟨hmem, hout⟩ := hrest.2 f hf
    unfold State.beyondChip at hbeyond
    rw [hf] at hbeyond
    exact ⟨hmem, hout, hbeyond⟩

/-! ### Every instruction keeps it -/

theorem exec_resting {i : Instr} {s t : State} (hs : Inv s) (h : exec i s = .next t) :
    chipResting s.world.flash.isSome t ∧ t.beyondChip = false := by
  have hrest := ending_resting i (resting_of_inv hs)
  have hbeyond := ending_beyondChip h (resting_of_inv hs) (beyondChip_of_inv hs)
  cases hi : isCommand i
  · rw [exec_frame_next hi h]
    exact ⟨hrest, hbeyond⟩
  · rw [exec_command_next hi h]
    exact ⟨hrest, hbeyond⟩

theorem exec_command_inv {i : Instr} {s t : State} (hi : isCommand i = true) (hs : Inv s) (h : exec i s = .next t) :
    Inv t := by
  obtain ⟨es, k, f, c, l, hran, he⟩ := exec_ran hi h
  obtain ⟨hrest, hbeyond⟩ := exec_resting hs h
  refine inv_of_parts ?_ ?_ ?_ ?_ ?_ ?_ hrest hbeyond
  · rw [he.fpga, he.clk, he.pins]
    exact ran_fpgaInv hran (fpgaInv_of_inv hs)
  · rw [he.cfg, he.cram, he.pins]
    exact ran_cramInv hran (cramInv_of_inv hs)
  · rw [he.cfg, he.flash, he.pins]
    exact ran_flashInv hran (flashInv_of_inv hs)
  · rw [he.cram, he.fpga]
    exact ran_boundIfOpen hran hs.boundIfOpen
  · rw [he.buf]
    exact hs.bufWf
  · rw [he.port]
    exact hs.portWf

/-- A frame on its own moves the flash bus and brings it back to rest, in a bracket and outside one. -/
theorem exec_frame_inv {i : Instr} {s t : State} (hi : isCommand i = false) (hs : Inv s) (h : exec i s = .next t) :
    Inv t := by
  obtain ⟨es, hframed, he⟩ := exec_framed hi h
  obtain ⟨hrest, hbeyond⟩ := exec_resting hs h
  have hbus := rests_framed hframed
  have hoff : ∀ e ∈ es, eventPin e ∉ fpgaPins ∧ eventPin e ∉ cramPins := fun e hmem =>
    ⟨fun hp => ((groups_disjoint _).1 hp).2 (hbus.own e hmem), fun hp => (groups_disjoint _).2 hp (hbus.own e hmem)⟩
  refine inv_of_parts ?_ ?_ ?_ ?_ ?_ ?_ hrest hbeyond
  · rw [he.fpga, he.clk, he.pins]
    exact fpgaInv_off (fun e hmem => (hoff e hmem).1) (fpgaInv_of_inv hs)
  · rw [he.cfg, he.cram, he.pins]
    exact cramInv_off (fun e hmem => (hoff e hmem).2) (cramInv_of_inv hs)
  · rw [he.cfg, he.flash, he.pins]
    exact flashInv_of_rests hbus (flashInv_of_inv hs)
  · rw [he.cram, he.fpga]
    exact hs.boundIfOpen
  · rw [he.buf]
    exact hs.bufWf
  · rw [he.port]
    exact hs.portWf

theorem exec_inv {i : Instr} {s t : State} (hs : Inv s) (h : exec i s = .next t) : Inv t := by
  cases hi : isCommand i
  · exact exec_frame_inv hi hs h
  · exact exec_command_inv hi hs h

theorem inv_accept {s : State} {r : Request} {rest : List Request} (h : Inv s) (hp : s.port = r :: rest) :
    Inv (s.accept r rest) := by
  have hport := h.portWf
  rw [hp] at hport
  exact { h with
    bufWf := hport r List.mem_cons_self
    portWf := fun q hq => hport q (List.mem_cons_of_mem r hq) }

theorem inv_raise {s : State} (h : Inv s) (k : Code) : Inv (s.raise k) := { h with }

/-- What a step that is answered can be: nothing, an instruction on the accepted request, or an illegal word. -/
theorem step_next {s t : State} (h : step s = .next t) :
    (s.port = [] ∧ t = s) ∨
      ∃ r rest, s.port = r :: rest ∧
        ((∃ i, decode s.cfg r.words = .ok i ∧ exec i (s.accept r rest) = .next t) ∨
          t = (s.accept r rest).raise .illegal) := by
  unfold step at h
  split at h
  · exact .inl ⟨‹_›, (Host.Outcome.next.inj h).symm⟩
  · rename_i r rest hp
    refine .inr ⟨r, rest, hp, ?_⟩
    split at h
    · exact .inl ⟨_, ‹_›, h⟩
    · unfold State.rejected at h
      split at h
      · exact .inr (Host.Outcome.next.inj h).symm
      · cases h

/-! ### The codes and the table of R16 -/

theorem byte_eq_iff {a b : Code} : a.byte = b.byte ↔ a = b := ⟨byte_injective, congrArg Code.byte⟩

theorem code_of_passEnded {c : Config} {n : Nat} {sts : List (List Byte)} {k : Code} (h : passEnded c n sts k.byte) :
    k = .ok ∨ k = .wipTimeout := by
  obtain ⟨j, hj, hcode⟩ := passEnded_code h
  rw [byte_injective hj]
  exact hcode

theorem code_of_writeEnded {c : Config} {n p : Nat} {sts pgs : List (List Byte)} {k : Code}
    (h : writeEnded c n p sts pgs k) : k = .ok ∨ k = .wipTimeout := by
  obtain ⟨-, h⟩ | ⟨-, -, h⟩ := h
  · exact code_of_passEnded h
  · exact .inr h

/-- The table's row of a frame, after which the triple is as before. -/
theorem framed_afterTable {c : Config} {i : Instr} {es : List Event} {s t : State} (hw : Framed c i es)
    (he : Emits es s t) : afterTable i s t := by
  have triple : t.fpga.phase = s.fpga.phase ∧ t.cram.isOpen = s.cram.isOpen ∧ t.flash.active = s.flash.active :=
    ⟨by rw [he.fpga], by rw [he.cram], by rw [he.flash]⟩
  cases hw with
  | _ => exact triple

section
variable {i : Instr} {k : Code} {s t : State}

/-- The table's row of a rejected command: its code is none by which the table moves the triple. -/
theorem rejected_afterTable (hp : k ∈ possibleCodes i) (hr : k ∈ rejections) (hres : t.res = k.byte)
    (hfpga : t.fpga = s.fpga) (hcram : t.cram = s.cram) (hflash : t.flash = s.flash) : afterTable i s t := by
  obtain ⟨hok, hcdone, hwip, hstream⟩ := rejection_ne hr
  cases i with
  | cramClose | flashDeinit => exact absurd (by simpa [possibleCodes] using hp) hok
  | _ =>
    show _ ∧ _ ∧ _
    simp only [hres, hfpga, hcram, hflash, byte_eq_iff, hok, hcdone, hwip, hstream, or_self, if_false, and_self]

/-- The table's row of a command, by the ways it can end: each writes the triple as the table says for its code. -/
theorem ran_afterTable {es : List Event} {f : FpgaRegs} {c : CramRegs} {l : FlashRegs} (h : Ran s i es k f c l)
    (hres : t.res = k.byte) (hfpga : t.fpga = f) (hcram : t.cram = c) (hflash : t.flash = l) : afterTable i s t := by
  cases h with
  | rejected hp hr => exact rejected_afterTable hp hr hres hfpga hcram hflash
  | fpgaStart hb hd | fpgaReset hb hd =>
    show _ ∧ _ ∧ _
    obtain ⟨-, rfl, rfl⟩ | ⟨-, rfl, rfl⟩ := hd
    all_goals simp [hres, hfpga, hcram, hflash, byte_eq_iff]
  | fpgaStop | cramOpen | flashInit =>
    show _ ∧ _ ∧ _
    simp [hres, hfpga, hcram, hflash]
  | cramLoad hb ho hd =>
    show _ ∧ _ ∧ _
    obtain ⟨-, rfl⟩ | ⟨-, rfl⟩ := hd
    all_goals simp [hres, hfpga, hcram, hflash]
  | flashWrite hd =>
    show _ ∧ _ ∧ _
    simp [hres, hfpga, hcram, hflash, byte_eq_iff, code_of_writeEnded hd]
  | flashErase hd =>
    show _ ∧ _ ∧ _
    simp [hres, hfpga, hcram, hflash, byte_eq_iff, code_of_passEnded hd]
  | cramWrite ho | cramCloseIdle ho =>
    show _ ∧ _ ∧ _
    simp [hfpga, hcram, hflash, ho]
  | fpgaInit | cramClose | flashConfig | flashEraseSector | flashProgramPage | flashDeinit =>
    exact ⟨by rw [hfpga], by rw [hcram], by rw [hflash]⟩

end

end Sys2Proof.Laws
end

section
/-! PROOFS. The statements of spec/10_state.md. -/

namespace Sys2Proof.Proofs

open Sys2Proof.Machine Sys2Proof.Safety Sys2Proof.Laws

/-- Settles O8: the reset sets every register by itself. -/
theorem resetRegisterValues : Obligations.ResetRegisterValues := fun c => afterReset_resetIn c World.free

/-- Settles O11: after reset no memory lists a byte, nothing waits at the port and no chip stands around the block. -/
theorem invariantHoldsAtReset : Obligations.InvariantHoldsAtReset := fun c =>
  inv_resetIn_with (c := c) (w := World.free) (port := []) (buf := []) ⟨.nil, by simp⟩ (by simp)
    (by simp [World.free])

/-- Settles O12: an accepted request leaves the registers as they were, every instruction keeps the invariant, and an
illegal word writes the result register only. -/
theorem invariantKeptByEveryStep : Obligations.InvariantKeptByEveryStep := by
  intro s t hs h
  obtain ⟨-, rfl⟩ | ⟨r, rest, hp, hnext⟩ := step_next h
  · exact hs
  · have hacc := inv_accept hs hp
    obtain ⟨i, -, hexec⟩ | rfl := hnext
    · exact exec_inv hacc hexec
    · exact inv_raise hacc _

/-- Settles O17: a command ends as `Ended` says, and a frame emits its events and does no more. -/
theorem inputsAndTransientsAfterAnInstruction : Obligations.InputsAndTransientsAfterAnInstruction := by
  intro i s t h
  cases hi : isCommand i
  · obtain ⟨es, -, he⟩ := exec_framed hi h
    exact ⟨he.cfg, he.buf, he.port, nofun, fun _ => he.res⟩
  · obtain ⟨es, k, f, c, l, -, he⟩ := exec_ran hi h
    exact ⟨he.cfg, he.buf, he.port, fun _ => he.tmp, nofun⟩

/-- Settles O20, row by row of what a frame or a command can do. -/
theorem phaseTripleFollowsTheTable : Obligations.PhaseTripleFollowsTheTable := by
  intro i s t h
  cases hi : isCommand i
  · obtain ⟨es, hframed, he⟩ := exec_framed hi h
    exact framed_afterTable hframed he
  · obtain ⟨es, k, f, c, l, hran, he⟩ := exec_ran hi h
    exact ran_afterTable hran he.res he.fpga he.cram he.flash

end Sys2Proof.Proofs
end

section
/-! SUPPORT. Canonical memories are determined by what they read as (log 10). -/

namespace Sys2Proof.Machine.Memory

theorem read_cons (c : Host.Cell) (m : Memory) (a : Nat) : read (c :: m) a = if a = c.1 then c.2 else read m a := rfl

@[simp] theorem read_head (c : Host.Cell) (m : Memory) : read (c :: m) c.1 = c.2 := by simp [read_cons]

/-- A canonical list is an address below all others with a byte that is not blank, and a canonical rest. -/
theorem wf_cons {c : Host.Cell} {m : Memory} : wf (c :: m) ↔ (∀ d ∈ m, c.1 < d.1) ∧ c.2 ≠ blank ∧ m.wf := by
  simp only [wf, List.pairwise_cons, List.forall_mem_cons]
  tauto

/-- No address below the first listed one reads other than blank. -/
theorem head_le_of_read_ne {c : Host.Cell} {m : Memory} {a : Nat} (h : wf (c :: m)) (ha : read (c :: m) a ≠ blank) :
    c.1 ≤ a := by
  obtain ⟨hlt, -, -⟩ := wf_cons.mp h
  by_contra hac
  exact ha (read_of_lt (List.forall_mem_cons.mpr ⟨by omega, fun d hd => by have := hlt d hd; omega⟩))

/-- Where two lists begin with the same cell, below all others, and read alike, their rests read alike. -/
theorem read_tail_eq {c : Host.Cell} {m n : Memory} (hm : ∀ d ∈ m, c.1 < d.1) (hn : ∀ d ∈ n, c.1 < d.1)
    (h : ∀ a, read (c :: m) a = read (c :: n) a) (a : Nat) : m.read a = n.read a := by
  by_cases ha : a = c.1
  · rw [ha, read_of_lt hm, read_of_lt hn]
  · simpa [read_cons, ha] using h a

/-- Canonical memories that read alike everywhere are equal: the first listed address is the least that does not read
blank. -/
theorem eq_of_read_eq {m n : Memory} (hm : m.wf) (hn : n.wf) (h : ∀ a, m.read a = n.read a) : m = n := by
  induction m generalizing n with
  | nil =>
    cases n with
    | nil => rfl
    | cons d n => exact absurd (by rw [← read_head d n, ← h, read_nil]) (wf_cons.mp hn).2.1
  | cons c m ih =>
    cases n with
    | nil => exact absurd (by rw [← read_head c m, h, read_nil]) (wf_cons.mp hm).2.1
    | cons d n =>
      obtain ⟨hcm, hc, hm'⟩ := wf_cons.mp hm
      obtain ⟨hdn, hd, hn'⟩ := wf_cons.mp hn
      have hle : d.1 ≤ c.1 := head_le_of_read_ne hn (by rw [← h, read_head]; exact hc)
      have hge : c.1 ≤ d.1 := head_le_of_read_ne hm (by rw [h, read_head]; exact hd)
      have haddr : c.1 = d.1 := Nat.le_antisymm hge hle
      have hbyte : c.2 = d.2 := by rw [← read_head c m, h, haddr, read_head]
      obtain rfl : c = d := Prod.ext haddr hbyte
      rw [ih hm' hn' (read_tail_eq hcm hdn h)]

end Sys2Proof.Machine.Memory
end

section
/-! SUPPORT. What an erase and a program leave in an idle reference flash (R56 to R59), and when they take it beyond its
size (U5). -/

namespace Sys2Proof.Laws

open Sys2Proof.Machine Sys2Proof.Safety

/-! ### The chip's own acts -/

@[simp] theorem drawBusy_wel (f : RefFlash) : f.drawBusy.wel = f.wel := by
  unfold RefFlash.drawBusy
  split <;> rfl

theorem erase_beyond {c : Config} {f : RefFlash} {a : Addr} (h : f.size.val ≤ a.toNat) :
    f.erase c a = { f with beyond := true } := if_pos h

theorem program_beyond {c : Config} {f : RefFlash} {a : Addr} {data : List Byte} (h : f.size.val ≤ a.toNat) :
    f.program c a data = { f with beyond := true } := if_pos h

theorem erase_enabled {c : Config} {f : RefFlash} {a : Addr} (h : a.toNat < f.size.val) (hw : f.wel = true) :
    f.erase c a =
      RefFlash.drawBusy { f with mem := f.mem.eraseRange (eraseBase c a) c.sectorSize, wel := false } := by
  rw [RefFlash.erase, if_neg (by omega), if_pos hw]

theorem program_enabled {c : Config} {f : RefFlash} {a : Addr} {data : List Byte} (h : a.toNat < f.size.val)
    (hw : f.wel = true) (hd : data ≠ []) :
    f.program c a data = RefFlash.drawBusy { f with mem := programBytes c a data 0 f.mem, wel := false } := by
  rw [RefFlash.program, if_neg (by omega), if_pos (by simp [hw, hd])]

/-- The data bytes of one page have targets of their own (R58). -/
theorem programTarget_inj {c : Config} {a : Addr} {i j : Nat} (hi : i < c.pageSize) (hj : j < c.pageSize)
    (h : programTarget c a i = programTarget c a j) : i = j := by
  have hmod : (a.toNat + i) ≡ (a.toNat + j) [MOD c.pageSize] := Nat.add_left_cancel h
  exact (Nat.ModEq.add_left_cancel' _ hmod).eq_of_lt_of_lt hi hj

/-- R58: each byte of at most a page of data is anded into its own target, whatever the bytes after it do. -/
theorem read_programBytes (c : Config) (a : Addr) (data : List Byte) (i : Nat) {m : Memory} (h : m.wf)
    (hpage : i + data.length ≤ c.pageSize) {n : Nat} (hn : n < data.length) :
    (programBytes c a data i m).read (programTarget c a (i + n)) =
      m.read (programTarget c a (i + n)) &&& data[n] := by
  induction data generalizing i m n with
  | nil => cases hn
  | cons d data ih =>
    have hw := Memory.write_wf h (programTarget c a i) (m.read (programTarget c a i) &&& d)
    simp only [List.length_cons] at hpage hn
    have apart {j : Nat} (hj : i < j) (hj' : j < c.pageSize) : programTarget c a j ≠ programTarget c a i :=
      fun he => absurd (programTarget_inj hj' (by omega) he) (by omega)
    rw [programBytes]
    cases n with
    | zero =>
      have hlater := (programBytes_spec c a data (i + 1) hw).2 (programTarget c a i) fun j hj hj' =>
        (apart (by omega) (by omega)).symm
      exact hlater.trans (by rw [Memory.read_write h.1, if_pos rfl]; rfl)
    | succ n =>
      have hnext := ih (i + 1) hw (by omega) (n := n) (by omega)
      rw [show i + 1 + n = i + (n + 1) by omega] at hnext
      rw [hnext, Memory.read_write h.1, if_neg (apart (by omega) (by omega))]
      rfl

/-! ### The commands on an idle chip in an open bracket -/

/-- In `s` a bracket is open on the reference flash `f`, which is idle and in no frame. -/
structure HearsIdle (s : State) (f : RefFlash) : Prop where
  distinct : s.cfg.framesDistinct = true
  active : s.flash.active = true
  selected : s.flashSelected = true
  here : s.world.flash = some f
  silent : f.out = []
  idle : f.busy = 0

theorem hearsIdle_of_inv {s : State} {f : RefFlash} (hs : Inv s) (hd : s.cfg.framesDistinct = true)
    (ha : s.flash.active = true) (hf : s.world.flash = some f) (hb : f.busy = 0) : HearsIdle s f where
  distinct := hd
  active := ha
  selected := by
    rw [State.flashSelected, hs.flashDirs .fCs List.mem_cons_self, ha]
    rfl
  here := hf
  silent := (hs.flashReady f hf).2.1
  idle := hb

section
variable {s : State} {f : RefFlash}

/-- WREN in an open bracket leaves an idle chip with its latch set (R56). -/
theorem frameWren_hearsIdle (h : HearsIdle s f) : HearsIdle (frameWren s) { f with wel := true } where
  distinct := by
    rw [(frameWren_emits s).cfg]
    exact h.distinct
  active := by
    rw [(frameWren_emits s).flash]
    exact h.active
  selected := by
    rw [(frameWren_emits s).flashSelected (rests_frameEvents _ _).noDir]
    exact h.selected
  here := frameWren_chip h.selected h.here h.silent h.idle
  silent := h.silent
  idle := h.idle

/-- The wait after the frame that follows WREN touches the busy count alone, and after `OK` it is 0 (R166). -/
theorem awaitIdle_after_frame {c : Config} {bytes : List Byte} {t : State} {g : RefFlash} (h : HearsIdle s f)
    (ht : Emits (frameEvents c bytes) (frameWren s) t) (hg : t.world.flash = some g) (ho : g.out = []) :
    ∃ b, (awaitIdle t).world.flash = some { g with busy := b } ∧ ((awaitIdle t).res = Code.ok.byte → b = 0) := by
  have hw := frameWren_hearsIdle h
  refine awaitIdle_chip ?_ ?_ hg ho
  · rw [ht.cfg]
    exact hw.distinct
  · rw [ht.flashSelected (rests_frameEvents _ _).noDir]
    exact hw.selected

/-- FLASH_ERASE_SECTOR leaves what SE makes of the write-enabled chip, and after `OK` an idle one (R167). -/
theorem eraseSector_chip (a : Addr) (h : HearsIdle s f) :
    ∃ b, (eraseSector a s).world.flash =
        some { RefFlash.erase s.cfg { f with wel := true } a with busy := b } ∧
      ((eraseSector a s).res = Code.ok.byte → b = 0) := by
  have hw := frameWren_hearsIdle h
  have hout := (erase_spec s.cfg { f with wel := true } a).1.trans h.silent
  have hchip : (frameSe a (frameWren s)).world.flash = some (RefFlash.erase s.cfg { f with wel := true } a) := by
    rw [frameSe_chip a hw.selected hw.here hw.idle, (frameWren_emits s).cfg, ← h.silent]
  rw [eraseSector, if_pos h.active]
  exact awaitIdle_after_frame h (frameSe_emits a _) hchip hout

/-- FLASH_PROGRAM_PAGE leaves what PP makes of the write-enabled chip, and after `OK` an idle one (R168). -/
theorem programPage_chip (a : Addr) (start len : Nat) (h : HearsIdle s f) :
    ∃ b, (programPage a start len s).world.flash =
        some { RefFlash.program s.cfg { f with wel := true } a (s.buf.slice start (min len s.cfg.pageSize)) with
          busy := b } ∧
      ((programPage a start len s).res = Code.ok.byte → b = 0) := by
  have hw := frameWren_hearsIdle h
  have hcfg := (frameWren_emits s).cfg
  rw [programPage, if_pos h.active]
  have hlen : (s.buf.slice start (min len s.cfg.pageSize)).length ≤ (frameWren s).cfg.pageSize := by simp [hcfg]
  generalize s.buf.slice start (min len s.cfg.pageSize) = data at hlen ⊢
  have hout := (program_spec s.cfg { f with wel := true } a data).1.trans h.silent
  have hchip : (framePp a data (frameWren s)).world.flash =
      some (RefFlash.program s.cfg { f with wel := true } a data) := by
    rw [framePp_chip a hw.distinct hlen hw.selected hw.here hw.idle, hcfg, ← h.silent]
  exact awaitIdle_after_frame h (framePp_emits a data _) hchip hout

/-- A command with a reference flash around it is refused when it ends with the chip beyond its size (U5). -/
theorem unlessBeyond_refused {t : State} {g : RefFlash} (hf : s.world.flash = some f) (ht : t.world.flash = some g)
    (hg : g.beyond = true) (r : Host.Outcome State Fault Refusal) :
    s.unlessBeyond t r = .refused .flashAddressBeyondChip := by
  simp [State.unlessBeyond, State.beyondChip, hf, ht, hg]

theorem execFlashEraseSector_beyond (a : Addr) (h : HearsIdle s f) (ha : f.size.val ≤ a.toNat) :
    execFlashEraseSector a s = .refused .flashAddressBeyondChip := by
  obtain ⟨b, hchip, -⟩ := eraseSector_chip a h
  rw [erase_beyond (f := { f with wel := true }) ha] at hchip
  exact unlessBeyond_refused h.here hchip rfl _

theorem execFlashProgramPage_beyond (a : Addr) (len : Word) (h : HearsIdle s f) (ha : f.size.val ≤ a.toNat) :
    execFlashProgramPage a len s = .refused .flashAddressBeyondChip := by
  obtain ⟨b, hchip, -⟩ := programPage_chip a 0 len.toNat h
  rw [program_beyond (f := { f with wel := true }) ha] at hchip
  exact unlessBeyond_refused h.here hchip rfl _

/-- FLASH_ERASE_SECTOR at an address the chip has: the sector is blank and every other byte as it was (R57). -/
theorem eraseSector_erases {a : Addr} (h : HearsIdle s f) (ha : a.toNat < f.size.val) :
    ∃ g, (eraseSector a s).world.flash = some g ∧
      (∀ x, inSector s.cfg a x → g.mem.read x = Memory.blank) ∧
      (∀ x, ¬inSector s.cfg a x → g.mem.read x = f.mem.read x) ∧ g.wel = false ∧
      ((eraseSector a s).res = Code.ok.byte → g.busy = 0) := by
  obtain ⟨b, hchip, hb⟩ := eraseSector_chip a h
  rw [erase_enabled (f := { f with wel := true }) ha rfl] at hchip
  have hread := Memory.read_eraseRange f.mem (eraseBase s.cfg a) s.cfg.sectorSize
  refine ⟨_, hchip, fun x hx => ?_, fun x hx => ?_, by simp, hb⟩
  · simpa using (hread x).trans (if_pos hx)
  · simpa using (hread x).trans (if_neg hx)

/-- FLASH_PROGRAM_PAGE of some data at an address the chip has: each byte is anded into its target and every other byte
is as it was (R58). -/
theorem programPage_programs {a : Addr} {start len : Nat} (h : HearsIdle s f) (hm : f.mem.wf)
    (ha : a.toNat < f.size.val) (hlen : 1 ≤ min len s.cfg.pageSize) :
    ∃ g, (programPage a start len s).world.flash = some g ∧
      (∀ n, n < min len s.cfg.pageSize →
        g.mem.read (programTarget s.cfg a n) =
          f.mem.read (programTarget s.cfg a n) &&& s.buf.read (start + n)) ∧
      (∀ x, ¬inProgram s.cfg a (min len s.cfg.pageSize) x → g.mem.read x = f.mem.read x) ∧ g.wel = false ∧
      ((programPage a start len s).res = Code.ok.byte → g.busy = 0) := by
  obtain ⟨b, hchip, hb⟩ := programPage_chip a start len h
  have hlength := Memory.slice_length s.buf start (min len s.cfg.pageSize)
  have hdata : s.buf.slice start (min len s.cfg.pageSize) ≠ [] := by
    intro he
    rw [he] at hlength
    simp only [List.length_nil] at hlength
    omega
  rw [program_enabled (f := { f with wel := true }) ha rfl hdata] at hchip
  refine ⟨_, hchip, fun n hn => ?_, fun x hx => ?_, by simp, hb⟩
  · have hread := read_programBytes s.cfg a (s.buf.slice start (min len s.cfg.pageSize)) 0 hm (by omega) (n := n)
      (by omega)
    rw [Memory.slice_getElem, Nat.zero_add] at hread
    simpa using hread
  · have hkept := (programBytes_spec s.cfg a (s.buf.slice start (min len s.cfg.pageSize)) 0 hm).2 x
      fun j _ hj hxj => hx ⟨j, by omega, hxj⟩
    simpa using hkept

end

end Sys2Proof.Laws
end

section
/-! SUPPORT. The frame of the reference flash's array: what an instruction does not store to, it keeps (R40, R57,
R58). -/

namespace Sys2Proof.Laws

open Sys2Proof.Machine Sys2Proof.Safety

/-- A PP frame decodes to itself or to no frame, whatever its data. -/
theorem decodeFrame_pp_cases {c : Config} (h : c.framesDistinct = true) (a : Addr) (data : List Byte) :
    decodeFrame c (c.opPp :: (addrBytes a ++ data)) = .ok (.pp a data) ∨
      ∃ e, decodeFrame c (c.opPp :: (addrBytes a ++ data)) = .error e := by
  by_cases hd : data.length ≤ c.pageSize
  · exact .inl (decodeFrame_pp h a hd)
  · simp only [Config.framesDistinct, Bool.and_eq_true, decide_eq_true_eq] at h
    exact .inr ⟨_, by simp [decodeFrame, addrBytes, h.2.symm, hd]; rfl⟩

/-- The reference flash of `s` is in no frame, its memory is canonical, its size is that of `f`, and at every address
outside `S` it has the byte that `f` has. -/
def KeptOutside (S : Nat → Prop) (f : RefFlash) (s : State) : Prop :=
  ∃ g, s.world.flash = some g ∧ g.out = [] ∧ g.mem.wf ∧ g.size = f.size ∧ ∀ x, ¬S x → g.mem.read x = f.mem.read x

theorem kept_self {s : State} {f : RefFlash} (S : Nat → Prop) (hs : Inv s) (hf : s.world.flash = some f) :
    KeptOutside S f s := by
  obtain ⟨hmem, hout, -⟩ := hs.flashReady f hf
  exact ⟨f, hf, hout, hmem, rfl, fun _ _ => rfl⟩

section
variable {S : Nat → Prop} {f : RefFlash} {s t : State}

theorem kept_of_flash (h : t.world.flash = s.world.flash) (hs : KeptOutside S f s) : KeptOutside S f t := by
  unfold KeptOutside
  rw [h]
  exact hs

/-- A chip that acts on a frame keeps what the frame does not store to. -/
theorem kept_acted {sel : Bool} {c : Config} {p : RefFlash → RefFlash}
    (ht : t.world.flash = if sel then s.world.flash.map (fun g => RefFlash.act c (p g)) else s.world.flash)
    (hp : ∀ g, (p g).mem = g.mem ∧ (p g).size = g.size)
    (hse : ∀ g a, decodeFrame c (p g).out = .ok (.se a) → ∀ x, inSector c a x → S x)
    (hpp : ∀ g a data, decodeFrame c (p g).out = .ok (.pp a data) → ∀ x, inProgram c a data.length x → S x)
    (hs : KeptOutside S f s) : KeptOutside S f t := by
  cases sel
  · exact kept_of_flash ht hs
  · obtain ⟨g, hg, -, hwf, hsize, hread⟩ := hs
    obtain ⟨hpmem, hpsize⟩ := hp g
    obtain ⟨hout, hact⟩ := act_spec c (p g) (hse g) (hpp g)
    obtain ⟨hwf', hread'⟩ := hact (by rw [hpmem]; exact hwf)
    refine ⟨(p g).act c, by rw [ht, hg]; rfl, hout, hwf', by rw [act_size, hpsize, hsize], fun x hx => ?_⟩
    rw [hread' x hx, hpmem, hread x hx]

theorem kept_heard {sel : Bool} {c : Config} {bs : List Byte}
    (ht : t.world = heard sel (fun g => RefFlash.act c { g with out := bs }) s.world)
    (hse : ∀ a, decodeFrame c bs = .ok (.se a) → ∀ x, inSector c a x → S x)
    (hpp : ∀ a data, decodeFrame c bs = .ok (.pp a data) → ∀ x, inProgram c a data.length x → S x)
    (hs : KeptOutside S f s) : KeptOutside S f t :=
  kept_acted (sel := sel) (c := c) (p := fun g => { g with out := bs }) (by rw [ht]; cases sel <;> rfl)
    (fun _ => ⟨rfl, rfl⟩) (fun _ => hse) (fun _ => hpp) hs

theorem kept_wren (hs : KeptOutside S f s) : KeptOutside S f (frameWren s) :=
  kept_heard (frameWren_world s) (fun a ha => absurd ha ((decodeFrame_single _ _).1 a))
    (fun a data ha => absurd ha ((decodeFrame_single _ _).2 a data)) hs

theorem kept_status (hs : KeptOutside S f s) : KeptOutside S f (readStatus s).2 :=
  kept_acted (p := fun g => { g with out := [s.cfg.opRdsr], busy := g.busy - 1 }) (readStatus_flash s)
    (fun _ => ⟨rfl, rfl⟩) (fun _ a ha => absurd ha ((decodeFrame_single _ _).1 a))
    (fun _ a data ha => absurd ha ((decodeFrame_single _ _).2 a data)) hs

theorem kept_se {a : Addr} (hS : ∀ x, inSector s.cfg a x → S x) (hs : KeptOutside S f s) :
    KeptOutside S f (frameSe a s) := by
  refine kept_heard (frameSe_world a s) (fun b hb => ?_) (fun b data hb => ?_) hs
  · rw [decodeFrame_se] at hb
    cases hb
    exact hS
  · rw [decodeFrame_se] at hb
    cases hb

theorem kept_pp {a : Addr} {data : List Byte} (hd : s.cfg.framesDistinct = true)
    (hS : ∀ x, inProgram s.cfg a data.length x → S x) (hs : KeptOutside S f s) : KeptOutside S f (framePp a data s) := by
  refine kept_heard (framePp_world a data s) (fun b hb => ?_) (fun b rest hb => ?_) hs
  all_goals
    obtain h | ⟨e, h⟩ := decodeFrame_pp_cases hd a data
    all_goals
      rw [h] at hb
      cases hb
  exact hS

theorem kept_wait (n k : Nat) (hs : KeptOutside S f s) : KeptOutside S f (waitIdle n k s).2 := by
  induction n generalizing k s with
  | zero => exact hs
  | succ n ih =>
    have hread := kept_status (kept_of_flash (t := s.setPoll (k + 1)) rfl hs)
    simp only [waitIdle]
    split
    · exact ih _ hread
    · exact hread

theorem kept_await (hs : KeptOutside S f s) : KeptOutside S f (awaitIdle s) := by
  have hwait := kept_wait s.cfg.wipPollMax 0 hs
  simp only [awaitIdle]
  split <;> exact hwait

theorem kept_erase {a : Addr} (hS : ∀ x, inSector s.cfg a x → S x) (hs : KeptOutside S f s) :
    KeptOutside S f (eraseSector a s) := by
  unfold eraseSector
  split
  · exact kept_await (kept_se (by rw [(frameWren_emits s).cfg]; exact hS) (kept_wren hs))
  · exact hs

theorem kept_program {a : Addr} {start len : Nat} (hd : s.cfg.framesDistinct = true)
    (hS : ∀ x, inProgram s.cfg a (min len s.cfg.pageSize) x → S x) (hs : KeptOutside S f s) :
    KeptOutside S f (programPage a start len s) := by
  have hcfg := (frameWren_emits s).cfg
  unfold programPage
  split
  · exact kept_await (kept_pp (by rw [hcfg]; exact hd) (by simpa [hcfg] using hS) (kept_wren hs))
  · exact hs

theorem kept_erasePass (n k : Nat)
    (hS : ∀ j, j < k + n → ∀ x, inSector s.cfg (planAddr (sectOff s.cfg j)) x → S x) (hs : KeptOutside S f s) :
    KeptOutside S f (erasePass n k s) := by
  induction n generalizing k s with
  | zero => exact hs
  | succ n ih =>
    have hunit := kept_erase (s := s.setUnit k) (hS k (by omega)) (kept_of_flash rfl hs)
    have hcfg := eraseSector_cfg (planAddr (sectOff s.cfg k)) (s.setUnit k)
    simp only [erasePass]
    split
    · exact ih _ (by rw [hcfg]; exact fun j hj => hS j (by omega)) hunit
    · exact hunit

theorem kept_programPass (len n p : Nat) (hd : s.cfg.framesDistinct = true)
    (hS : ∀ j, j < p + n → ∀ x, inProgram s.cfg (planAddr (pageOff s.cfg j)) (pageLen s.cfg len j) x → S x)
    (hs : KeptOutside S f s) : KeptOutside S f (programPass len n p s) := by
  induction n generalizing p s with
  | zero => exact hs
  | succ n ih =>
    have hlen : min (pageLen s.cfg len p) s.cfg.pageSize = pageLen s.cfg len p := by simp [pageLen]
    have hunit := kept_program (start := pageOff s.cfg p) (s := s.setUnit p) hd
      (by rw [State.setUnit_cfg, hlen]; exact hS p (by omega)) (kept_of_flash rfl hs)
    have hcfg := programPage_cfg (planAddr (pageOff s.cfg p)) (pageOff s.cfg p) (pageLen s.cfg len p) (s.setUnit p)
    simp only [programPass]
    split
    · refine ih _ ?_ ?_ hunit
      · rw [hcfg]
        exact hd
      · rw [hcfg]
        exact fun j hj => hS j (by omega)
    · exact hunit

theorem kept_writePasses (len : Nat) (hd : s.cfg.framesDistinct = true)
    (herase : ∀ j, j < nsect s.cfg len → ∀ x, inSector s.cfg (planAddr (sectOff s.cfg j)) x → S x)
    (hprogram : ∀ j, j < npage s.cfg len → ∀ x,
      inProgram s.cfg (planAddr (pageOff s.cfg j)) (pageLen s.cfg len j) x → S x)
    (hs : KeptOutside S f s) : KeptOutside S f (writePasses len s) := by
  have herased := kept_erasePass (nsect s.cfg len) 0 (by simpa using herase) hs
  have hcfg := erasePass_cfg (nsect s.cfg len) 0 s
  simp only [writePasses]
  split
  · exact kept_programPass _ _ _ (by rw [hcfg]; exact hd) (by simpa [hcfg] using hprogram) herased
  · exact herased

theorem kept_init (freq : Word) (hs : KeptOutside S f s) : KeptOutside S f (flashInit freq s) := by
  have hask := kept_of_flash (consult_flash .flashInit s) hs
  simp only [flashInit]
  split
  · exact hs
  · split
    · exact hask
    · refine kept_of_flash ?_ hask
      obtain ⟨g, hg, hout, -⟩ := hask
      have hsilent : ∀ g', (s.consult .flashInit).2.world.flash = some g' → g'.out = [] := by
        intro g' hg'
        rw [hg] at hg'
        cases hg'
        exact hout
      rw [State.succeed_world, State.openBracket_world, flashPinsOut_flash hsilent]

theorem flashInit_cfg (freq : Word) (s : State) : (flashInit freq s).cfg = s.cfg := by
  obtain ⟨k, -, h⟩ | ⟨-, -, h⟩ := flashInit_ends freq s
  all_goals exact h.cfg

theorem kept_bracket {op : State → State} (hop : ∀ u, u.cfg = s.cfg → KeptOutside S f u → KeptOutside S f (op u))
    (hs : KeptOutside S f s) : KeptOutside S f (flashBracket op s) := by
  have hinit := kept_init s.flash.freqHz hs
  simp only [flashBracket]
  split
  · exact kept_of_flash (congrArg World.flash (flashDeinit_world _)) (hop _ (flashInit_cfg _ s) hinit)
  · exact hinit

theorem kept_flashErase (len : Word)
    (hS : ∀ j, j < nsect s.cfg len.toNat → ∀ x, inSector s.cfg (planAddr (sectOff s.cfg j)) x → S x)
    (hs : KeptOutside S f s) : KeptOutside S f (flashErase len s) := by
  unfold flashErase
  split
  · exact hs
  · refine kept_bracket (fun u hu hkept => kept_erasePass _ 0 ?_ hkept) hs
    simpa [hu] using hS

theorem kept_flashWrite (len : Word) (hd : s.cfg.framesDistinct = true)
    (herase : ∀ j, j < nsect s.cfg len.toNat → ∀ x, inSector s.cfg (planAddr (sectOff s.cfg j)) x → S x)
    (hprogram : ∀ j, j < npage s.cfg len.toNat → ∀ x,
      inProgram s.cfg (planAddr (pageOff s.cfg j)) (pageLen s.cfg len.toNat j) x → S x)
    (hs : KeptOutside S f s) : KeptOutside S f (flashWrite len s) := by
  unfold flashWrite
  split
  · exact hs
  · refine kept_bracket (fun u hu hkept => kept_writePasses _ ?_ ?_ ?_ hkept) hs
    all_goals
      rw [hu]
      assumption

/-- Every instruction that ends keeps the bytes it does not store to. -/
theorem ending_kept {i : Instr} (hd : s.cfg.framesDistinct = true) (hs : KeptOutside (stores s.cfg i) f s) :
    KeptOutside (stores s.cfg i) f (ending i s) := by
  cases i with
  | fpgaInit | flashConfig => exact hs
  | fpgaStart => exact kept_of_flash (fpgaStart_flash s) hs
  | fpgaStop => exact kept_of_flash (fpgaStop_flash s) hs
  | fpgaReset => exact kept_of_flash (fpgaReset_flash s) hs
  | cramOpen => exact kept_of_flash (cramOpen_flash s) hs
  | cramWrite len => exact kept_of_flash (cramWrite_flash len s) hs
  | cramClose => exact kept_of_flash (cramClose_flash s) hs
  | cramLoad len => exact kept_of_flash (cramLoad_flash len s) hs
  | flashInit freq => exact kept_init freq hs
  | flashEraseSector offset => exact kept_erase (fun _ hx => hx) hs
  | flashProgramPage offset len => exact kept_program hd (fun _ hx => hx) hs
  | flashDeinit => exact kept_of_flash (congrArg World.flash (flashDeinit_world s)) hs
  | flashWrite len =>
    exact kept_flashWrite len hd (fun j hj _ hx => .inl ⟨j, hj, hx⟩) (fun j hj _ hx => .inr ⟨j, hj, hx⟩) hs
  | flashErase len => exact kept_flashErase len (fun j hj _ hx => ⟨j, hj, hx⟩) hs
  | wren => exact kept_wren hs
  | se a => exact kept_se (fun _ hx => hx) hs
  | pp a data => exact kept_pp hd (fun _ hx => hx) hs
  | rdsr => exact kept_status hs

theorem exec_kept {i : Instr} (hd : s.cfg.framesDistinct = true) (hs : KeptOutside (stores s.cfg i) f s)
    (h : exec i s = .next t) : KeptOutside (stores s.cfg i) f t := by
  have hend := ending_kept hd hs
  cases hi : isCommand i
  · rw [exec_frame_next hi h]
    exact hend
  · rw [exec_command_next hi h]
    exact hend

end

end Sys2Proof.Laws
end

section
/-! SUPPORT. The reference FPGA under a CRAM session and the sequencer (R60, R61): what it hears of an open, of the
bytes and of the trailing clocks, and what a start samples. -/

namespace Sys2Proof.Laws

open Sys2Proof.Machine Sys2Proof.Safety

theorem consult_chip (site : FaultSite) (s : State) : (s.consult site).2.world.fpga = s.world.fpga := by
  obtain ⟨q, n, h⟩ := nextFault_world s.cfg site s.world
  rw [State.consult_world, h]

/-- Selecting the FPGA empties its stream, and releasing it changes nothing (R60). -/
theorem drive_cCs_chip (v : Bool) (s : State) :
    (s.drive .cCs v).world.fpga =
      if v = s.cfg.cramCsActive then s.world.fpga.map (fun t => { t with stream := [] }) else s.world.fpga := by
  rw [State.drive_world]
  simp only [World.onDrive]
  split <;> rfl

section
variable {s t : State} {f : RefFpga}

/-- A drive of C_CS finds an empty stream empty again. -/
theorem drive_cCs_empty (v : Bool) (hf : s.world.fpga = some f) (he : f.stream = []) :
    (s.drive .cCs v).world.fpga = some f := by
  rw [drive_cCs_chip, hf]
  split
  · rw [Option.map_some, ← he]
  · rfl

theorem cramPinsOut_chip (hf : s.world.fpga = some f) :
    (cramPinsOut s).world.fpga = some { f with stream := [] } := by
  have hother : ((((s.drive .cSck false).setDir .cSck .output).drive .cDo false).setDir .cDo .output).world =
      s.world := by
    rw [State.setDir_world, drive_world_other (by decide) (by decide) (by decide), State.setDir_world,
      drive_world_other (by decide) (by decide) (by decide)]
  rw [cramPinsOut, State.setDir_world, drive_cCs_chip, hother, hf]
  exact if_pos rfl

/-- The leading clocks leave the stream empty, whatever level of C_CS they run at (R140). -/
theorem leadIn_chip (hf : s.world.fpga = some f) (he : f.stream = []) : (leadIn s).world.fpga = some f := by
  unfold leadIn
  split
  · exact hf
  · refine drive_cCs_empty _ ?_ he
    rw [pulses_world_other (by decide) (by decide) (by decide)]
    exact drive_cCs_empty _ hf he

/-- A CRAM_OPEN that ends with `OK` leaves the FPGA selected with an empty stream. -/
theorem cramOpen_chip (hf : s.world.fpga = some f) (hok : (cramOpen s).res = Code.ok.byte) :
    (cramOpen s).world.fpga = some { f with stream := [] } := by
  obtain ⟨-, h⟩ | ⟨-, -, h⟩ | ⟨-, -, -, h⟩ | ⟨hb, ho, hq, -⟩ := cramOpen_cases s
  case inr.inr.inr =>
    rw [quiet_iff] at hq
    simp only [cramOpen, hb, ho, hq, if_true, if_false, Bool.false_eq_true]
    rw [State.succeed_world, State.openSession_world]
    exact leadIn_chip (cramPinsOut_chip (by rw [consult_chip, hf])) rfl
  all_goals
    rw [h, State.raise_res] at hok
    exact absurd (byte_injective hok) (by decide)

/-- Events off C_CS keep the FPGA selected or not. -/
theorem cramSelected_of_emits {es : List Event} (h : Emits es s t) (hes : ∀ e ∈ es, eventPin e ≠ .cCs) :
    t.cramSelected = s.cramSelected := by
  rw [State.cramSelected, h.pins, h.cfg, replayPins_get_of_forall_ne hes]
  rfl

theorem cramByteEvents_off_cCs (b : Byte) : ∀ e ∈ cramByteEvents b, eventPin e ≠ .cCs := by
  simp [cramByteEvents, byteOutEvents, eventPin]

/-- A selected FPGA appends the byte shifted (R60). -/
theorem shiftOutCram_chip (b : Byte) (hsel : s.cramSelected = true) (hf : s.world.fpga = some f) :
    (s.shiftOutCram b).world.fpga = some { f with stream := f.stream ++ [b] } := by
  have hbits := shiftOutBits_emits .cDo .cSck b 8 s
  have hsel' : (State.shiftOutBits .cDo .cSck b 8 s).cramSelected = true := by
    rw [cramSelected_of_emits hbits (cramByteEvents_off_cCs b), hsel]
  simp only [State.shiftOutCram, World.onCramByte, hsel', if_true]
  rw [shiftOutBits_world (by decide) (by decide), hf]
  rfl

/-- A selected FPGA appends every byte of a CRAM_WRITE that ends with `OK` (R60, R142). -/
theorem cramBytes_chip (n i : Nat) (hsel : s.cramSelected = true) (hf : s.world.fpga = some f)
    (hok : (cramBytes n i s).res = Code.ok.byte) :
    (cramBytes n i s).world.fpga = some { f with stream := f.stream ++ s.buf.slice i n } := by
  induction n generalizing i s f with
  | zero => simpa [cramBytes, Memory.slice] using hf
  | succ n ih =>
    have hask : Emits [] s ((s.setIdx i).consult (.cramWrite i)).2 := (setIdx_emits i s).trans (consult_emits _ _)
    have hchip : ((s.setIdx i).consult (.cramWrite i)).2.world.fpga = some f := by
      rw [consult_chip, State.setIdx_world, hf]
    have hsel' := (cramSelected_of_emits hask (by simp)).trans hsel
    by_cases hfault : ((s.setIdx i).consult (.cramWrite i)).1 = true
    · rw [cramBytes, if_pos hfault, State.raise_res] at hok
      exact absurd (byte_injective hok) (by decide)
    · rw [cramBytes, if_neg hfault] at hok ⊢
      generalize ((s.setIdx i).consult (.cramWrite i)).2 = u at hask hchip hsel' hok ⊢
      have hshift := shiftOutCram_emits (u.buf.read i) u
      have hsel'' := (cramSelected_of_emits hshift (cramByteEvents_off_cCs _)).trans hsel'
      have hchip' := shiftOutCram_chip (u.buf.read i) hsel' hchip
      have hbuf := hshift.buf.trans hask.buf
      rw [hask.buf] at hchip' hok hbuf hsel'' ⊢
      generalize u.shiftOutCram (s.buf.read i) = v at hsel'' hchip' hbuf hok ⊢
      have hrest := ih (i + 1) (s := v.countByte) hsel'' hchip' hok
      rw [State.countByte_buf, hbuf, List.append_assoc] at hrest
      exact hrest

/-- R61: a close with trailing clocks, CRESET released and CLOCK running completes a valid stream. -/
theorem cramClose_chip (ho : s.cram.isOpen = true) (hclocks : 1 ≤ s.cfg.trailClocks)
    (hcreset : s.pins.creset.lvl = .one) (hclk : s.clk.running = true) (hf : s.world.fpga = some f)
    (hvalid : f.valid.holds f.stream = true) : (cramClose s).world.fpga = some { f with done := true } := by
  have he := ((drive_emits .cCs (!s.cfg.cramCsActive) s).trans (drive_emits .cDo false _)).trans
    (pulses_emits .cSck s.cfg.trailClocks _)
  have hw : (((s.drive .cCs (!s.cfg.cramCsActive)).drive .cDo false).pulses .cSck s.cfg.trailClocks).world.fpga =
      some f := by
    rw [pulses_world_other (by decide) (by decide) (by decide),
      drive_world_other (by decide) (by decide) (by decide), drive_cCs_chip, if_neg (not_ne_self _), hf]
  have hpulses : ∀ e ∈ pulseEvents .cSck s.cfg.trailClocks, eventPin e ∈ cramPins :=
    (rests_cramPulses s.cfg s.cfg.trailClocks).own
  have hown : ∀ e ∈ [.drv .cCs (!s.cfg.cramCsActive)] ++ [.drv .cDo false] ++ pulseEvents .cSck s.cfg.trailClocks,
      eventPin e ∈ cramPins :=
    List.forall_mem_append.mpr ⟨by simp [eventPin, cramPins], hpulses⟩
  have hoff {p : Pin} (hp : p ∉ cramPins) : ∀ e ∈ [.drv .cCs (!s.cfg.cramCsActive)] ++ [.drv .cDo false] ++
      pulseEvents .cSck s.cfg.trailClocks, eventPin e ≠ p := fun e hmem hep => hp (hep ▸ hown e hmem)
  simp only [cramClose, ho, if_true, State.succeed_world, State.endSession_world, State.setDir_world]
  generalize ((s.drive .cCs (!s.cfg.cramCsActive)).drive .cDo false).pulses .cSck s.cfg.trailClocks = u at he hw ⊢
  have hcreset' : (u.pins.get .creset).lvl = .one := by
    rw [he.pins, replayPins_get_of_forall_ne (hoff (by decide))]
    exact hcreset
  have hclk' : u.clk.running = true := by
    rw [he.clk, replayClk_of_forall_ne (hoff (by decide)), hclk]
  rw [trailSeen, if_neg (by rw [he.cfg]; omega)]
  simp [World.onLastTrailingClock, hw, hcreset', hclk', hvalid]

/-- R145 with R60, R61: a CRAM_LOAD of a valid stream that ends with `OK` leaves the FPGA done with that stream, where
CRESET is released and CLOCK runs. -/
theorem cramLoad_chip {len : Word} (hs : Inv s) (hf : s.world.fpga = some f)
    (hphase : s.fpga.phase = .clocking ∨ s.fpga.phase = .configured) (hclocks : 1 ≤ s.cfg.trailClocks)
    (hvalid : f.valid.holds (s.buf.slice 0 len.toNat) = true) (hok : (cramLoad len s).res = Code.ok.byte) :
    (cramLoad len s).world.fpga = some ⟨true, s.buf.slice 0 len.toNat, f.valid⟩ := by
  have hload : cramLoad len s =
      if (cramOpen s).succeeded = true then
        (cramClose (cramWrite len (cramOpen s))).withResult (cramWrite len (cramOpen s)).res
      else cramOpen s := rfl
  obtain h | ⟨-, -, h⟩ := cramOpen_ends s
  · have hfail := not_succeeded_of_rejectedTo (by decide) h
    rw [hload, if_neg hfail] at hok
    exact absurd ((succeeded_iff _).mpr hok) hfail
  rw [hload, if_pos ((succeeded_of_code h).mpr rfl), State.withResult_res] at hok
  rw [hload, if_pos ((succeeded_of_code h).mpr rfl), State.withResult_world]
  have hchip := cramOpen_chip hf h.res
  generalize cramOpen s = t at h hok hchip ⊢
  have hpins : t.pins = replayPins (openEvents s.cfg) s.pins := h.pins
  have hcfg : t.cfg = s.cfg := h.cfg
  have hbuf : t.buf = s.buf := h.buf
  have hcram : t.cram = ⟨true, 0⟩ := h.cram
  have ho : t.cram.isOpen = true := by rw [hcram]
  have hsel : t.cramSelected = true := by
    rw [State.cramSelected, hpins, hcfg, ((cramInv_open s.cfg s.pins).idle rfl).1, beq_self_eq_true]
  obtain ⟨n, k, -, hwrite⟩ := cramWrite_ends len ho
  have hboth := ended_trans h hwrite
  have hstream : (cramWrite len t).world.fpga = some { f with stream := s.buf.slice 0 len.toNat } := by
    rw [cramWrite, if_pos ho] at hok ⊢
    rw [cramBytes_chip len.toNat 0 hsel hchip hok, hbuf]
    rfl
  generalize cramWrite len t = u at hboth hstream ⊢
  have hown : ∀ e ∈ openEvents s.cfg ++ (t.buf.slice 0 n).flatMap cramByteEvents, eventPin e ∉ fpgaPins :=
    fun e he hp => ((groups_disjoint _).1 hp).1
      (List.forall_mem_append.mpr ⟨own_open s.cfg, (rests_cramBytes s.cfg _).own⟩ e he)
  have hfpga := fpgaInv_off hown (fpgaInv_of_inv hs)
  rw [← hboth.clk, ← hboth.pins] at hfpga
  exact cramClose_chip (f := { f with stream := s.buf.slice 0 len.toNat }) (by rw [← State.settle_cram, hboth.cram])
    (by rw [← State.settle_cfg, hboth.cfg]; exact hclocks) (hfpga.cresetReleased hphase) (hfpga.clkRuns.mpr hphase)
    hstream hvalid

/-! ### The sequencer -/

/-- A wait whose first sample reads 1 takes that sample alone (R123). -/
theorem pollCdone_first {n : Nat} (k : Nat) (hn : 1 ≤ n) (h : s.world.nextCdone.1 = true) :
    pollCdone n k s = (true, (s.setPoll (k + 1)).sampleCdone.2) := by
  obtain ⟨m, rfl⟩ := Nat.exists_eq_add_of_le' hn
  exact if_pos h

/-- FPGA_START finds a configured FPGA done at the first sample (R121, R122, R60). -/
theorem fpgaStart_done (hb : s.fpga.bound = true) (hmax : 1 ≤ s.cfg.cdonePollMax) (hf : s.world.fpga = some f)
    (hd : f.done = true) :
    Ended s (fpgaStart s).settle (startEvents s.fpga.freqKhz [true]) .ok ⟨true, s.fpga.freqKhz, .configured⟩ s.cram
      s.flash := by
  have hsample : (startReleased s).world.nextCdone.1 = true := by
    rw [show (startReleased s).world = s.world from rfl]
    simp [World.nextCdone, hf, hd]
  rw [fpgaStart_of_bound hb, pollCdone_first 0 hmax hsample, if_pos rfl]
  have hread : ((startReleased s).setPoll 1).sampleCdone.1 = true := hsample
  refine ⟨?_, rfl, rfl, ?_, rfl, rfl, rfl, rfl, rfl, rfl, rfl⟩
  · simpa [startReleased, startEvents] using hread
  · simp [startReleased, hb]

/-- FPGA_STOP holds the FPGA in reset, which clears `T.done` (R60, R124). -/
theorem fpgaStop_chip (hb : s.fpga.bound = true) (hq : quietAt .fpgaStop s = true) (hf : s.world.fpga = some f) :
    (fpgaStop s).world.fpga = some { f with done := false } := by
  rw [quiet_iff] at hq
  have hchip := (consult_chip .fpgaStop s).trans hf
  simp only [fpgaStop, hb, hq, if_true, if_false, Bool.false_eq_true, State.succeed_world, State.setPhase_world,
    State.drive_world, State.clockHalt_world, World.onDrive, hchip, Option.map_some]

end

end Sys2Proof.Laws
end

section
/-! PROOFS. The statements of spec/20_memory.md. -/

namespace Sys2Proof.Proofs

open Sys2Proof.Machine Sys2Proof.Safety Sys2Proof.Laws

/-- Settles O10: the registers are those of every reset, and the environment is the reference one with one draw of
`T.done`. -/
theorem referenceEnvironmentAtReset : Obligations.ReferenceEnvironmentAtReset := by
  refine ⟨rfl, fun c size mem valid => ⟨Nat.lt_succ_iff.mp size.isLt, afterReset_resetIn c _, ⟨_, rfl⟩,
    ⟨_, rfl, rfl, rfl, rfl, rfl⟩, fun hmem => ?_⟩⟩
  refine inv_resetIn_with (port := []) (buf := []) ⟨.nil, by simp⟩ (by simp) fun f hf => ?_
  cases hf
  exact ⟨hmem, rfl, rfl⟩

/-- Settles O53: the frame that follows WREN takes the chip beyond its size, and the wait does not take it back. -/
theorem addressesBeyondTheChipAreRefused : Obligations.AddressesBeyondTheChipAreRefused := by
  intro a len s f hs hd hactive hf hb hsize
  have h := hearsIdle_of_inv hs hd hactive hf hb
  exact ⟨execFlashEraseSector_beyond a h hsize, execFlashProgramPage_beyond a len h hsize⟩

/-- Settles O54: every frame the instruction sends keeps what it does not store to, and nothing but frames reaches the
array. -/
theorem flashBytesOutsideTheStoresAreKept : Obligations.FlashBytesOutsideTheStoresAreKept := by
  intro i s t f hs hd h hf
  obtain ⟨g, hg, -, -, hsize, hread⟩ := exec_kept hd (kept_self _ hs hf) h
  exact ⟨g, hg, hsize, hread⟩

/-- Settles O55: WREN enables the chip, SE erases the sector, and the wait touches the busy count alone. -/
theorem eraseSectorBlanksTheSector : Obligations.EraseSectorBlanksTheSector := by
  intro a s t f hs hd hcov hactive hf hb h
  rw [exec_command_next rfl h]
  exact eraseSector_erases (hearsIdle_of_inv hs hd hactive hf hb) (covers_size hcov hf)

/-- Settles O56: WREN enables the chip, PP programs the page, and the wait touches the busy count alone. -/
theorem programPageAndsTheData : Obligations.ProgramPageAndsTheData := by
  intro a len s t f hs hd hcov hlen hactive hf hb h
  rw [exec_command_next rfl h]
  obtain ⟨g, hg, hand, hkept, hwel, hidle⟩ := programPage_programs (start := 0)
    (hearsIdle_of_inv hs hd hactive hf hb) (hs.flashReady f hf).1 (a := a) (covers_size hcov hf) hlen
  exact ⟨g, hg, fun n hn => by rw [hand n hn, Nat.zero_add], hkept, hwel, hidle⟩

/-- Settles O58: the load completes the stream at its last trailing clock, the start samples a done FPGA at once, and
the stop holds it in reset. -/
theorem validStreamConfiguresTheFpga : Obligations.ValidStreamConfiguresTheFpga := by
  intro len s t f hs hok hf hphase hclocks _ hvalid h hres
  have hload := exec_command_next rfl h
  obtain ⟨es, k, fr, c, l, hran, he⟩ := exec_ran rfl h
  have hfpga : t.fpga = s.fpga := he.fpga.trans ((ran_foreign hran).1 (show cramPins ≠ fpgaPins by decide))
  have hbound : t.fpga.bound = true := by
    rw [hfpga]
    exact hs.boundIfPowered (by obtain hp | hp := hphase <;> simp [hp])
  have hpolls : 1 ≤ t.cfg.cdonePollMax := by
    rw [he.cfg]
    simp only [Config.ok, Bool.and_eq_true, decide_eq_true_eq] at hok
    obtain ⟨⟨-, hpolls⟩, -⟩ := hok
    exact hpolls
  have hchip : t.world.fpga = some ⟨true, s.buf.slice 0 len.toNat, f.valid⟩ := by
    rw [hload] at hres ⊢
    exact cramLoad_chip hs hf hphase hclocks hvalid hres
  have hstart := fpgaStart_done hbound hpolls hchip rfl
  refine ⟨hchip, ⟨_, rfl, hstart.res, ?_, hstart.trace⟩, fun hq => ⟨_, rfl, fpgaStop_chip hbound hq hchip⟩⟩
  rw [hstart.fpga]

/-- Settles O59. -/
theorem canonicalMemoriesAreEqualWhenTheyReadAlike : Obligations.CanonicalMemoriesAreEqualWhenTheyReadAlike :=
  fun _ _ hm hn h => Memory.eq_of_read_eq hm hn h

end Sys2Proof.Proofs
end

section
/-! SUPPORT. The decoder read backwards (R71, R75 to R78, R80): what a command word can be by its opcode, and which bytes
are a frame. -/

namespace Sys2Proof.Laws

open Sys2Proof.Machine Sys2Proof.Safety

/-! ### Command words -/

/-- An instruction whose words, under every configuration, are a command word with these two fields and, where the format
has one, this operand word (R70, R71; log 17). -/
def StandsFor (op : Byte) (arg : Addr) (ow : Word) (i : Instr) : Prop :=
  ∀ c : Config, i.wellFormed c = true ∧
    encode c i = .command (commandWord op arg) (if op ∈ operandOpcodes then ow else 0)

/-- What stands for the fields of a command word is encoded as that word. -/
theorem encode_of_standsFor {i : Instr} {cw ow : Word} (h : StandsFor (opcodeOf cw) (argOf cw) ow i) (c : Config) :
    i.wellFormed c = true ∧ encode c i = .command cw (if opcodeOf cw ∈ operandOpcodes then ow else 0) := by
  simpa only [commandWord_fields] using h c

theorem zeroArg_eq_ok_iff {arg : Addr} {i j : Instr} : zeroArg arg i = .ok j ↔ arg = 0 ∧ i = j := by
  unfold zeroArg
  split <;> simp_all

theorem zeroArg_eq_error_iff {arg : Addr} {i : Instr} : (∃ e, zeroArg arg i = .error e) ↔ arg ≠ 0 := by
  unfold zeroArg
  split <;> simp_all

/-- What the decoder answers on a command word, by the format of its opcode (R71, R72, R75): a command whose argument field
must be 0 (N, F, B, L), a command with a 24-bit argument (A, AB), or none. -/
inductive CommandRead (cw ow : Word) : Except Reject Instr → Prop where
  | zeroed {op : Byte} {i : Instr} (hop : opcodeOf cw = op) (hrow : op ∈ opcodes ∧ op ∉ [0x32#8, 0x33#8])
      (hi : StandsFor op 0 ow i) : CommandRead cw ow (zeroArg (argOf cw) i)
  | addressed {op : Byte} {i : Instr} (hop : opcodeOf cw = op) (hrow : op ∈ opcodes ∧ op ∈ [0x32#8, 0x33#8])
      (hi : StandsFor op (argOf cw) ow i) : CommandRead cw ow (.ok i)
  | unknown (hop : opcodeOf cw ∉ opcodes) : CommandRead cw ow (.error .illegalOpcode)

/-- One row of the opcode map. -/
theorem CommandRead.row {cw ow : Word} {op : Byte} {d e : Except Reject Instr}
    (hthis : opcodeOf cw = op → CommandRead cw ow d) (hrest : opcodeOf cw ≠ op → CommandRead cw ow e) :
    CommandRead cw ow (if opcodeOf cw = op then d else e) := by
  split
  · exact hthis ‹_›
  · exact hrest ‹_›

/-- The opcode map (R72, R76), one row after the other. -/
theorem decodeCommand_read (cw ow : Word) : CommandRead cw ow (decodeCommand cw ow) := by
  unfold decodeCommand
  refine .row (.zeroed · (by decide) fun _ => ⟨rfl, rfl⟩) fun h10 => ?_
  refine .row (.zeroed · (by decide) fun _ => ⟨rfl, rfl⟩) fun h11 => ?_
  refine .row (.zeroed · (by decide) fun _ => ⟨rfl, rfl⟩) fun h12 => ?_
  refine .row (.zeroed · (by decide) fun _ => ⟨rfl, rfl⟩) fun h13 => ?_
  refine .row (.zeroed · (by decide) fun _ => ⟨rfl, rfl⟩) fun h20 => ?_
  refine .row (.zeroed · (by decide) fun _ => ⟨rfl, rfl⟩) fun h21 => ?_
  refine .row (.zeroed · (by decide) fun _ => ⟨rfl, rfl⟩) fun h22 => ?_
  refine .row (.zeroed · (by decide) fun _ => ⟨rfl, rfl⟩) fun h23 => ?_
  refine .row (.zeroed · (by decide) fun _ => ⟨rfl, rfl⟩) fun h30 => ?_
  refine .row (.zeroed · (by decide) fun _ => ⟨rfl, rfl⟩) fun h31 => ?_
  refine .row (.addressed · (by decide) fun _ => ⟨rfl, rfl⟩) fun h32 => ?_
  refine .row (.addressed · (by decide) fun _ => ⟨rfl, rfl⟩) fun h33 => ?_
  refine .row (.zeroed · (by decide) fun _ => ⟨rfl, rfl⟩) fun h34 => ?_
  refine .row (.zeroed · (by decide) fun _ => ⟨rfl, rfl⟩) fun h35 => ?_
  refine .row (.zeroed · (by decide) fun _ => ⟨rfl, rfl⟩) fun h36 => ?_
  exact .unknown (by simp_all [opcodes])

/-- A command word that decodes is, with its operand word, what the instruction encodes to (R76). -/
theorem encode_of_decodeCommand {cw ow : Word} {i : Instr} (h : decodeCommand cw ow = .ok i) (c : Config) :
    i.wellFormed c = true ∧ encode c i = .command cw (if opcodeOf cw ∈ operandOpcodes then ow else 0) := by
  have hread := decodeCommand_read cw ow
  generalize decodeCommand cw ow = d at hread h
  apply encode_of_standsFor
  cases hread with
  | zeroed hop _ hi =>
    obtain ⟨harg, rfl⟩ := zeroArg_eq_ok_iff.1 h
    rwa [hop, harg]
  | addressed hop _ hi =>
    cases h
    rwa [hop]
  | unknown => cases h

/-- The decoder rejects a command word for R75's two reasons. -/
theorem decodeCommand_error_iff (cw ow : Word) : (∃ e, decodeCommand cw ow = .error e) ↔ illegalWord cw := by
  have hread := decodeCommand_read cw ow
  generalize decodeCommand cw ow = d at hread
  unfold illegalWord
  cases hread with
  | zeroed hop hrow _ =>
    rw [zeroArg_eq_error_iff, hop]
    simp [hrow.1, hrow.2]
  | addressed hop hrow _ =>
    rw [hop]
    simp [hrow.1, hrow.2]
  | unknown hop => simp [hop]

/-! ### Frames -/

theorem toNat_addrOfBytes (a2 a1 a0 : Byte) :
    (addrOfBytes a2 a1 a0).toNat = (a2.toNat * 2 ^ 8 + a1.toNat) * 2 ^ 8 + a0.toNat := by
  rw [← toNat_append_eq, ← toNat_append_eq]
  rfl

/-- Three bytes are the address bytes of the address they stand for (R80). -/
theorem addrBytes_addrOfBytes (a2 a1 a0 : Byte) : addrBytes (addrOfBytes a2 a1 a0) = [a2, a1, a0] := by
  have h1 := a1.isLt
  have h0 := a0.isLt
  simp only [addrBytes, List.cons.injEq, and_true, BitVec.toNat_inj.symm, BitVec.extractLsb'_toNat,
    toNat_addrOfBytes, Nat.shiftRight_eq_div_pow]
  omega

/-- Bytes that decode are those of the frame they decode to, of at most a page of data (R77, R78). -/
theorem encode_of_decodeFrame {c : Config} {bytes : List Byte} {i : Instr} (h : decodeFrame c bytes = .ok i) :
    i.wellFormed c = true ∧ encode c i = .frame bytes := by
  unfold decodeFrame at h
  split at h
  · cases h
  · split_ifs at h with hwren hrdsr <;> cases h
    · exact ⟨rfl, by rw [hwren]; rfl⟩
    · exact ⟨rfl, by rw [hrdsr]; rfl⟩
  · split_ifs at h with hse hpp <;> cases h
    · obtain ⟨rfl, rfl⟩ := hse
      exact ⟨rfl, by rw [encode, addrBytes_addrOfBytes]⟩
    · obtain ⟨rfl, hlen⟩ := hpp
      exact ⟨decide_eq_true hlen, by rw [encode, addrBytes_addrOfBytes]; rfl⟩
  · cases h

end Sys2Proof.Laws
end

section
/-! PROOFS. The statements of spec/30_encoding.md. -/

namespace Sys2Proof.Proofs

open Sys2Proof.Machine Sys2Proof.Safety Sys2Proof.Laws

/-- Settles O1, one instruction after the other: a command's opcode and argument field come back out of its command word,
and a frame is told by its first byte and its length, where no bytes are two frames. -/
theorem decodeOfEncodeIsIdentity : Obligations.DecodeOfEncodeIsIdentity := by
  intro c i hc hw
  cases i with
  | fpgaInit freq => exact RoundTrip.fpgaInit freq c hc hw
  | fpgaStart => exact RoundTrip.fpgaStart c hc hw
  | fpgaStop => exact RoundTrip.fpgaStop c hc hw
  | fpgaReset => exact RoundTrip.fpgaReset c hc hw
  | cramOpen => exact RoundTrip.cramOpen c hc hw
  | cramWrite len => exact RoundTrip.cramWrite len c hc hw
  | cramClose => exact RoundTrip.cramClose c hc hw
  | cramLoad len => exact RoundTrip.cramLoad len c hc hw
  | flashConfig freq => exact RoundTrip.flashConfig freq c hc hw
  | flashInit freq => exact RoundTrip.flashInit freq c hc hw
  | flashEraseSector offset => exact RoundTrip.flashEraseSector offset c hc hw
  | flashProgramPage offset len => exact RoundTrip.flashProgramPage offset len c hc hw
  | flashDeinit => exact RoundTrip.flashDeinit c hc hw
  | flashWrite len => exact RoundTrip.flashWrite len c hc hw
  | flashErase len => exact RoundTrip.flashErase len c hc hw
  | wren => exact RoundTrip.wren c hc hw
  | se addr => exact RoundTrip.se addr c hc hw
  | pp addr data => exact RoundTrip.pp addr data c hc hw
  | rdsr => exact RoundTrip.rdsr c hc hw

/-- Settles O2: the opcode map and the frame shapes read backwards. -/
theorem encodeOfDecodedWordsGivesThemBack : Obligations.EncodeOfDecodedWordsGivesThemBack :=
  fun c _ => ⟨fun _ _ h => encode_of_decodeCommand h c, fun _ h => encode_of_decodeFrame h⟩

/-- Settles O3: the two errors are those of the opcode map's last row and of the argument field. -/
theorem illegalExactlyOutsideTheOpcodeMap : Obligations.IllegalExactlyOutsideTheOpcodeMap :=
  fun _ cw ow => decodeCommand_error_iff cw ow

/-- Settles O4: the spec's words are what the encoder writes for its instructions, so O1 decodes them. -/
theorem specExampleWordsDecode : Obligations.SpecExampleWordsDecode := by
  have hdec (i : Instr) (hi : i.wellFormed Config.standard = true) :=
    decodeOfEncodeIsIdentity Config.standard i rfl hi
  exact ⟨hdec (.fpgaInit 48) rfl, hdec .fpgaStart rfl, hdec (.cramWrite 4) rfl, hdec (.flashEraseSector 0x001000) rfl,
    hdec (.flashProgramPage 0x000100 2) rfl, hdec (.flashErase 5000) rfl, hdec .wren rfl, hdec (.se 0x001000) rfl,
    hdec (.pp 0x000100 [0x01, 0x02]) rfl⟩

/-- Settles O5: the accepted request is off the port and its buffer in place. -/
theorem stepRunsTheDecodedInstruction : Obligations.StepRunsTheDecodedInstruction := by
  intro s r rest i hport hdec
  simp only [step, hport, hdec, State.accept]

/-- Settles O6: by O3 an illegal word decodes to an error, which the step answers with the result register alone. -/
theorem illegalWordOnlyAnswersIllegal : Obligations.IllegalWordOnlyAnswersIllegal := by
  intro s cw ow m rest hport hill
  obtain ⟨e, he⟩ := (decodeCommand_error_iff cw ow).2 hill
  have hdec : decode s.cfg (.command cw ow) = .error e := he
  simp only [step, hport, hdec, State.rejected]
  rfl

end Sys2Proof.Proofs
end

section
/-! PROOFS. The statements of spec/40_gpio_bitbang.md. -/

namespace Sys2Proof.Proofs

open Sys2Proof.Machine Sys2Proof.Safety Sys2Proof.Laws

/-- Settles O14: a frame emits its events and a command ends by one of the lists of `Ran`; what either leaves of the pins
and of the clock generator is the replay of that list. -/
theorem pinsAndClockFollowTheTrace : Obligations.PinsAndClockFollowTheTrace := by
  intro i s t h
  cases hi : isCommand i
  · obtain ⟨es, -, hemits⟩ := exec_framed hi h
    exact ⟨es, hemits.trace, hemits.pins, hemits.clk⟩
  · obtain ⟨es, _, _, _, _, -, hended⟩ := exec_ran hi h
    exact ⟨es, hended.trace, hended.pins, hended.clk⟩

end Sys2Proof.Proofs
end

section
/-! SUPPORT. The sequencer's commands (R121 to R125): how a start is turned away, what it makes of queued samples, that
it reads no transient register, and that the other groups leave the clock generator alone. -/

namespace Sys2Proof.Laws

open Sys2Proof.Machine Sys2Proof.Safety

section
variable {s t : State}

theorem fpgaStart_of_unbound (hb : s.fpga.bound = false) : fpgaStart s = s.raise .notInit :=
  if_neg (by rw [hb]; exact Bool.false_ne_true)

/-! ### What the events leave of CRESET and of the clock -/

/-- The samples of a start come after CRESET is released, and touch neither it nor the clock. -/
theorem startEvents_leave (freq : Word) (vs : List Bool) (r : Pins) (k : ClkRegs) :
    (replayPins (startEvents freq vs) r).creset = ⟨r.creset.dir, .one⟩ ∧
      replayClk (startEvents freq vs) k = ⟨true, some freq⟩ := by
  simp only [startEvents, replayPins_cons, replayPins_samples, replayClk_cons, replayClk_samples]
  exact ⟨rfl, rfl⟩

/-! ### A start on queued samples (R103, R123) -/

/-- One sample of a wait: the level drawn is the event's and the wait's, and the draw is all the environment notices. -/
theorem poll_sample (k : Nat) {v : Bool} {w : World} (h : s.world.nextCdone = (v, w)) :
    (s.setPoll k).sampleCdone.1 = v ∧ Emits [.smp .cdone v] s (s.setPoll k).sampleCdone.2 ∧
      (s.setPoll k).sampleCdone.2.world = w := by
  have hsample : (s.setPoll k).sampleCdone.1 = v := congrArg Prod.fst h
  refine ⟨hsample, ?_, congrArg Prod.snd h⟩
  rw [← hsample]
  exact (setPoll_emits k s).trans (sampleCdone_emits _)

/-- A wait takes the zeros at the head of the queue, one sample each, and goes on with the polls that are left. -/
theorem pollCdone_zeros (n j k : Nat) {q : List Bool} (hf : s.world.fpga = none)
    (hq : s.world.cdone = List.replicate j false ++ q) :
    ∃ t, Emits ((List.replicate j false).map (.smp .cdone)) s t ∧ t.world = { s.world with cdone := q } ∧
      pollCdone (n + j) k s = pollCdone n (k + j) t := by
  induction j generalizing k s with
  | zero =>
    refine ⟨s, .refl s, ?_, rfl⟩
    rw [show q = s.world.cdone from hq.symm]
  | succ j ih =>
    have hdraw : s.world.nextCdone = (false, { s.world with cdone := List.replicate j false ++ q }) := by
      simp [World.nextCdone, hf, hq, List.replicate_succ]
    obtain ⟨hsample, hemits, hworld⟩ := poll_sample (k + 1) hdraw
    have hstep : pollCdone (n + (j + 1)) k s = pollCdone (n + j) (k + 1) (s.setPoll (k + 1)).sampleCdone.2 :=
      if_neg (by rw [hsample]; exact Bool.false_ne_true)
    obtain ⟨t, he, hw, hp⟩ := ih (k + 1) (s := (s.setPoll (k + 1)).sampleCdone.2) (by rw [hworld, hf])
      (by rw [hworld])
    refine ⟨t, hemits.trans he, by rw [hw, hworld], ?_⟩
    rw [hstep, hp, Nat.add_right_comm, Nat.add_assoc]

/-- Zeros and then a 1, within the polls: the wait ends at the 1. -/
theorem pollCdone_rises {n j : Nat} (k : Nat) {rest : List Bool} (hj : j < n) (hf : s.world.fpga = none)
    (hq : s.world.cdone = List.replicate j false ++ true :: rest) :
    ∃ t, Emits ((List.replicate j false ++ [true]).map (.smp .cdone)) s t ∧
      t.world = { s.world with cdone := rest } ∧ pollCdone n k s = (true, t) := by
  obtain ⟨m, rfl⟩ := Nat.exists_eq_add_of_le' (Nat.succ_le_of_lt hj)
  obtain ⟨t, he, hw, hp⟩ := pollCdone_zeros (m + 1) j k hf hq
  have hdraw : t.world.nextCdone = (true, { s.world with cdone := rest }) := by
    rw [hw]
    simp [World.nextCdone, hf]
  obtain ⟨-, hemits, hworld⟩ := poll_sample (k + j + 1) hdraw
  refine ⟨_, ?_, hworld, ?_⟩
  · rw [List.map_append]
    exact he.trans hemits
  · rw [show m + j.succ = m + 1 + j by omega, hp, pollCdone_first _ (Nat.le_add_left 1 m) (congrArg Prod.fst hdraw)]

/-- As many zeros as polls: the wait times out with the rest of the queue untouched. -/
theorem pollCdone_times_out (n k : Nat) {rest : List Bool} (hf : s.world.fpga = none)
    (hq : s.world.cdone = List.replicate n false ++ rest) :
    ∃ t, Emits ((List.replicate n false).map (.smp .cdone)) s t ∧ t.world = { s.world with cdone := rest } ∧
      pollCdone n k s = (false, t) := by
  obtain ⟨t, he, hw, hp⟩ := pollCdone_zeros 0 n k hf hq
  rw [Nat.zero_add] at hp
  exact ⟨t, he, hw, hp⟩

/-- FPGA_START by the outcome of its wait: the samples are the wait's, and so is what it leaves of the environment. -/
theorem fpgaStart_of_poll {b : Bool} {vs : List Bool} (hb : s.fpga.bound = true)
    (hp : pollCdone s.cfg.cdonePollMax 0 (startReleased s) = (b, t))
    (he : Emits (vs.map (.smp .cdone)) (startReleased s) t) :
    Ended s (fpgaStart s).settle (startEvents s.fpga.freqKhz vs) (cond b .ok .cdoneTimeout)
        ⟨true, s.fpga.freqKhz, cond b .configured .clocking⟩ s.cram s.flash ∧
      (fpgaStart s).settle.world = t.world := by
  have htrace : t.trace = s.trace ++ startEvents s.fpga.freqKhz vs := by
    rw [he.trace]
    simp [startReleased, startEvents]
  have hfpga : t.fpga = ⟨true, s.fpga.freqKhz, .clocking⟩ := by
    rw [he.fpga]
    simp [startReleased, hb]
  rw [fpgaStart_of_bound hb, hp]
  cases b
  · exact ⟨⟨htrace, he.pins, he.clk, hfpga, he.cram, he.flash, rfl, rfl, he.port, he.buf, he.cfg⟩, rfl⟩
  · exact ⟨⟨htrace, he.pins, he.clk, by simp [hfpga], he.cram, he.flash, rfl, rfl, he.port, he.buf, he.cfg⟩, rfl⟩

/-! ### A start reads no transient register (R17) -/

/-- States that differ in the transient registers only get the same samples. -/
theorem pollCdone_congr (n k : Nat) (h : s.settle = t.settle) :
    (pollCdone n k s).1 = (pollCdone n k t).1 ∧ (pollCdone n k s).2.settle = (pollCdone n k t).2.settle := by
  induction n generalizing k s t with
  | zero => exact ⟨rfl, h⟩
  | succ n ih =>
    have hsample : (s.setPoll (k + 1)).sampleCdone.1 = (t.setPoll (k + 1)).sampleCdone.1 :=
      congrArg (fun u => u.sampleCdone.1) h
    have hafter : (s.setPoll (k + 1)).sampleCdone.2.settle = (t.setPoll (k + 1)).sampleCdone.2.settle :=
      congrArg (fun u => u.sampleCdone.2.settle) h
    simp only [pollCdone, hsample]
    split
    · exact ⟨rfl, hafter⟩
    · exact ih (k + 1) hafter

/-- A start after a command that has ended is a start where that command was about to end. -/
theorem fpgaStart_settle (s : State) : (fpgaStart s.settle).settle = (fpgaStart s).settle := by
  cases hb : s.fpga.bound
  · rw [fpgaStart_of_unbound hb, fpgaStart_of_unbound (s := s.settle) hb]
    rfl
  · obtain ⟨hseen, hleft⟩ := pollCdone_congr s.cfg.cdonePollMax 0
      (s := startReleased s.settle) (t := startReleased s) rfl
    rw [fpgaStart_of_bound hb, fpgaStart_of_bound (s := s.settle) hb, State.settle_cfg, hseen]
    split
    · exact congrArg (fun u => (u.setPhase .configured).succeed) hleft
    · exact congrArg (fun u => u.raise .cdoneTimeout) hleft

end

/-! ### The clock generator and the other groups (R126, R146, R169) -/

/-- Every event of a frame is on the flash bus, the frame's own. -/
theorem framed_own {c : Config} {i : Instr} {es : List Event} (h : Framed c i es) :
    ∀ e ∈ es, eventPin e ∈ ownPins i := by
  have hbus := (rests_framed h).own
  cases h with
  | wren | se | pp | rdsr => exact hbus

/-- Events on the own pins of an instruction that is not the sequencer's leave the clock generator alone. -/
theorem replayClk_of_foreign {i : Instr} {es : List Event} (hown : ∀ e ∈ es, eventPin e ∈ ownPins i)
    (hi : ownPins i ≠ fpgaPins) (k : ClkRegs) : replayClk es k = k :=
  replayClk_of_forall_ne
    (fun e he hclock => (not_mem_of_ownPins_ne (hown e he)).1 hi (by rw [hclock]; decide)) k

end Sys2Proof.Laws
end

section
/-! PROOFS. The statements of spec/41_fpga_sequencer.md. -/

namespace Sys2Proof.Proofs

open Sys2Proof.Machine Sys2Proof.Safety Sys2Proof.Laws

/-- Settles O16: a frame writes no register of a group, a command those of its own, and only events on CLOCK move the
clock generator. -/
theorem eachGroupWritesItsOwnRegisters : Obligations.EachGroupWritesItsOwnRegisters := by
  intro i s t h
  cases hi : isCommand i
  · obtain ⟨es, hframed, he⟩ := exec_framed hi h
    exact ⟨fun hne => ⟨he.fpga, he.clk.trans (replayClk_of_foreign (framed_own hframed) hne _)⟩, fun _ => he.cram,
      fun _ => he.flash⟩
  · obtain ⟨es, k, f, c, l, hran, he⟩ := exec_ran hi h
    obtain ⟨hfpga, hcram, hflash⟩ := ran_foreign hran
    exact ⟨fun hne => ⟨he.fpga.trans (hfpga hne), he.clk.trans (replayClk_of_foreign (ran_own hran) hne _)⟩,
      fun hne => he.cram.trans (hcram hne), fun hne => he.flash.trans (hflash hne)⟩

/-- Settles O22: FPGA_INIT touches two registers of the device and the result, and draws nothing. -/
theorem fpgaInitStoresTheFrequency : Obligations.FpgaInitStoresTheFrequency := fun _ _ => ⟨rfl, rfl⟩

/-- Settles O23: the wait's two ways to end are the command's, and its samples leave CRESET and the clock as the release
left them. -/
theorem fpgaStartReleasesClocksAndPolls : Obligations.FpgaStartReleasesClocksAndPolls := by
  intro s
  refine ⟨rfl, fun hb => ?_, fun hb => ?_⟩
  · exact congrArg State.answer (fpgaStart_of_unbound hb)
  · obtain ⟨vs, k, p, hd, h⟩ := fpgaStart_ends hb
    obtain ⟨hcreset, hclk⟩ := startEvents_leave s.fpga.freqKhz vs s.pins s.clk
    refine ⟨vs, _, rfl, ?_, by rw [h.pins, hcreset], by rw [h.clk, hclk]⟩
    obtain ⟨hrose, rfl, rfl⟩ | ⟨htimed, rfl, rfl⟩ := hd
    · exact .inl ⟨hrose, h⟩
    · exact .inr ⟨htimed, h⟩

/-- Settles O24: the release draws nothing, so the wait meets the queue as the command found it. -/
theorem fpgaStartFollowsTheSamples : Obligations.FpgaStartFollowsTheSamples := by
  intro s rest hb hf
  refine ⟨fun n hn hq => ?_, fun hq => ?_⟩
  · obtain ⟨t, he, hw, hp⟩ := pollCdone_rises (s := startReleased s) 0 hn hf hq
    obtain ⟨hend, hworld⟩ := fpgaStart_of_poll hb hp he
    exact ⟨_, rfl, hend, hworld.trans hw⟩
  · obtain ⟨t, he, hw, hp⟩ := pollCdone_times_out (s := startReleased s) s.cfg.cdonePollMax 0 hf hq
    obtain ⟨hend, hworld⟩ := fpgaStart_of_poll hb hp he
    exact ⟨_, rfl, hend, hworld.trans hw⟩

/-- Settles O25: the three ways of `fpgaStop_cases` are the three clauses, each shut out of the other two by the device's
binding or by the oracle. -/
theorem fpgaStopHaltsThenHoldsInReset : Obligations.FpgaStopHaltsThenHoldsInReset := by
  intro s
  have hexec : exec .fpgaStop s = .next (fpgaStop s).settle := rfl
  refine ⟨rfl, ?_⟩
  obtain ⟨hb, h⟩ | ⟨hb, hq, h⟩ | ⟨hb, hq, h⟩ := fpgaStop_cases s
  · rw [hexec, h]
    simp only [hb, Bool.false_eq_true, false_implies, and_true, true_implies]
    rfl
  · rw [hexec, h]
    simp only [hb, hq, Bool.true_eq_false, Bool.false_eq_true, false_implies, and_true, true_and, true_implies]
    rfl
  · simp only [hb, hq, Bool.true_eq_false, false_implies, true_and, true_implies]
    exact ⟨_, hexec, h, by rw [h.pins]; rfl, by rw [h.clk]; rfl⟩

/-- Settles O26: the start that follows does not see that the stop's transient registers are `U` again. -/
theorem fpgaResetIsStopThenStart : Obligations.FpgaResetIsStopThenStart := by
  intro s
  refine ⟨rfl, ?_⟩
  show State.answer (if (fpgaStop s).succeeded = true then fpgaStart (fpgaStop s) else fpgaStop s) =
    if (fpgaStop s).res = Code.ok.byte then (fpgaStart (fpgaStop s).settle).answer else .next (fpgaStop s).settle
  simp only [succeeded_iff]
  split
  · rw [State.answer, State.answer, fpgaStart_settle]
  · rfl

/-- Settles O27: by O25 the stop ends with OK and leaves the device bound, so by O26 the start of O23 follows it. -/
theorem fpgaResetCompletes : Obligations.FpgaResetCompletes := by
  intro s hb hq
  obtain ⟨-, -, -, hstop⟩ := fpgaStopHaltsThenHoldsInReset s
  obtain ⟨t, hexec, hend, -⟩ := hstop hb hq
  obtain ⟨-, -, hstart⟩ := fpgaStartReleasesClocksAndPolls t
  obtain ⟨vs, u, hexec', hways, -⟩ := hstart (by rw [hend.fpga])
  have hreset : exec .fpgaReset s = .next u := by
    rw [(fpgaResetIsStopThenStart s).2, hexec]
    exact (if_pos hend.res).trans hexec'
  have hsettled : t.settle = t := by rw [State.settle, ← hend.tmp]
  rw [← hsettled] at hend
  rw [show t.cfg = s.cfg from hend.cfg, show t.fpga = _ from hend.fpga, show t.cram = s.cram from hend.cram,
    show t.flash = s.flash from hend.flash] at hways
  refine ⟨vs, u, hreset, ?_⟩
  obtain ⟨hrose, h⟩ | ⟨htimed, h⟩ := hways
  · exact .inl ⟨hrose, ended_trans hend h⟩
  · exact .inr ⟨htimed, ended_trans hend h⟩

end Sys2Proof.Proofs
end

section
/-! SUPPORT. The CRAM commands (R140 to R145): what an open and a close leave of the bus, what a write makes of queued
answers of the fault oracle, and that the write and the close read no transient register. -/

namespace Sys2Proof.Laws

open Sys2Proof.Machine Sys2Proof.Safety

/-! ### What the events leave of the CRAM bus -/

theorem pinReg_eq {x : PinReg} {d : Dir} {l : Level} (hd : x.dir = d) (hl : x.lvl = l) : x = ⟨d, l⟩ := by
  rw [← hd, ← hl]

theorem pulseEvents_off {p q : Pin} (h : p ≠ q) (n : Nat) : ∀ e ∈ pulseEvents p n, eventPin e ≠ q := by
  have hown : ∀ e ∈ pulseEvents p n, eventPin e ∈ [p] := (rests_pulses (rest := []) (by simp) (by simp) n).own
  intro e he hq
  exact h ((List.mem_singleton.mp (hown e he)).symm.trans hq)

/-- The leading clocks of an open do not touch C_DO. -/
theorem leadEvents_off_cDo (v w : Bool) (n : Nat) :
    ∀ e ∈ .drv .cCs v :: (pulseEvents .cSck n ++ [.drv .cCs w]), eventPin e ≠ .cDo :=
  List.forall_mem_cons.mpr ⟨by simp [eventPin],
    List.forall_mem_append.mpr ⟨pulseEvents_off (by decide) n, by simp [eventPin]⟩⟩

/-- R140: the three pins are driven, with the FPGA selected and the clock and the data low, whatever they were. -/
theorem openEvents_leave (c : Config) (r : Pins) :
    (replayPins (openEvents c) r).get .cCs = ⟨.output, Level.ofBit c.cramCsActive⟩ ∧
      (replayPins (openEvents c) r).get .cSck = ⟨.output, .zero⟩ ∧
      (replayPins (openEvents c) r).get .cDo = ⟨.output, .zero⟩ := by
  have hopen := cramInv_open c r
  obtain ⟨hcs, hsck⟩ := hopen.idle rfl
  have hdo : ((replayPins (openEvents c) r).get .cDo).lvl = .zero := by
    unfold openEvents
    rw [replayPins_append]
    split
    · simp [pinsAfter, Level.ofBit]
    · rw [replayPins_get_of_forall_ne (leadEvents_off_cDo _ _ _)]
      simp [pinsAfter, Level.ofBit]
  exact ⟨pinReg_eq (hopen.dirs _ (by decide)) hcs, pinReg_eq (hopen.dirs _ (by decide)) hsck,
    pinReg_eq (hopen.dirs _ (by decide)) hdo⟩

/-- R143: the three pins are released, C_CS inactive and C_DO low; the trailing clocks bring C_SCK back where it was low. -/
theorem closeEvents_leave (c : Config) (r : Pins) :
    (replayPins (closeEvents c) r).get .cCs = ⟨.input, Level.ofBit (!c.cramCsActive)⟩ ∧
      (replayPins (closeEvents c) r).get .cDo = ⟨.input, .zero⟩ ∧
      ((r.get .cSck).lvl = .zero → (replayPins (closeEvents c) r).get .cSck = ⟨.input, .zero⟩) := by
  have hoff {q : Pin} (hq : .cSck ≠ q) (x : Pins) :
      (replayPins (pulseEvents .cSck c.trailClocks) x).get q = x.get q :=
    replayPins_get_of_forall_ne (pulseEvents_off hq _) x
  have hsck : RestsAt .cSck .zero (pulseEvents .cSck c.trailClocks) :=
    (rests_cramPulses c c.trailClocks).rests (.cSck, .zero) (by simp [cramRest])
  unfold closeEvents
  rw [replayPins_append, replayPins_append]
  refine ⟨?_, ?_, fun hlow => ?_⟩
  · simp [pinsAfter, hoff]
  · simp [pinsAfter, hoff, Level.ofBit]
  · have hrest := hsck.lvl (r := replayPins [.drv .cCs (!c.cramCsActive), .drv .cDo false] r)
      (by simpa [pinsAfter] using hlow)
    simpa [pinsAfter] using hrest

section
variable {s t u : State}

/-! ### Commands one after the other -/

/-- A command that has ended left the transient registers at `U` (R17). -/
theorem settle_of_ended {es : List Event} {k : Code} {f : FpgaRegs} {c : CramRegs} {l : FlashRegs}
    (h : Ended s t es k f c l) : t.settle = t := by
  rw [State.settle, ← h.tmp]

/-- Two commands, the second issued where the first ended. -/
theorem ended_seq {es fs : List Event} {j k : Code} {f f' : FpgaRegs} {c c' : CramRegs} {l l' : FlashRegs}
    (h : Ended s t es j f c l) (h' : Ended t u fs k f' c' l') : Ended s u (es ++ fs) k f' c' l' :=
  ended_trans (by rwa [settle_of_ended h]) h'

/-- The code of an ended command replaced: what a composite does that keeps the code of its main part (R145). -/
theorem ended_with_code {es : List Event} {j : Code} {f : FpgaRegs} {c : CramRegs} {l : FlashRegs}
    (h : Ended s t es j f c l) (k : Code) : Ended s (t.withResult k.byte) es k f c l :=
  ⟨h.trace, h.pins, h.clk, h.fpga, h.cram, h.flash, rfl, h.tmp, h.port, h.buf, h.cfg⟩

/-! ### The clash of both buses on aliased pins (R255) -/

/-- Whether a command is refused for the clash is decided before its outcome. -/
theorem unlessClash_cases (s held : State) :
    (∀ r, s.unlessClash held r = .refused .aliasedBusesBothHeld) ∨ ∀ r, s.unlessClash held r = r := by
  unfold State.unlessClash
  split
  · split
    · exact .inl fun _ => rfl
    · exact .inr fun _ => rfl
  · exact .inr fun _ => rfl

theorem unlessClash_of_no_bracket {held : State} (h : s.cfg.pinsAliased = false ∨ held.flash.active = false)
    (r : Host.Outcome State Fault Refusal) : s.unlessClash held r = r := by
  unfold State.unlessClash
  obtain h | h := h
  · rw [if_neg (by rw [h]; exact Bool.false_ne_true)]
  · have hheld : held.busesBothHeld = false := by rw [State.busesBothHeld, h, Bool.and_false]
    rw [hheld, if_neg Bool.false_ne_true, ite_self]

/-- CRAM_OPEN writes no register of the flash driver (R146). -/
theorem cramOpen_flashRegs (s : State) : (cramOpen s).flash = s.flash := by
  obtain ⟨k, -, h⟩ | ⟨-, -, h⟩ := cramOpen_ends s
  · exact h.flash
  · exact h.flash

/-- CRAM_OPEN is answered where it does not meet a bracket on aliased pins. -/
theorem exec_cramOpen (h : s.cfg.pinsAliased = false ∨ s.flash.active = false) :
    exec .cramOpen s = .next (cramOpen s).settle :=
  unlessClash_of_no_bracket (by rwa [cramOpen_flashRegs]) _

/-! ### A write and the fault oracle (R110, R142) -/

theorem cramWrite_of_closed (len : Word) (ho : s.cram.isOpen = false) : cramWrite len s = s.raise .notOpen :=
  if_neg (by rw [ho]; exact Bool.false_ne_true)

theorem cramWrite_of_open (len : Word) (ho : s.cram.isOpen = true) : cramWrite len s = cramBytes len.toNat 0 s :=
  if_pos ho

/-- In a block of plain wires the whole buffer goes out. -/
theorem cramWrite_plain (len : Word) (ho : s.cram.isOpen = true) (hp : s.cfg.plainWires = true) :
    Ended s (cramWrite len s).settle ((s.buf.slice 0 len.toNat).flatMap cramByteEvents) .ok s.fpga
      ⟨true, s.cram.bytes + len⟩ s.flash := by
  obtain ⟨n, k, hd, h⟩ := cramWrite_ends len ho
  have hok : (cramWrite len s).res = Code.ok.byte := by
    rw [cramWrite_of_open len ho]
    exact cramBytes_plain _ _ hp
  obtain rfl : k = .ok := byte_injective (h.res.symm.trans hok)
  obtain ⟨rfl, -⟩ | ⟨-, hk⟩ := hd
  · simpa using h
  · cases hk

/-- From `s` to `t` a session sent the bytes `bs` and counted them. -/
structure Sent (bs : List Byte) (s t : State) : Prop where
  wire : Emits (bs.flatMap cramByteEvents) s { t with cram := s.cram }
  counted : t.cram = ⟨s.cram.isOpen, s.cram.bytes + BitVec.ofNat 32 bs.length⟩

theorem sent_of_silent (h : Emits [] s t) : Sent [] s t where
  wire := ⟨h.trace, h.pins, h.clk, h.fpga, rfl, h.flash, h.res, h.port, h.buf, h.cfg⟩
  counted := by simp [h.cram]

theorem sent_byte {b : Byte} (h : Emits (cramByteEvents b) s t) : Sent [b] s t.countByte where
  wire := by
    rw [List.flatMap_singleton]
    exact ⟨h.trace, h.pins, h.clk, h.fpga, rfl, h.flash, h.res, h.port, h.buf, h.cfg⟩
  counted := by
    rw [State.countByte_cram, h.cram]
    rfl

theorem sent_append {as bs : List Byte} (h : Sent as s t) (h' : Sent bs t u) : Sent (as ++ bs) s u where
  wire := by
    have hw := h'.wire
    rw [List.flatMap_append]
    exact h.wire.trans
      ⟨hw.trace, hw.pins, hw.clk, hw.fpga, rfl, hw.flash, hw.res, hw.port, hw.buf, hw.cfg⟩
  counted := by
    rw [h'.counted, h.counted, List.length_append, BitVec.ofNat_add, BitVec.add_assoc]

/-- A write that sent some bytes and then answers a code. -/
theorem ended_of_sent {bs : List Byte} (h : Sent bs s t) (ho : s.cram.isOpen = true) (k : Code) :
    Ended s (t.raise k).settle (bs.flatMap cramByteEvents) k s.fpga
      ⟨true, s.cram.bytes + BitVec.ofNat 32 bs.length⟩ s.flash :=
  have hw := h.wire
  ⟨hw.trace, hw.pins, hw.clk, hw.fpga, by rw [← ho]; exact h.counted, hw.flash, rfl, rfl, hw.port, hw.buf, hw.cfg⟩

/-- The oracle's question before byte `i`, on a queue: it takes the queue's head and does nothing else. -/
theorem consult_queued (i : Nat) {v : Bool} {q : List Bool} (hp : s.cfg.plainWires = false)
    (hq : s.world.faults = v :: q) :
    ((s.setIdx i).consult (.cramWrite i)).1 = v ∧ Emits [] s ((s.setIdx i).consult (.cramWrite i)).2 ∧
      ((s.setIdx i).consult (.cramWrite i)).2.world.faults = q := by
  have hask := nextFault_queued hp hq (.cramWrite i)
  refine ⟨congrArg Prod.fst hask, (setIdx_emits i s).trans (consult_emits _ _), ?_⟩
  exact congrArg (fun r : Bool × World => r.2.faults) hask

/-- A write takes the zeros at the head of the queue, sends one byte for each, and goes on with the bytes that are left. -/
theorem cramBytes_zeros (n j i : Nat) {q : List Bool} (hp : s.cfg.plainWires = false)
    (hq : s.world.faults = List.replicate j false ++ q) :
    ∃ t, Sent (s.buf.slice i j) s t ∧ t.world.faults = q ∧ cramBytes (n + j) i s = cramBytes n (i + j) t := by
  induction j generalizing i s with
  | zero => exact ⟨s, sent_of_silent (.refl s), hq, rfl⟩
  | succ j ih =>
    obtain ⟨hask, hemits, hfaults⟩ := consult_queued i (q := List.replicate j false ++ q) hp hq
    have hbyte : cramBytes (n + (j + 1)) i s = cramBytes (n + j) (i + 1)
        (((s.setIdx i).consult (.cramWrite i)).2.shiftOutCram (s.buf.read i)).countByte :=
      if_neg (by rw [hask]; exact Bool.false_ne_true)
    generalize ((s.setIdx i).consult (.cramWrite i)).2 = u at hemits hfaults hbyte
    have hshift := hemits.trans (shiftOutCram_emits (s.buf.read i) u)
    obtain ⟨t, hsent, hrest, hgo⟩ := ih (i + 1) (s := (u.shiftOutCram (s.buf.read i)).countByte)
      (by rw [State.countByte_cfg, hshift.cfg, hp])
      (by rw [State.countByte_world, (shiftOutCram_sameDraws _ u).faults, hfaults])
    rw [State.countByte_buf, hshift.buf] at hsent
    refine ⟨t, sent_append (sent_byte hshift) hsent, hrest, ?_⟩
    rw [hbyte, hgo, Nat.add_right_comm, Nat.add_assoc]

/-- As many zeros as bytes: the whole buffer goes out, with the rest of the queue untouched. -/
theorem cramWrite_quiet {len : Word} {rest : List Bool} (ho : s.cram.isOpen = true) (hp : s.cfg.plainWires = false)
    (hq : s.world.faults = List.replicate len.toNat false ++ rest) :
    Ended s (cramWrite len s).settle ((s.buf.slice 0 len.toNat).flatMap cramByteEvents) .ok s.fpga
        ⟨true, s.cram.bytes + len⟩ s.flash ∧
      (cramWrite len s).world.faults = rest := by
  obtain ⟨t, hsent, hrest, hgo⟩ := cramBytes_zeros 0 len.toNat 0 hp hq
  have hall : cramBytes len.toNat 0 s = t.raise .ok := by rw [← Nat.zero_add len.toNat, hgo]; rfl
  rw [cramWrite_of_open len ho, hall]
  exact ⟨by simpa using ended_of_sent hsent ho .ok, hrest⟩

/-- Zeros and then a 1, before the last byte: the bytes before the 1 go out, and the rest of the queue is untouched. -/
theorem cramWrite_faulted {len : Word} {n : Nat} {rest : List Bool} (ho : s.cram.isOpen = true)
    (hp : s.cfg.plainWires = false) (hn : n < len.toNat)
    (hq : s.world.faults = List.replicate n false ++ true :: rest) :
    Ended s (cramWrite len s).settle ((s.buf.slice 0 n).flatMap cramByteEvents) .stream s.fpga
        ⟨true, s.cram.bytes + BitVec.ofNat 32 n⟩ s.flash ∧
      (cramWrite len s).world.faults = rest := by
  obtain ⟨m, hm⟩ := Nat.exists_eq_add_of_le' (Nat.succ_le_of_lt hn)
  obtain ⟨t, hsent, hqueue, hgo⟩ := cramBytes_zeros (m + 1) n 0 hp hq
  obtain ⟨hask, hemits, hrest⟩ := consult_queued (0 + n) (by rw [show t.cfg = s.cfg from hsent.wire.cfg, hp]) hqueue
  have hstop : cramBytes (m + 1) (0 + n) t = ((t.setIdx (0 + n)).consult (.cramWrite (0 + n))).2.raise .stream :=
    if_pos hask
  rw [cramWrite_of_open len ho, show len.toNat = m + 1 + n by omega, hgo, hstop]
  refine ⟨?_, hrest⟩
  simpa using ended_of_sent (sent_append hsent (sent_of_silent hemits)) ho .stream

/-! ### The write and the close read no transient register (R17) -/

theorem pulses_settle (p : Pin) (n : Nat) (s : State) : s.settle.pulses p n = (s.pulses p n).settle := by
  induction n generalizing s with
  | zero => rfl
  | succ n ih => exact ih (s.pulse p)

theorem shiftOutBits_congr (d c : Pin) (b : Byte) (n : Nat) (h : s.settle = t.settle) :
    (State.shiftOutBits d c b n s).settle = (State.shiftOutBits d c b n t).settle := by
  induction n generalizing s t with
  | zero => exact h
  | succ n ih => exact ih (congrArg (fun u => (u.drive d (b.getLsbD n)).pulse c) h)

theorem shiftOutCram_congr (b : Byte) (h : s.settle = t.settle) :
    (s.shiftOutCram b).settle = (t.shiftOutCram b).settle := by
  have hbits := shiftOutBits_congr .cDo .cSck b 8 h
  simp only [State.shiftOutCram]
  generalize State.shiftOutBits .cDo .cSck b 8 s = u at hbits ⊢
  generalize State.shiftOutBits .cDo .cSck b 8 t = v at hbits ⊢
  exact congrArg (fun w : State => { w with world := w.world.onCramByte w.cramSelected b }) hbits

/-- States that differ in the transient registers only send the same bytes. -/
theorem cramBytes_congr (n i : Nat) (h : s.settle = t.settle) :
    (cramBytes n i s).settle = (cramBytes n i t).settle := by
  induction n generalizing i s t with
  | zero => exact congrArg State.succeed h
  | succ n ih =>
    have hask : ((s.setIdx i).consult (.cramWrite i)).1 = ((t.setIdx i).consult (.cramWrite i)).1 :=
      congrArg (fun u => (u.consult (.cramWrite i)).1) h
    have hasked : ((s.setIdx i).consult (.cramWrite i)).2.settle = ((t.setIdx i).consult (.cramWrite i)).2.settle :=
      congrArg (fun u => (u.consult (.cramWrite i)).2) h
    have hbuf : ((s.setIdx i).consult (.cramWrite i)).2.buf = ((t.setIdx i).consult (.cramWrite i)).2.buf := by
      simpa using congrArg State.buf hasked
    simp only [cramBytes, hask, hbuf]
    split
    · exact congrArg (State.raise .stream) hasked
    · exact ih (i + 1) (congrArg State.countByte (shiftOutCram_congr _ hasked))

/-- A write after a command that has ended is a write where that command was about to end. -/
theorem cramWrite_settle (len : Word) (s : State) : (cramWrite len s.settle).settle = (cramWrite len s).settle := by
  cases ho : s.cram.isOpen
  · rw [cramWrite_of_closed len ho, cramWrite_of_closed (s := s.settle) len ho]
    rfl
  · rw [cramWrite_of_open len ho, cramWrite_of_open (s := s.settle) len ho]
    exact cramBytes_congr _ _ rfl

theorem trailSeen_settle (s : State) : trailSeen s.settle = (trailSeen s).settle := by
  unfold trailSeen
  rw [State.settle_cfg]
  split <;> rfl

/-- A close after a command that has ended is a close where that command was about to end. -/
theorem cramClose_settle (s : State) : cramClose s.settle = (cramClose s).settle := by
  have hclocks : ((s.settle.drive .cCs (!s.cfg.cramCsActive)).drive .cDo false).pulses .cSck s.cfg.trailClocks =
      (((s.drive .cCs (!s.cfg.cramCsActive)).drive .cDo false).pulses .cSck s.cfg.trailClocks).settle :=
    pulses_settle .cSck s.cfg.trailClocks ((s.drive .cCs (!s.cfg.cramCsActive)).drive .cDo false)
  cases ho : s.cram.isOpen
  · simp only [cramClose, State.settle_cram, ho, Bool.false_eq_true, if_false]
    rfl
  · simp only [cramClose, State.settle_cram, State.settle_cfg, ho, if_true, hclocks, trailSeen_settle]
    rfl

end

end Sys2Proof.Laws
end

section
/-! PROOFS. The statements of spec/42_cram_programmer.md. -/

namespace Sys2Proof.Proofs

open Sys2Proof.Machine Sys2Proof.Safety Sys2Proof.Laws

/-- Settles O29: the four ways of `cramOpen_cases` are the four clauses, each shut out of the other three by the device's
binding, by the session or by the oracle. -/
theorem cramOpenStartsASession : Obligations.CramOpenStartsASession := by
  intro s hclash
  rw [exec_cramOpen hclash]
  refine ⟨rfl, ?_⟩
  obtain ⟨hb, h⟩ | ⟨hb, ho, h⟩ | ⟨hb, ho, hq, h⟩ | ⟨hb, ho, hq, h⟩ := cramOpen_cases s
  · rw [h]
    simp only [hb, Bool.false_eq_true, false_implies, and_true, true_implies]
    rfl
  · rw [h]
    simp only [hb, ho, Bool.true_eq_false, false_implies, and_true, true_and, true_implies]
    rfl
  · rw [h]
    simp only [hb, ho, hq, Bool.true_eq_false, Bool.false_eq_true, false_implies, and_true, true_and, true_implies]
    rfl
  · simp only [hb, ho, hq, Bool.true_eq_false, Bool.false_eq_true, false_implies, true_and, true_implies]
    refine ⟨_, rfl, h, ?_⟩
    rw [h.pins]
    exact openEvents_leave s.cfg s.pins

/-- Settles O30: a byte's events are on C_DO and C_SCK, so C_CS stays as the open left it. -/
theorem cramWriteStreamsTheBuffer : Obligations.CramWriteStreamsTheBuffer := by
  intro len s
  refine ⟨rfl, fun ho => congrArg State.answer (cramWrite_of_closed len ho), fun ho => ?_⟩
  obtain ⟨n, k, hd, h⟩ := cramWrite_ends len ho
  have hoff : ∀ e ∈ (s.buf.slice 0 n).flatMap cramByteEvents, eventPin e ≠ .cCs := by
    intro e he
    obtain ⟨b, -, hb⟩ := List.mem_flatMap.mp he
    exact cramByteEvents_off_cCs b e hb
  refine ⟨n, k, _, rfl, hd, h, ?_⟩
  rw [h.pins]
  exact replayPins_get_of_forall_ne hoff s.pins

/-- Settles O31: no answer is ever 1, none of those asked for is, or the first 1 comes before a byte that is left. -/
theorem cramWriteFollowsTheOracle : Obligations.CramWriteFollowsTheOracle := by
  intro len s ho
  refine ⟨fun hp => ⟨_, rfl, cramWrite_plain len ho hp⟩, fun rest hp hq => ?_, fun n rest hn hp hq => ?_⟩
  · obtain ⟨h, hrest⟩ := cramWrite_quiet ho hp hq
    exact ⟨_, rfl, h, hrest⟩
  · obtain ⟨h, hrest⟩ := cramWrite_faulted ho hp hn hq
    exact ⟨_, rfl, h, hrest⟩

/-- Settles O32: the one buffer is the two cut at the length of the first, and by O31 each write sends the whole of its
own. -/
theorem cramWritesConcatenate : Obligations.CramWritesConcatenate := by
  intro a b m1 m2 s t u ho hp hab h1 h2 ht hu
  have hfirst := cramWrite_plain (s := { s with buf := m1 }) a ho hp
  rw [← answer_next ht] at hfirst
  have hsecond := cramWrite_plain (s := { t with buf := m2 }) b (by rw [hfirst.cram])
    (by rw [hfirst.cfg]; exact hp)
  rw [← answer_next hu] at hsecond
  have hwhole := cramWrite_plain (a + b) ho hp
  have hcut : s.buf.slice 0 (a + b).toNat = m1.slice 0 a.toNat ++ m2.slice 0 b.toNat := by
    rw [BitVec.toNat_add_of_lt hab, Memory.slice_add, Nat.zero_add, h1, h2]
  rw [hcut, List.flatMap_append] at hwhole
  refine ⟨_, rfl, ?_, ?_, ?_, ?_⟩
  · rw [hwhole.trace, hsecond.trace, hfirst.trace, List.append_assoc]
  · rw [hwhole.pins, hsecond.pins, hfirst.pins, replayPins_append]
  · rw [hwhole.cram, hsecond.cram, hfirst.cram, BitVec.add_assoc]
  · rw [hwhole.res, hsecond.res]

/-- Settles O33: in a session the invariant has C_SCK low, which the trailing clocks keep. -/
theorem cramCloseReleasesTheBus : Obligations.CramCloseReleasesTheBus := by
  intro s
  refine ⟨rfl, fun ho => ?_, fun ho => ?_⟩
  · exact congrArg State.answer (if_neg (by rw [ho]; exact Bool.false_ne_true))
  · have h := cramClose_spec ho
    obtain ⟨hcs, hdo, hsck⟩ := closeEvents_leave s.cfg s.pins
    rw [← h.pins] at hcs hdo hsck
    exact ⟨_, rfl, h, hcs, hdo, fun hinv => hsck (hinv.cramIdle ho).2⟩

/-- Settles O34: the write and the close that follow do not see that the transient registers are `U` again. -/
theorem cramLoadIsOpenWriteClose : Obligations.CramLoadIsOpenWriteClose := by
  intro len s
  refine ⟨rfl, ?_⟩
  have hload : exec (.cramLoad len) s = s.unlessClash (cramOpen s) (cramLoad len s).answer := rfl
  have hopen : exec .cramOpen s = s.unlessClash (cramOpen s) (cramOpen s).answer := rfl
  rw [hload, hopen]
  obtain h | h := unlessClash_cases s (cramOpen s)
  · rw [h, h]
  · rw [h, h]
    show State.answer (if (cramOpen s).succeeded = true then
          (cramClose (cramWrite len (cramOpen s))).withResult (cramWrite len (cramOpen s)).res
        else cramOpen s) =
      if (cramOpen s).res = Code.ok.byte then
        .next ((cramClose (cramWrite len (cramOpen s).settle).settle).settle.withResult
          (cramWrite len (cramOpen s).settle).settle.res)
      else .next (cramOpen s).settle
    rw [cramWrite_settle, cramClose_settle]
    simp only [succeeded_iff]
    split <;> rfl

/-- Settles O35: by O34 the load is the open of O29, the write of O30 in the session it opens, and the close of O33. -/
theorem cramLoadCompletes : Obligations.CramLoadCompletes := by
  intro len s hclash hb ho hq
  obtain ⟨-, -, -, -, hopen⟩ := cramOpenStartsASession s hclash
  obtain ⟨t, hexec, hend, -⟩ := hopen hb ho hq
  have hto : t.cram.isOpen = true := by rw [hend.cram]
  obtain ⟨-, -, hwrite⟩ := cramWriteStreamsTheBuffer len t
  obtain ⟨n, k, u, hexec', hd, hend', -⟩ := hwrite hto
  have hplain : s.cfg.plainWires = true → k = .ok := by
    intro hp
    obtain ⟨u', hexec'', hok⟩ := (cramWriteFollowsTheOracle len t hto).1 (by rw [hend.cfg, hp])
    obtain rfl := Host.Outcome.next.inj (hexec'.symm.trans hexec'')
    exact byte_injective (hend'.res.symm.trans hok.res)
  obtain ⟨-, -, hclose⟩ := cramCloseReleasesTheBus u
  obtain ⟨v, hexec'', hend'', -⟩ := hclose (by rw [hend'.cram])
  have hload : exec (.cramLoad len) s = .next (v.withResult u.res) := by
    rw [(cramLoadIsOpenWriteClose len s).2, hexec]
    simp only [hend.res, if_true, hexec', hexec'']
    rfl
  refine ⟨n, k, _, hload, hd, hplain, ?_⟩
  have hboth := ended_seq hend hend'
  have hall := ended_seq hboth hend''
  rw [hboth.cfg, hboth.fpga, hboth.cram, hboth.flash, hend.buf, hend.fpga, hend.cram, hend.flash] at hall
  simp only [zero_add] at hall
  rw [hend'.res]
  exact ended_with_code hall k

end Sys2Proof.Proofs
end

section
/-! SUPPORT. The Flash Driver (R160 to R168): how many events its lists hold, where its commands are answered, what an init
and a deinit leave of the bus, and what a status frame and a wait make of queued samples. -/

namespace Sys2Proof.Laws

open Sys2Proof.Machine Sys2Proof.Safety

/-! ### How many events a frame and a wait are -/

theorem byteOutEvents_length (d c : Pin) (b : Byte) : (byteOutEvents d c b).length = 24 := rfl

theorem byteInEvents_length (v : Byte) : (byteInEvents v).length = 24 := rfl

/-- R77, R109: two events of the chip-select, and 24 for each byte. -/
theorem frameEvents_length (c : Config) (bytes : List Byte) :
    (frameEvents c bytes).length = 2 + 24 * bytes.length := by
  have hbytes : (bytes.flatMap flashByteEvents).length = 24 * bytes.length := by
    simp [flashByteEvents, byteOutEvents_length, Nat.mul_comm]
  simp only [frameEvents, List.length_cons, List.length_append, List.length_nil, hbytes]
  omega

theorem statusEvents_length (c : Config) (v : Byte) : (statusEvents c v).length = 50 := rfl

theorem waitEvents_length (c : Config) (vs : List Byte) : (waitEvents c vs).length = 50 * vs.length := by
  simp [waitEvents, statusEvents_length, Nat.mul_comm]

theorem addrBytes_length (a : Addr) : (addrBytes a).length = 3 := rfl

theorem eraseEvents_length (c : Config) (a : Addr) (vs : List Byte) :
    (eraseEvents c a vs).length = 26 + 98 + 50 * vs.length := by
  simp only [eraseEvents, frameEvents_length, waitEvents_length, addrBytes_length, List.length_append,
    List.length_cons, List.length_nil]

theorem programEvents_length (c : Config) (a : Addr) (data vs : List Byte) :
    (programEvents c a data vs).length = 26 + 2 + 24 * (4 + data.length) + 50 * vs.length := by
  simp only [programEvents, frameEvents_length, waitEvents_length, addrBytes_length, List.length_append,
    List.length_cons, List.length_nil]
  omega

/-! ### What the events leave of the flash bus -/

/-- R161: the loader drives the three lines it owns, the chip deselected and the clock and the data low, and listens on the
fourth. -/
theorem initEvents_leave (c : Config) (r : Pins) :
    (replayPins (initEvents c) r).get .fCs = ⟨.output, Level.ofBit (!c.flashCsActive)⟩ ∧
      (replayPins (initEvents c) r).get .fSck = ⟨.output, .zero⟩ ∧
      (replayPins (initEvents c) r).get .fMosi = ⟨.output, .zero⟩ ∧
      (replayPins (initEvents c) r).get .fMiso = ⟨.input, (r.get .fMiso).lvl⟩ := by
  simp [initEvents, pinsAfter, Level.ofBit]

/-- R162: the four lines are inputs, and keep their latches. -/
theorem deinitEvents_leave (r : Pins) {p : Pin} (hp : p ∈ flashPins) :
    (replayPins deinitEvents r).get p = ⟨.input, (r.get p).lvl⟩ := by
  simp only [flashPins, List.mem_cons, List.not_mem_nil, or_false] at hp
  obtain rfl | rfl | rfl | rfl := hp <;> rfl

section
variable {s : State}

/-! ### Where a command or a frame is answered (R255, U5) -/

/-- What leaves the chip within its size is not refused. -/
theorem unlessBeyond_of_covers {n : Nat} {t : State} (h : flashCovers n t = true)
    (r : Host.Outcome State Fault Refusal) : s.unlessBeyond t r = r := by
  unfold State.unlessBeyond
  rw [covers_beyond h]
  split <;> rfl

theorem covers_of_no_flash (n : Nat) (h : s.world.flash = none) : flashCovers n s = true := by
  rw [flashCovers, h]

theorem exec_flashEraseSector {a : Addr} (h : flashCovers (a.toNat + 1) s = true) :
    exec (.flashEraseSector a) s = .next (eraseSector a s).settle :=
  unlessBeyond_of_covers (covers_erase a.toNat.lt_succ_self h) _

theorem exec_flashProgramPage {a : Addr} (len : Word) (h : flashCovers (a.toNat + 1) s = true) :
    exec (.flashProgramPage a len) s = .next (programPage a 0 len.toNat s).settle :=
  unlessBeyond_of_covers (covers_program a.toNat.lt_succ_self h) _

theorem exec_se {a : Addr} (h : flashCovers (a.toNat + 1) s = true) : exec (.se a) s = .next (frameSe a s) :=
  unlessBeyond_of_covers (covers_se a.toNat.lt_succ_self h) _

theorem exec_pp {a : Addr} (data : List Byte) (h : flashCovers (a.toNat + 1) s = true) :
    exec (.pp a data) s = .next (framePp a data s) :=
  unlessBeyond_of_covers (covers_pp a.toNat.lt_succ_self h) _

theorem unlessClash_of_no_session {held : State} (h : s.cfg.pinsAliased = false ∨ held.cram.isOpen = false)
    (r : Host.Outcome State Fault Refusal) : s.unlessClash held r = r := by
  unfold State.unlessClash
  obtain h | h := h
  · rw [if_neg (by rw [h]; exact Bool.false_ne_true)]
  · have hheld : held.busesBothHeld = false := by rw [State.busesBothHeld, h, Bool.false_and]
    rw [hheld, if_neg Bool.false_ne_true, ite_self]

/-- FLASH_INIT writes no register of the CRAM programmer (R169). -/
theorem flashInit_cramRegs (freq : Word) (s : State) : (flashInit freq s).cram = s.cram := by
  obtain ⟨k, -, h⟩ | ⟨-, -, h⟩ := flashInit_ends freq s
  · exact h.cram
  · exact h.cram

/-- FLASH_INIT is answered where it does not meet a session on aliased pins. -/
theorem exec_flashInit (freq : Word) (h : s.cfg.pinsAliased = false ∨ s.cram.isOpen = false) :
    exec (.flashInit freq) s = .next (flashInit freq s).settle :=
  unlessClash_of_no_session (by rwa [flashInit_cramRegs]) _

/-! ### Without a bracket (R167, R168) -/

theorem eraseSector_of_inactive (a : Addr) (h : s.flash.active = false) : eraseSector a s = s.raise .notInit :=
  if_neg (by rw [h]; exact Bool.false_ne_true)

theorem programPage_of_inactive (a : Addr) (start len : Nat) (h : s.flash.active = false) :
    programPage a start len s = s.raise .notInit :=
  if_neg (by rw [h]; exact Bool.false_ne_true)

/-! ### A status frame (R107, R166) -/

/-- A byte shifted in stands in `sh.byte` with its last bit (R17). -/
theorem shiftInBits_shByte (line : Option Byte) (n : Nat) (v : Byte) (s : State)
    (h : n = 0 → s.tmp.shByte = some v) :
    (State.shiftInBits line n v s).2.tmp.shByte = some (State.shiftInBits line n v s).1 := by
  induction n generalizing v s with
  | zero => exact h rfl
  | succ n ih => exact ih _ _ fun _ => rfl

theorem readStatus_shByte (s : State) : (readStatus s).2.tmp.shByte = some (readStatus s).1 := by
  simp only [readStatus, State.frameEnd, State.drive_tmp, State.shiftIn]
  exact shiftInBits_shByte _ 8 0 _ (by simp)

/-- The bits `n-1` down to 0 of a byte, in the order a `ShiftIn` samples them (R107). -/
def lowBits (v : Byte) : Nat → List Bool
  | 0 => []
  | n + 1 => v.getLsbD n :: lowBits v n

theorem lowBits_eight (v : Byte) : lowBits v 8 = bitsOf v := rfl

/-- Sampling a byte off the queue is sampling it off a line that spells it, with the queue already advanced (R103). -/
theorem shiftInBits_queued (w : Byte) (n : Nat) (v : Byte) (s : State) {rest : List Bool}
    (h : s.world.miso = lowBits w n ++ rest) :
    State.shiftInBits none n v s =
      State.shiftInBits (some w) n v { s with world := { s.world with miso := rest } } := by
  induction n generalizing v s with
  | zero =>
    rw [show rest = s.world.miso from h.symm]
    rfl
  | succ n ih =>
    have hsample : (s.drive .fSck true).sampleMiso none = (({ s with
        world := { s.world with miso := lowBits w n ++ rest } } : State).drive .fSck true).sampleMiso
          (some (w.getLsbD n)) := by
      have hdraw : s.world.nextMiso = (w.getLsbD n, { s.world with miso := lowBits w n ++ rest }) := by
        simp [World.nextMiso, h, lowBits]
      simp only [State.sampleMiso, drive_world_other (p := .fSck) (by decide) (by decide) (by decide), hdraw]
      rfl
    simp only [State.shiftInBits, Option.map_none, Option.map_some, hsample]
    exact ih _ _ rfl

theorem shiftInBits_line_world (w : Byte) (n : Nat) (v : Byte) (s : State) :
    (State.shiftInBits (some w) n v s).2.world = s.world := by
  induction n generalizing v s with
  | zero => rfl
  | succ n ih => exact ih _ _

theorem heard_of_no_flash {w : World} (h : w.flash = none) (sel : Bool) (g : RefFlash → RefFlash) :
    heard sel g w = w := by
  cases w
  cases sel
  · rfl
  · simp_all [heard]

/-- With no reference flash a `ShiftIn` returns the byte the queued samples spell, and consumes exactly these. -/
theorem shiftIn_queued {v : Byte} {rest : List Bool} (hf : s.world.flash = none)
    (hq : s.world.miso = bitsOf v ++ rest) :
    s.shiftIn.1 = v ∧ s.shiftIn.2.world = { s.world with miso := rest } := by
  have hreply : s.world.statusReply s.cfg s.flashSelected = (none, s.world) := by
    rw [World.statusReply, hf]
  rw [← lowBits_eight] at hq
  simp only [State.shiftIn, hreply]
  rw [shiftInBits_queued v 8 0 _ hq]
  exact ⟨shiftInBits_line 8 (le_refl 8) v 0 _ (by simp) fun i hi => by simp [BitVec.getLsbD_of_ge v i hi],
    shiftInBits_line_world v 8 0 _⟩

/-- With no reference flash a status frame reads the byte the queued samples spell, and consumes exactly these. -/
theorem readStatus_queued {v : Byte} {rest : List Bool} (hf : s.world.flash = none)
    (hq : s.world.miso = bitsOf v ++ rest) :
    (readStatus s).1 = v ∧ (readStatus s).2.world = { s.world with miso := rest } := by
  have hworld : (s.frameBegin.shiftOutFlash s.cfg.opRdsr).world = s.world := by
    rw [shiftOutFlash_world, frameBegin_world, heard_of_no_flash hf, heard_of_no_flash hf]
  obtain ⟨hbyte, hleft⟩ := shiftIn_queued (s := s.frameBegin.shiftOutFlash s.cfg.opRdsr) (by rw [hworld, hf])
    (by rw [hworld, hq])
  refine ⟨hbyte, ?_⟩
  simp only [readStatus]
  rw [frameEnd_world, hleft, hworld]
  exact heard_of_no_flash (w := { s.world with miso := rest }) hf _ _

/-! ### A wait on queued samples (R103, R166) -/

/-- One poll of a wait. -/
theorem poll_status (k : Nat) {v : Byte} {rest : List Bool} (hf : s.world.flash = none)
    (hq : s.world.miso = bitsOf v ++ rest) :
    (readStatus (s.setPoll k)).1 = v ∧ Emits (statusEvents s.cfg v) s (readStatus (s.setPoll k)).2 ∧
      (readStatus (s.setPoll k)).2.world = { s.world with miso := rest } := by
  obtain ⟨hbyte, hleft⟩ := readStatus_queued (s := s.setPoll k) hf hq
  refine ⟨hbyte, ?_, hleft⟩
  have hemits := (setPoll_emits k s).trans (readStatus_emits (s.setPoll k))
  rwa [hbyte] at hemits

/-- A wait takes the busy bytes at the head of the queue, one poll each, and goes on with the polls that are left. -/
theorem waitIdle_busy (n k : Nat) {busy : List Byte} {q : List Bool} (hf : s.world.flash = none)
    (hq : s.world.miso = busy.flatMap bitsOf ++ q) (hbusy : ∀ b ∈ busy, wipSet s.cfg b = true) :
    ∃ t, Emits (waitEvents s.cfg busy) s t ∧ t.world = { s.world with miso := q } ∧
      waitIdle (n + busy.length) k s = waitIdle n (k + busy.length) t := by
  induction busy generalizing k s with
  | nil =>
    refine ⟨s, .refl s, ?_, rfl⟩
    rw [show q = s.world.miso from hq.symm]
  | cons b busy ih =>
    obtain ⟨hb, hlater⟩ := List.forall_mem_cons.mp hbusy
    rw [List.flatMap_cons, List.append_assoc] at hq
    obtain ⟨hbyte, hemits, hworld⟩ := poll_status (k + 1) hf hq
    have hstep : waitIdle (n + (busy.length + 1)) k s =
        waitIdle (n + busy.length) (k + 1) (readStatus (s.setPoll (k + 1))).2 :=
      if_pos (by rw [hbyte, hb])
    obtain ⟨t, he, hw, hgo⟩ := ih (k + 1) (s := (readStatus (s.setPoll (k + 1))).2) (by rw [hworld, hf])
      (by rw [hworld]) (by rwa [hemits.cfg])
    rw [hemits.cfg] at he
    refine ⟨t, hemits.trans he, by rw [hw, hworld], ?_⟩
    rw [List.length_cons, hstep, hgo, Nat.add_right_comm, Nat.add_assoc]

/-- Busy bytes and then an idle one, within the polls: the wait ends at the idle one. -/
theorem waitIdle_turns_idle {n : Nat} (k : Nat) {busy : List Byte} {v : Byte} {rest : List Bool}
    (hf : s.world.flash = none) (hq : s.world.miso = (busy ++ [v]).flatMap bitsOf ++ rest)
    (hbusy : ∀ b ∈ busy, wipSet s.cfg b = true) (hv : wipSet s.cfg v = false) (hn : busy.length < n) :
    ∃ t, Emits (waitEvents s.cfg (busy ++ [v])) s t ∧ t.world = { s.world with miso := rest } ∧
      waitIdle n k s = (true, t) := by
  obtain ⟨m, rfl⟩ := Nat.exists_eq_add_of_le' (Nat.succ_le_of_lt hn)
  rw [List.flatMap_append, List.flatMap_singleton, List.append_assoc] at hq
  obtain ⟨t, he, hw, hgo⟩ := waitIdle_busy (m + 1) k hf hq hbusy
  obtain ⟨hbyte, hemits, hworld⟩ := poll_status (s := t) (k + busy.length + 1) (by rw [hw, hf]) (by rw [hw])
  have hidle : waitIdle (m + 1) (k + busy.length) t =
      (true, (readStatus (t.setPoll (k + busy.length + 1))).2) :=
    if_neg (by rw [hbyte, he.cfg, hv]; exact Bool.false_ne_true)
  refine ⟨_, ?_, by rw [hworld, hw], by rw [← hidle, ← hgo]; congr 1; omega⟩
  rw [he.cfg] at hemits
  rw [waitEvents, List.flatMap_append, List.flatMap_singleton]
  exact he.trans hemits

/-- As many busy bytes as polls: the wait times out with the rest of the queue untouched. -/
theorem waitIdle_times_out (k : Nat) {vs : List Byte} {rest : List Bool} (hf : s.world.flash = none)
    (hq : s.world.miso = vs.flatMap bitsOf ++ rest) (hbusy : ∀ b ∈ vs, wipSet s.cfg b = true) :
    ∃ t, Emits (waitEvents s.cfg vs) s t ∧ t.world = { s.world with miso := rest } ∧
      waitIdle vs.length k s = (false, t) := by
  obtain ⟨t, he, hw, hgo⟩ := waitIdle_busy 0 k hf hq hbusy
  rw [Nat.zero_add] at hgo
  exact ⟨t, he, hw, hgo⟩

/-- From `s` to `t` a command did what the events `es` and the code `k` say, and the environment noticed only that the
queued samples of F_MISO but `rest` were taken. -/
structure SampledTo (es : List Event) (k : Code) (rest : List Bool) (s t : State) : Prop where
  emits : EmitsRes es s t
  code : t.res = k.byte
  world : t.world = { s.world with miso := rest }

/-- The end of an erase or program by the outcome of its wait. -/
theorem awaitIdle_of_wait {es : List Event} {b : Bool} {rest : List Bool} {t : State} (he : Emits es s t)
    (hw : t.world = { s.world with miso := rest }) (hp : waitIdle s.cfg.wipPollMax 0 s = (b, t)) :
    SampledTo es (cond b .ok .wipTimeout) rest s (awaitIdle s) := by
  have hend : awaitIdle s = t.raise (cond b .ok .wipTimeout) := by
    rw [awaitIdle, hp]
    cases b <;> rfl
  rw [hend]
  exact ⟨he.toRes _, rfl, hw⟩

/-- The queue spells status bytes of which the last is the first idle one, or as many busy ones as there are polls: the
wait reads exactly these, and they decide the code. -/
theorem awaitIdle_queued {vs : List Byte} {k : Code} {rest : List Bool} (hf : s.world.flash = none)
    (hq : s.world.miso = vs.flatMap bitsOf ++ rest) (hd : waited s.cfg vs k) :
    SampledTo (waitEvents s.cfg vs) k rest s (awaitIdle s) := by
  obtain ⟨⟨busy, v, rfl, hbusy, hv, hmax⟩, rfl⟩ | ⟨⟨hlen, hbusy⟩, rfl⟩ := hd
  · rw [List.length_append] at hmax
    obtain ⟨t, he, hw, hp⟩ := waitIdle_turns_idle 0 hf hq hbusy hv hmax
    exact awaitIdle_of_wait he hw hp
  · obtain ⟨t, he, hw, hp⟩ := waitIdle_times_out 0 hf hq hbusy
    rw [hlen] at hp
    exact awaitIdle_of_wait he hw hp

/-- Frames that leave the environment alone, and then a wait on the queued samples. -/
theorem sampledTo_after {es : List Event} {vs : List Byte} {k : Code} {rest : List Bool} {t : State}
    (he : Emits es s t) (hw : t.world = s.world) (hf : s.world.flash = none)
    (hq : s.world.miso = vs.flatMap bitsOf ++ rest) (hd : waited s.cfg vs k) :
    SampledTo (es ++ waitEvents s.cfg vs) k rest s (awaitIdle t) := by
  rw [← hw] at hf hq
  rw [← he.cfg] at hd ⊢
  obtain ⟨hemits, hcode, hworld⟩ := awaitIdle_queued hf hq hd
  exact ⟨he.toEmitsRes.trans hemits, hcode, by rw [hworld, hw]⟩

theorem frameWren_world_of_no_flash (hf : s.world.flash = none) : (frameWren s).world = s.world := by
  rw [frameWren_world, heard_of_no_flash hf]

/-- FLASH_ERASE_SECTOR on queued samples: neither of its frames draws, so the wait meets the queue as the command found
it. -/
theorem eraseSector_queued (a : Addr) {vs : List Byte} {k : Code} {rest : List Bool} (ha : s.flash.active = true)
    (hf : s.world.flash = none) (hq : s.world.miso = vs.flatMap bitsOf ++ rest) (hd : waited s.cfg vs k) :
    SampledTo (eraseEvents s.cfg a vs) k rest s (eraseSector a s) := by
  have hwren := frameWren_world_of_no_flash hf
  have hse := frameSe_emits a (frameWren s)
  rw [(frameWren_emits s).cfg] at hse
  have hworld : (frameSe a (frameWren s)).world = s.world := by
    rw [frameSe_world, heard_of_no_flash (by rw [hwren, hf]), hwren]
  rw [eraseSector, if_pos ha]
  exact sampledTo_after ((frameWren_emits s).trans hse) hworld hf hq hd

/-- FLASH_PROGRAM_PAGE on queued samples, likewise. -/
theorem programPage_queued (a : Addr) (start len : Nat) {vs : List Byte} {k : Code} {rest : List Bool}
    (ha : s.flash.active = true) (hf : s.world.flash = none) (hq : s.world.miso = vs.flatMap bitsOf ++ rest)
    (hd : waited s.cfg vs k) :
    SampledTo (programEvents s.cfg a (s.buf.slice start (min len s.cfg.pageSize)) vs) k rest s
      (programPage a start len s) := by
  have hwren := frameWren_world_of_no_flash hf
  have hpp := framePp_emits a (s.buf.slice start (min len s.cfg.pageSize)) (frameWren s)
  rw [(frameWren_emits s).cfg] at hpp
  have hworld : (framePp a (s.buf.slice start (min len s.cfg.pageSize)) (frameWren s)).world = s.world := by
    rw [framePp_world, heard_of_no_flash (by rw [hwren, hf]), hwren]
  rw [programPage, if_pos ha]
  exact sampledTo_after ((frameWren_emits s).trans hpp) hworld hf hq hd

end

end Sys2Proof.Laws
end

section
/-! PROOFS. The statements of spec/43_flash_driver.md. -/

namespace Sys2Proof.Proofs

open Sys2Proof.Machine Sys2Proof.Safety Sys2Proof.Laws

/-- Settles O36: FLASH_CONFIG touches one register of the driver and the result, and draws nothing. -/
theorem flashConfigStoresTheFrequency : Obligations.FlashConfigStoresTheFrequency := fun _ _ => ⟨rfl, rfl⟩

/-- Settles O37: the three ways of `flashInit_cases` are the three clauses, each shut out of the other two by the frequency
or by the oracle. -/
theorem flashInitOpensABracket : Obligations.FlashInitOpensABracket := by
  intro freq s hclash
  rw [exec_flashInit freq hclash]
  refine ⟨rfl, ?_⟩
  obtain ⟨hz, h⟩ | ⟨hz, hq, h⟩ | ⟨hz, hq, h⟩ := flashInit_cases freq s
  · rw [h]
    simp only [hz, ne_eq, not_true_eq_false, false_implies, and_true, true_implies]
    rfl
  · rw [h]
    simp only [hz, hq, ne_eq, not_false_eq_true, Bool.false_eq_true, false_implies, and_true, true_and, true_implies]
    rfl
  · simp only [hz, hq, ne_eq, not_false_eq_true, Bool.true_eq_false, false_implies, true_and, true_implies]
    refine ⟨_, rfl, h, ?_⟩
    rw [h.pins]
    exact initEvents_leave s.cfg s.pins

/-- Settles O38: a deinit is its four events and two registers, from every state. -/
theorem flashDeinitReleasesTheBus : Obligations.FlashDeinitReleasesTheBus := by
  intro s
  have h := flashDeinit_spec s
  refine ⟨rfl, _, rfl, h, fun p hp => ?_⟩
  rw [h.pins]
  exact deinitEvents_leave s.pins hp

/-- Settles O39: the frames stay on the chip, and the wait's two ways to end are the command's. -/
theorem eraseSectorSendsWrenSeAndWaits : Obligations.EraseSectorSendsWrenSeAndWaits := by
  intro a s hcov
  rw [exec_flashEraseSector hcov]
  refine ⟨rfl, fun ha => ?_, fun ha => ?_⟩
  · rw [eraseSector_of_inactive a ha]
    rfl
  · obtain ⟨vs, he, hd⟩ := eraseSector_spec a ha
    obtain ⟨k, hwaited, hend⟩ := ended_of_waited he hd
    exact ⟨vs, k, _, rfl, hwaited, hend, eraseEvents_length s.cfg a vs⟩

/-- Settles O40: the frames stay on the chip, and the wait's two ways to end are the command's. -/
theorem programPageSendsWrenPpAndWaits : Obligations.ProgramPageSendsWrenPpAndWaits := by
  intro a len s hcov
  rw [exec_flashProgramPage len hcov]
  refine ⟨rfl, fun ha => ?_, fun ha => ?_⟩
  · rw [programPage_of_inactive a 0 len.toNat ha]
    rfl
  · obtain ⟨vs, he, hd⟩ := programPage_spec a 0 len.toNat ha
    obtain ⟨k, hwaited, hend⟩ := ended_of_waited he hd
    refine ⟨vs, k, _, rfl, hwaited, hend, ?_⟩
    rw [programEvents_length, Memory.slice_length]

/-- Settles O41: with no reference flash no address is beyond the chip, and the frames leave the queue to the wait. -/
theorem waitFollowsTheStatusSamples : Obligations.WaitFollowsTheStatusSamples := by
  intro a len s vs k rest ha hf hq hd
  have hcov := covers_of_no_flash (a.toNat + 1) hf
  have herase := eraseSector_queued a ha hf hq hd
  have hprogram := programPage_queued a 0 len.toNat ha hf hq hd
  exact ⟨⟨_, exec_flashEraseSector hcov, ended_of_emitsRes herase.emits herase.code, herase.world⟩,
    ⟨_, exec_flashProgramPage len hcov, ended_of_emitsRes hprogram.emits hprogram.code, hprogram.world⟩⟩

/-- Settles O42: WREN carries no address, so it is never refused. -/
theorem wrenFrameEvents : Obligations.WrenFrameEvents := fun s =>
  ⟨_, rfl, frameWren_emits s, frameEvents_length _ _⟩

/-- Settles O43: an address the chip has is not refused, and its bytes are three. -/
theorem seFrameEvents : Obligations.SeFrameEvents := fun a s hcov =>
  ⟨_, exec_se hcov, frameSe_emits a s, frameEvents_length _ _⟩

/-- Settles O44: an address the chip has is not refused, and the address and the data are one list of bytes out. -/
theorem ppFrameEvents : Obligations.PpFrameEvents := by
  intro a data s hcov
  refine ⟨_, exec_pp data hcov, framePp_emits a data s, ?_⟩
  rw [frameEvents_length, List.length_append]
  rfl

/-- Settles O45: the byte is the status frame's answer, whatever gives it; a queue that spells it is where it is from. -/
theorem rdsrFrameReadsTheStatusByte : Obligations.RdsrFrameReadsTheStatusByte := by
  intro s
  refine ⟨⟨_, _, rfl, readStatus_emits s, readStatus_shByte s, statusEvents_length _ _⟩, fun v rest hf hq => ?_⟩
  obtain ⟨hbyte, hworld⟩ := readStatus_queued hf hq
  have hemits := readStatus_emits s
  have hleft := readStatus_shByte s
  rw [hbyte] at hemits hleft
  exact ⟨_, rfl, hemits, hleft, hworld⟩

end Sys2Proof.Proofs
end

section
/-! SUPPORT. The plan of a length (R190): which sectors and pages it has, how long they are, and where they lie. -/

namespace Sys2Proof.Laws

open Sys2Proof.Machine Sys2Proof.Safety

/-! ### Rounding up -/

/-- A unit is below the rounded-up count exactly when it begins below the length. -/
theorem lt_ceilDiv_iff {a b k : Nat} (hb : 1 ≤ b) : k < ceilDiv a b ↔ k * b < a := by
  refine ⟨lt_ceilDiv, fun h => ?_⟩
  rw [ceilDiv, Nat.lt_iff_add_one_le, Nat.le_div_iff_mul_le hb, Nat.add_mul]
  omega

/-- A unit is below the rounded-up count exactly when it holds a byte of the length. -/
theorem lt_ceilDiv_iff_exists {a b k : Nat} (hb : 1 ≤ b) : k < ceilDiv a b ↔ ∃ o, o < a ∧ k = o / b := by
  rw [lt_ceilDiv_iff hb]
  refine ⟨fun h => ⟨k * b, h, (Nat.mul_div_cancel k hb).symm⟩, ?_⟩
  rintro ⟨o, ho, rfl⟩
  exact Nat.lt_of_le_of_lt (Nat.div_mul_le_self o b) ho

theorem ceilDiv_zero (b : Nat) : ceilDiv 0 b = 0 :=
  Nat.eq_zero_of_not_pos fun h => Nat.not_lt_zero _ (lt_ceilDiv h)

/-- The units cover the length. -/
theorem le_ceilDiv_mul (a : Nat) {b : Nat} (hb : 1 ≤ b) : a ≤ ceilDiv a b * b :=
  Nat.le_of_not_lt fun h => Nat.lt_irrefl _ ((lt_ceilDiv_iff hb).mpr h)

theorem ceilDiv_of_pos {a b : Nat} (ha : 1 ≤ a) (hb : 1 ≤ b) : ceilDiv a b = (a - 1) / b + 1 := by
  rw [ceilDiv, ← Nat.add_div_right _ hb, Nat.sub_add_comm ha]

/-! ### Sectors, pages and offsets -/

theorem sectOff_lt {c : Config} {len k : Nat} (h : k < nsect c len) : sectOff c k < len := lt_ceilDiv h

theorem pageOff_lt {c : Config} {len p : Nat} (h : p < npage c len) : pageOff c p < len := lt_ceilDiv h

theorem sectOff_le_succ (c : Config) (k : Nat) : sectOff c k ≤ sectOff c (k + 1) := Nat.mul_le_mul_right _ k.le_succ

theorem pageOff_le_succ (c : Config) (p : Nat) : pageOff c p ≤ pageOff c (p + 1) := Nat.mul_le_mul_right _ p.le_succ

theorem le_sectOff_nsect {c : Config} (len : Nat) (h : 1 ≤ c.sectorSize) : len ≤ sectOff c (nsect c len) :=
  le_ceilDiv_mul len h

theorem le_pageOff_npage {c : Config} (len : Nat) (h : 1 ≤ c.pageSize) : len ≤ pageOff c (npage c len) :=
  le_ceilDiv_mul len h

theorem pageLen_le (c : Config) (len p : Nat) : pageLen c len p ≤ c.pageSize := Nat.min_le_left ..

theorem pageLen_pos {c : Config} {len p : Nat} (hp : 1 ≤ c.pageSize) (h : pageOff c p < len) : 1 ≤ pageLen c len p :=
  Nat.le_min.mpr ⟨hp, Nat.sub_pos_of_lt h⟩

/-- The first `n` pages hold their full size, cut off at the length. -/
theorem sum_pageLen (c : Config) (len n : Nat) :
    ((List.range n).map (pageLen c len)).sum = min (n * c.pageSize) len := by
  induction n with
  | zero => simp
  | succ n ih =>
    rw [List.sum_range_succ, ih, pageLen, Nat.add_mul]
    omega

/-- An offset below `MAX_LEN` is sent whole (R80). -/
theorem toNat_planAddr {off : Nat} (h : off < Config.maxLen) : (planAddr off).toNat = off := by
  rw [planAddr, BitVec.toNat_ofNat]
  exact Nat.mod_eq_of_lt h

theorem toNat_planAddr_of_size {off : Nat} {size : FlashBytes} (h : off < size.val) : (planAddr off).toNat = off :=
  toNat_planAddr (Nat.lt_of_lt_of_le h (Nat.lt_succ_iff.mp size.isLt))

end Sys2Proof.Laws
end

section
/-! SUPPORT. The orchestration commands (R191 to R195): where they are answered, how they end where their init succeeds,
and what they make of queued status samples. -/

namespace Sys2Proof.Laws

open Sys2Proof.Machine Sys2Proof.Safety

section
variable {s t u : State}

/-! ### Where an orchestration is answered (R214, R255, U5) -/

theorem flashHeld_cramRegs (len : Word) (s : State) : (flashHeld len s).cram = s.cram := by
  unfold flashHeld
  split
  · rfl
  · exact flashInit_cramRegs _ s

/-- A command that may address the flash below `n` only, on a chip that has these bytes and with no session on aliased
pins. -/
theorem answered_of_covers {n : Nat} (len : Word) (hclash : s.cfg.pinsAliased = false ∨ s.cram.isOpen = false)
    (hcov : flashCovers n t = true) :
    s.unlessClash (flashHeld len s) (s.unlessBeyond t t.answer) = .next t.settle := by
  rw [unlessClash_of_no_session (by rwa [flashHeld_cramRegs]), unlessBeyond_of_covers hcov]
  rfl

theorem exec_flashWrite {len : Word} (hclash : s.cfg.pinsAliased = false ∨ s.cram.isOpen = false)
    (hcov : flashCovers len.toNat s = true) : exec (.flashWrite len) s = .next (flashWrite len s).settle :=
  answered_of_covers len hclash (covers_flashWrite hcov)

theorem exec_flashErase {len : Word} (hclash : s.cfg.pinsAliased = false ∨ s.cram.isOpen = false)
    (hcov : flashCovers len.toNat s = true) : exec (.flashErase len) s = .next (flashErase len s).settle :=
  answered_of_covers len hclash (covers_flashErase hcov)

theorem flashWrite_of_inRange {len : Word} (h : len.toNat ≤ Config.maxLen) :
    flashWrite len s = flashBracket (writePasses len.toNat) s := if_neg (Nat.not_lt.mpr h)

theorem flashErase_of_inRange {len : Word} (h : len.toNat ≤ Config.maxLen) :
    flashErase len s = flashBracket (fun t => erasePass (nsect t.cfg len.toNat) 0 t) s := if_neg (Nat.not_lt.mpr h)

/-! ### Inside a bracket that opens (R161, R194) -/

/-- FLASH_INIT where nothing turns it away. -/
theorem flashInit_opens {freq : Word} (h0 : freq ≠ 0) (hq : quietAt .flashInit s = true) :
    Ended s (flashInit freq s).settle (initEvents s.cfg) .ok s.fpga s.cram ⟨freq, true⟩ := by
  obtain ⟨hz, -⟩ | ⟨-, hfault, -⟩ | ⟨-, -, h⟩ := flashInit_cases freq s
  · exact absurd hz h0
  · exact absurd (hq.symm.trans hfault) (by decide)
  · exact h

/-- What a bracket finds after its init. -/
structure Opened (s t : State) : Prop where
  active : t.flash.active = true
  res : t.res = Code.ok.byte
  cfg : t.cfg = s.cfg
  buf : t.buf = s.buf

theorem opened_init {freq : Word} (h0 : freq ≠ 0) (hq : quietAt .flashInit s = true) :
    Opened s (flashInit freq s) := by
  have h := flashInit_opens h0 hq
  have hflash : (flashInit freq s).flash = ⟨freq, true⟩ := h.flash
  exact ⟨by rw [hflash], h.res, h.cfg, h.buf⟩

/-- After a deinit the four lines are inputs (R194, R162). -/
theorem lines_released {es : List Event} {k : Code} {f : FpgaRegs} {c : CramRegs} {l : FlashRegs}
    (h : Ended s t (es ++ deinitEvents) k f c l) : ∀ p ∈ flashPins, (t.pins.get p).dir = .input := by
  intro p hp
  rw [h.pins, replayPins_append, deinitEvents_leave _ hp]

theorem flashWrite_ends {len : Word} (hlen : len.toNat ≤ Config.maxLen) (h0 : s.flash.freqHz ≠ 0)
    (hq : quietAt .flashInit s = true) :
    ∃ sts pgs k, writeEnded s.cfg (nsect s.cfg len.toNat) (npage s.cfg len.toNat) sts pgs k ∧
      Ended s (flashWrite len s).settle (initEvents s.cfg ++ erasePassEvents s.cfg 0 sts ++
        programPassEvents s.cfg s.buf len.toNat 0 pgs ++ deinitEvents) k s.fpga s.cram ⟨s.flash.freqHz, false⟩ := by
  have hopen := opened_init h0 hq
  obtain ⟨sts, pgs, k, he, hd, hk⟩ := writePasses_spec len.toNat hopen.active hopen.res
  have hend := flashBracket_spec h0 hq he hk
  rw [hopen.cfg] at hd
  rw [hopen.cfg, hopen.buf, ← List.append_assoc] at hend
  rw [flashWrite_of_inRange hlen]
  exact ⟨sts, pgs, k, hd, hend⟩

theorem flashErase_ends {len : Word} (hlen : len.toNat ≤ Config.maxLen) (h0 : s.flash.freqHz ≠ 0)
    (hq : quietAt .flashInit s = true) :
    ∃ sts k, passEnded s.cfg (nsect s.cfg len.toNat) sts (Code.byte k) ∧
      Ended s (flashErase len s).settle (initEvents s.cfg ++ erasePassEvents s.cfg 0 sts ++ deinitEvents) k s.fpga s.cram
        ⟨s.flash.freqHz, false⟩ := by
  have hopen := opened_init h0 hq
  obtain ⟨sts, he, hd⟩ := erasePass_spec (nsect s.cfg len.toNat) 0 hopen.active hopen.res
  obtain ⟨k, hk, -⟩ := passEnded_code hd
  rw [hk, hopen.cfg] at hd
  rw [hopen.cfg] at he
  have hend := flashBracket_spec (op := fun t => erasePass (nsect t.cfg len.toNat) 0 t) h0 hq
    (by rw [hopen.cfg]; exact he) (by rw [hopen.cfg]; exact hk)
  rw [flashErase_of_inRange hlen]
  exact ⟨sts, k, hd, hend⟩

/-! ### Without units -/

theorem passEnded_zero {c : Config} {sts : List (List Byte)} {r : Byte} (h : passEnded c 0 sts r) :
    sts = [] ∧ r = Code.ok.byte := by
  obtain ⟨hlen, -, hr⟩ | ⟨done, last, rfl, hlen, -⟩ := h
  · exact ⟨List.length_eq_zero_iff.mp hlen, hr⟩
  · simp at hlen

theorem writeEnded_zero {c : Config} {sts pgs : List (List Byte)} {k : Code} (h : writeEnded c 0 0 sts pgs k) :
    sts = [] ∧ pgs = [] ∧ k = .ok := by
  obtain ⟨herase, hprogram⟩ | ⟨herase, -, -⟩ := h
  · obtain ⟨hpgs, hk⟩ := passEnded_zero hprogram
    exact ⟨(passEnded_zero herase).1, hpgs, byte_injective hk⟩
  · exact absurd (passEnded_zero herase).2 (by decide)

/-! ### A pass and its units -/

/-- One erase of the plan (R191). -/
def eraseUnit (k : Nat) (s : State) : State := eraseSector (planAddr (sectOff s.cfg k)) (s.setUnit k)

/-- One program of the plan (R191). -/
def programUnit (len p : Nat) (s : State) : State :=
  programPage (planAddr (pageOff s.cfg p)) (pageOff s.cfg p) (pageLen s.cfg len p) (s.setUnit p)

/-- `pass` runs `unit` for consecutive units, and stops at the first that fails. -/
structure IsPass (unit : Nat → State → State) (pass : Nat → Nat → State → State) : Prop where
  done : ∀ k s, pass 0 k s = s
  next : ∀ n k s, pass (n + 1) k s = if (unit k s).succeeded then pass n (k + 1) (unit k s) else unit k s

theorem erasePass_isPass : IsPass eraseUnit erasePass := ⟨fun _ _ => rfl, fun _ _ _ => rfl⟩

theorem programPass_isPass (len : Nat) : IsPass (programUnit len) (programPass len) :=
  ⟨fun _ _ => rfl, fun _ _ _ => rfl⟩

/-- `evs` lists the events `ev` of consecutive units. -/
structure ListsUnits (ev : Nat → List Byte → List Event) (evs : Nat → List (List Byte) → List Event) : Prop where
  nil : ∀ k, evs k [] = []
  cons : ∀ k vs rest, evs k (vs :: rest) = ev k vs ++ evs (k + 1) rest

theorem erasePassEvents_lists (c : Config) :
    ListsUnits (fun k => eraseEvents c (planAddr (sectOff c k))) (erasePassEvents c) :=
  ⟨fun _ => rfl, fun _ _ _ => rfl⟩

theorem programPassEvents_lists (c : Config) (m : Memory) (len : Nat) :
    ListsUnits (fun p => programEvents c (planAddr (pageOff c p)) (m.slice (pageOff c p) (pageLen c len p)))
      (programPassEvents c m len) :=
  ⟨fun _ => rfl, fun _ _ _ => rfl⟩

/-- The second pass is begun where the first has succeeded (R191, R195). -/
theorem writePasses_of_erased {len : Nat} (h : (erasePass (nsect s.cfg len) 0 s).succeeded = true) :
    writePasses len s = programPass len (npage s.cfg len) 0 (erasePass (nsect s.cfg len) 0 s) := if_pos h

/-! ### On queued status samples (R103) -/

theorem sampledTo_trans {es fs : List Event} {j k : Code} {q rest : List Bool} (h : SampledTo es j q s t)
    (h' : SampledTo fs k rest t u) : SampledTo (es ++ fs) k rest s u where
  emits := h.emits.trans h'.emits
  code := h'.code
  world := by rw [h'.world, h.world]

theorem sampledTo_of_setUnit {es : List Event} {k : Code} {rest : List Bool} {n : Nat}
    (h : SampledTo es k rest (s.setUnit n) t) : SampledTo es k rest s t :=
  ⟨(setUnit_emits n s).toEmitsRes.trans h.emits, h.code, h.world⟩

theorem opened_after {es : List Event} {rest : List Bool} (h : Opened s t) (h' : SampledTo es .ok rest t u) :
    Opened s u where
  active := by
    rw [h'.emits.flash]
    exact h.active
  res := h'.code
  cfg := h'.emits.cfg.trans h.cfg
  buf := h'.emits.buf.trans h.buf

/-- The queue spells, unit by unit, status bytes of which the last is the first idle one: a pass whose units read such
bytes reads exactly these. -/
theorem pass_queued {unit : Nat → State → State} {pass : Nat → Nat → State → State} {ev : Nat → List Byte → List Event}
    {evs : Nat → List (List Byte) → List Event} (hpass : IsPass unit pass) (hevs : ListsUnits ev evs)
    (hunit : ∀ k vs rest t, Opened s t → t.world.flash = none → t.world.miso = vs.flatMap bitsOf ++ rest →
      idleSeen s.cfg vs → SampledTo (ev k vs) .ok rest t (unit k t))
    (k : Nat) {sts : List (List Byte)} {rest : List Bool} (ht : Opened s t) (hf : t.world.flash = none)
    (hq : t.world.miso = sts.flatten.flatMap bitsOf ++ rest) (hidle : ∀ vs ∈ sts, idleSeen s.cfg vs) :
    SampledTo (evs k sts) .ok rest t (pass sts.length k t) := by
  induction sts generalizing k t with
  | nil =>
    rw [hevs.nil, List.length_nil, hpass.done]
    exact ⟨.refl t, ht.res, by rw [show rest = t.world.miso from hq.symm]⟩
  | cons vs sts ih =>
    obtain ⟨hfirst, hlater⟩ := List.forall_mem_cons.mp hidle
    rw [List.flatten_cons, List.flatMap_append, List.append_assoc] at hq
    have hdone := hunit k vs _ t ht hf hq hfirst
    have hrest := ih (k + 1) (opened_after ht hdone) (by rw [hdone.world]; exact hf) (by rw [hdone.world]) hlater
    rw [hevs.cons, List.length_cons, hpass.next, if_pos ((succeeded_iff _).mpr hdone.code)]
    exact sampledTo_trans hdone hrest

theorem erasePass_queued {sts : List (List Byte)} {rest : List Bool} (ht : Opened s t) (hf : t.world.flash = none)
    (hq : t.world.miso = sts.flatten.flatMap bitsOf ++ rest) (hidle : ∀ vs ∈ sts, idleSeen s.cfg vs) :
    SampledTo (erasePassEvents s.cfg 0 sts) .ok rest t (erasePass sts.length 0 t) := by
  refine pass_queued (s := s) erasePass_isPass (erasePassEvents_lists s.cfg) ?_ 0 ht hf hq hidle
  intro k vs rest u hu hf hq hidle
  rw [← hu.cfg] at hidle ⊢
  exact sampledTo_of_setUnit (eraseSector_queued _ (s := u.setUnit k) hu.active hf hq (.inl ⟨hidle, rfl⟩))

theorem programPass_queued (len : Nat) {pgs : List (List Byte)} {rest : List Bool} (ht : Opened s t)
    (hf : t.world.flash = none) (hq : t.world.miso = pgs.flatten.flatMap bitsOf ++ rest)
    (hidle : ∀ vs ∈ pgs, idleSeen s.cfg vs) :
    SampledTo (programPassEvents s.cfg s.buf len 0 pgs) .ok rest t (programPass len pgs.length 0 t) := by
  refine pass_queued (s := s) (programPass_isPass len) (programPassEvents_lists s.cfg s.buf len) ?_ 0 ht hf hq hidle
  intro p vs rest u hu hf hq hidle
  have hunit := programPage_queued (planAddr (pageOff u.cfg p)) (pageOff u.cfg p) (pageLen u.cfg len p)
    (s := u.setUnit p) hu.active hf hq (.inl ⟨by rwa [State.setUnit_cfg, hu.cfg], rfl⟩)
  rw [State.setUnit_cfg, Nat.min_eq_left (pageLen_le u.cfg len p)] at hunit
  rw [← hu.cfg, ← hu.buf]
  exact sampledTo_of_setUnit hunit

theorem writePasses_queued (len : Nat) {sts pgs : List (List Byte)} {rest : List Bool} (ht : Opened s t)
    (hf : t.world.flash = none) (hq : t.world.miso = (sts ++ pgs).flatten.flatMap bitsOf ++ rest)
    (hsts : sts.length = nsect s.cfg len) (hpgs : pgs.length = npage s.cfg len)
    (hidle : ∀ vs ∈ sts ++ pgs, idleSeen s.cfg vs) :
    SampledTo (erasePassEvents s.cfg 0 sts ++ programPassEvents s.cfg s.buf len 0 pgs) .ok rest t
      (writePasses len t) := by
  obtain ⟨hidle1, hidle2⟩ := List.forall_mem_append.mp hidle
  rw [List.flatten_append, List.flatMap_append, List.append_assoc] at hq
  have herased := erasePass_queued ht hf hq hidle1
  have hprogrammed := programPass_queued len (opened_after ht herased) (by rw [herased.world]; exact hf)
    (by rw [herased.world]) hidle2
  rw [hsts, ← ht.cfg] at herased
  rw [hsts, hpgs, ← ht.cfg] at hprogrammed
  rw [writePasses_of_erased ((succeeded_iff _).mpr herased.code), ← ht.cfg]
  exact sampledTo_trans herased hprogrammed

/-! ### The bracket on queued samples -/

theorem flashPinsOut_sameDraws (s : State) : SameDraws s.world (flashPinsOut s).world :=
  drive_sameDraws .fCs (!s.cfg.flashCsActive) s

theorem consult_miso (site : FaultSite) (s : State) : (s.consult site).2.world.miso = s.world.miso := by
  obtain ⟨q, n, hask⟩ := nextFault_world s.cfg site s.world
  exact congrArg World.miso (a₂ := { s.world with faults := q, nFault := n }) hask

/-- An init draws no sample of F_MISO. -/
theorem flashInit_miso (freq : Word) (s : State) : (flashInit freq s).world.miso = s.world.miso := by
  have hask := consult_miso .flashInit s
  simp only [flashInit]
  split
  · rfl
  · split
    · exact hask
    · rw [State.succeed_world, State.openBracket_world, (flashPinsOut_sameDraws (s.consult .flashInit).2).miso, hask]

/-- An init is no frame to a chip that is in none. -/
theorem flashInit_flash (freq : Word) (h : ∀ f, s.world.flash = some f → f.out = []) :
    (flashInit freq s).world.flash = s.world.flash := by
  have hask := consult_flash .flashInit s
  simp only [flashInit]
  split
  · rfl
  · split
    · exact hask
    · rw [State.succeed_world, State.openBracket_world, flashPinsOut_flash (by rwa [hask]), hask]

theorem flashInit_no_flash (freq : Word) (h : s.world.flash = none) : (flashInit freq s).world.flash = none := by
  rw [flashInit_flash freq (by simp [h]), h]

theorem flashBracket_of_opened {op : State → State} (h : Opened s (flashInit s.flash.freqHz s)) :
    flashBracket op s = (flashDeinit (op (flashInit s.flash.freqHz s))).withResult (op (flashInit s.flash.freqHz s)).res :=
  if_pos ((succeeded_iff _).mpr h.res)

/-- A bracket whose passes leave `rest` of the queue leaves `rest` of it. -/
theorem flashBracket_sampled {op : State → State} {es : List Event} {rest : List Bool} (h0 : s.flash.freqHz ≠ 0)
    (hq : quietAt .flashInit s = true)
    (hop : SampledTo es .ok rest (flashInit s.flash.freqHz s) (op (flashInit s.flash.freqHz s))) :
    Ended s (flashBracket op s).settle (initEvents s.cfg ++ es ++ deinitEvents) .ok s.fpga s.cram ⟨s.flash.freqHz, false⟩ ∧
      (flashBracket op s).settle.world.miso = rest := by
  refine ⟨flashBracket_spec h0 hq hop.emits hop.code, ?_⟩
  rw [flashBracket_of_opened (opened_init h0 hq), State.settle_world, State.withResult_world, flashDeinit_world, hop.world]

end

end Sys2Proof.Laws
end

section
/-! SUPPORT. What FLASH_WRITE leaves in the array of an idle reference flash (R191 with R56 to R59; log 11). -/

namespace Sys2Proof.Laws

open Sys2Proof.Machine Sys2Proof.Safety

/-! ### Contents of an array, changed on a range -/

/-- The contents `m` with `g` applied to the bytes from `lo` up to `hi`. -/
def changedOn (g : Nat → Byte → Byte) (lo hi : Nat) (m : Nat → Byte) (x : Nat) : Byte :=
  if lo ≤ x ∧ x < hi then g x (m x) else m x

theorem changedOn_in {g : Nat → Byte → Byte} {lo hi x : Nat} (m : Nat → Byte) (hlo : lo ≤ x) (hhi : x < hi) :
    changedOn g lo hi m x = g x (m x) := if_pos ⟨hlo, hhi⟩

theorem changedOn_out {g : Nat → Byte → Byte} {lo hi x : Nat} (m : Nat → Byte) (h : ¬(lo ≤ x ∧ x < hi)) :
    changedOn g lo hi m x = m x := if_neg h

theorem changedOn_empty (g : Nat → Byte → Byte) {lo hi : Nat} (m : Nat → Byte) (h : hi ≤ lo) :
    changedOn g lo hi m = m := funext fun _ => changedOn_out m (by omega)

/-- Two ranges that meet are one. -/
theorem changedOn_changedOn (g : Nat → Byte → Byte) {lo mid hi : Nat} (m : Nat → Byte) (h : lo ≤ mid) (h' : mid ≤ hi) :
    changedOn g mid hi (changedOn g lo mid m) = changedOn g lo hi m := by
  funext x
  by_cases hfirst : x < mid
  · rw [changedOn_out _ (by omega)]
    by_cases hlo : lo ≤ x
    · rw [changedOn_in m hlo hfirst, changedOn_in m hlo (by omega)]
    · rw [changedOn_out m (by omega), changedOn_out m (by omega)]
  · by_cases hhi : x < hi
    · rw [changedOn_in _ (by omega) hhi, changedOn_out m (by omega), changedOn_in m (by omega) hhi]
    · rw [changedOn_out _ (by omega), changedOn_out m (by omega), changedOn_out m (by omega)]

/-- What an erase makes of a byte (R57). -/
def eraseByte (_ : Nat) (_ : Byte) : Byte := Memory.blank

/-- What a program of the buffer, at the buffer's own offsets, makes of a byte (R58). -/
def programByte (buf : Memory) (x : Nat) (b : Byte) : Byte := b &&& buf.read x

/-- A byte programmed where the array is erased is the byte stored. -/
theorem programByte_blank (buf : Memory) (x : Nat) : programByte buf x Memory.blank = buf.read x :=
  BitVec.allOnes_and

/-! ### Where the frames of the plan store -/

theorem inSector_of_plan {c : Config} {a : Addr} {k : Nat} (ha : a.toNat = sectOff c k) (x : Nat) :
    inSector c a x ↔ sectOff c k ≤ x ∧ x < sectOff c (k + 1) := by
  have hbase : eraseBase c a = k * c.sectorSize := by
    rw [eraseBase, ha, sectOff, Nat.mul_mod_left, Nat.sub_zero]
  rw [inSector, hbase, sectOff, sectOff, Nat.succ_mul]

theorem programTarget_of_plan {c : Config} {a : Addr} {p i : Nat} (ha : a.toNat = pageOff c p) (hi : i < c.pageSize) :
    programTarget c a i = pageOff c p + i := by
  rw [programTarget, ha, pageOff, Nat.mul_mod_left, Nat.sub_zero, Nat.mul_add_mod_self_right,
    Nat.mod_eq_of_lt hi]

theorem inProgram_of_plan {c : Config} {a : Addr} {len p : Nat} (ha : a.toNat = pageOff c p) (x : Nat) :
    inProgram c a (pageLen c len p) x ↔ pageOff c p ≤ x ∧ x < min (pageOff c (p + 1)) len := by
  have hle := pageLen_le c len p
  have hend : pageOff c (p + 1) = pageOff c p + c.pageSize := Nat.succ_mul ..
  have hlen : pageLen c len p = min c.pageSize (len - pageOff c p) := rfl
  refine ⟨?_, fun hx => ⟨x - pageOff c p, by omega, ?_⟩⟩
  · rintro ⟨i, hi, rfl⟩
    rw [programTarget_of_plan ha (by omega)]
    omega
  · rw [programTarget_of_plan ha (by omega)]
    omega

section
variable {s t u : State} {f : RefFlash} {size : FlashBytes} {m : Nat → Byte}

/-! ### The chip along the passes -/

/-- `t` is in the bracket that `s` opened, on an idle reference flash of this size whose array reads as `m`. -/
structure Holds (s : State) (size : FlashBytes) (m : Nat → Byte) (t : State) : Prop where
  opened : Opened s t
  chip : ∃ g, HearsIdle t g ∧ g.mem.wf ∧ g.size = size ∧ g.mem.read = m

theorem hearsIdle_after {es : List Event} {g : RefFlash} (h : HearsIdle s f) (he : EmitsRes es s t)
    (hes : ∀ p d, Event.dir p d ∉ es) (hg : t.world.flash = some g) (ho : g.out = []) (hb : g.busy = 0) :
    HearsIdle t g where
  distinct := by
    rw [he.cfg]
    exact h.distinct
  active := by
    rw [he.flash]
    exact h.active
  selected := (Emits.flashSelected he hes).trans h.selected
  here := hg
  silent := ho
  idle := hb

theorem holds_setUnit (k : Nat) (h : Holds s size m t) : Holds s size m (t.setUnit k) := by
  obtain ⟨⟨ha, hr, hcfg, hbuf⟩, g, hg, hwf, hsize, hread⟩ := h
  exact ⟨⟨ha, hr, hcfg, hbuf⟩, g, hearsIdle_after hg (setUnit_emits k t).toEmitsRes (by simp) hg.here hg.silent hg.idle,
    hwf, hsize, hread⟩

/-- A unit that ends with `OK` leaves the bracket to the next with the array it made. -/
theorem holds_after {es : List Event} {S : Nat → Prop} {g : RefFlash} {m' : Nat → Byte} (hopen : Opened s t)
    (hf : HearsIdle t f) (he : EmitsRes es t u) (hes : ∀ p d, Event.dir p d ∉ es) (hok : u.res = Code.ok.byte)
    (hkept : KeptOutside S f u) (hg : u.world.flash = some g) (hb : g.busy = 0) (hread : g.mem.read = m') :
    Holds s f.size m' u := by
  obtain ⟨g', hg', hout, hwf, hsize, -⟩ := hkept
  obtain rfl : g = g' := Option.some.inj (hg.symm.trans hg')
  refine ⟨⟨?_, hok, he.cfg.trans hopen.cfg, he.buf.trans hopen.buf⟩, g, hearsIdle_after hf he hes hg hout hb, hwf, hsize,
    hread⟩
  rw [he.flash]
  exact hopen.active

/-- FLASH_ERASE_SECTOR at a sector of the plan erases from the sector's offset to the next one's. -/
theorem eraseSector_holds {a : Addr} {k : Nat} (h : Holds s size m t) (ha : a.toNat = sectOff s.cfg k)
    (hin : a.toNat < size.val) (hok : (eraseSector a t).res = Code.ok.byte) :
    Holds s size (changedOn eraseByte (sectOff s.cfg k) (sectOff s.cfg (k + 1)) m) (eraseSector a t) := by
  obtain ⟨hopen, f, hf, hwf, rfl, rfl⟩ := h
  obtain ⟨g, hg, hblank, hsame, -, hb⟩ := eraseSector_erases hf hin
  obtain ⟨vs, he, -⟩ := eraseSector_spec a hopen.active
  have hkept : KeptOutside (inSector t.cfg a) f (eraseSector a t) :=
    kept_erase (fun _ hx => hx) ⟨f, hf.here, hf.silent, hwf, rfl, fun _ _ => rfl⟩
  have hrange (x : Nat) : inSector t.cfg a x ↔ sectOff s.cfg k ≤ x ∧ x < sectOff s.cfg (k + 1) := by
    rw [hopen.cfg]
    exact inSector_of_plan ha x
  refine holds_after hopen hf he (rests_eraseEvents _ _ _).noDir hok hkept hg (hb hok) (funext fun x => ?_)
  by_cases hx : inSector t.cfg a x
  · obtain ⟨hlo, hhi⟩ := (hrange x).mp hx
    rw [hblank x hx, changedOn_in _ hlo hhi]
    rfl
  · rw [hsame x hx, changedOn_out _ (mt (hrange x).mpr hx)]

/-- FLASH_PROGRAM_PAGE at a page of the plan programs from the page's offset to the next one's, or to the length. -/
theorem programPage_holds {a : Addr} {len p : Nat} (h : Holds s size m t) (ha : a.toNat = pageOff s.cfg p)
    (hin : a.toNat < size.val) (hpage : 1 ≤ s.cfg.pageSize) (hp : pageOff s.cfg p < len)
    (hok : (programPage a (pageOff s.cfg p) (pageLen s.cfg len p) t).res = Code.ok.byte) :
    Holds s size (changedOn (programByte s.buf) (pageOff s.cfg p) (min (pageOff s.cfg (p + 1)) len) m)
      (programPage a (pageOff s.cfg p) (pageLen s.cfg len p) t) := by
  obtain ⟨hopen, f, hf, hwf, rfl, rfl⟩ := h
  have hcut : min (pageLen s.cfg len p) t.cfg.pageSize = pageLen s.cfg len p := by
    rw [hopen.cfg]
    exact Nat.min_eq_left (pageLen_le s.cfg len p)
  obtain ⟨g, hg, hand, hsame, -, hb⟩ := programPage_programs (start := pageOff s.cfg p) (len := pageLen s.cfg len p) hf
    hwf hin (by rw [hcut]; exact pageLen_pos hpage hp)
  obtain ⟨vs, he, -⟩ := programPage_spec a (pageOff s.cfg p) (pageLen s.cfg len p) hopen.active
  have hkept : KeptOutside (fun _ => True) f (programPage a (pageOff s.cfg p) (pageLen s.cfg len p) t) :=
    kept_program hf.distinct (fun _ _ => trivial) ⟨f, hf.here, hf.silent, hwf, rfl, fun _ _ => rfl⟩
  rw [hcut, hopen.cfg] at hand hsame
  refine holds_after hopen hf he (rests_programEvents _ _ _ _).noDir hok hkept hg (hb hok) (funext fun x => ?_)
  have hrange := inProgram_of_plan (len := len) ha x
  by_cases hx : inProgram s.cfg a (pageLen s.cfg len p) x
  · obtain ⟨hlo, hhi⟩ := hrange.mp hx
    obtain ⟨n, hn, rfl⟩ := hx
    have htarget := programTarget_of_plan ha (Nat.lt_of_lt_of_le hn (pageLen_le s.cfg len p))
    rw [hand n hn, changedOn_in _ hlo hhi, htarget, hopen.buf]
    rfl
  · rw [hsame x hx, changedOn_out _ (mt hrange.mpr hx)]

/-- A pass that ends with `OK` has run every unit, and each with `OK`: what every such unit keeps going, the pass does. -/
theorem pass_keeps {unit : Nat → State → State} {pass : Nat → Nat → State → State} {P : Nat → State → Prop} {last : Nat}
    (hpass : IsPass unit pass)
    (hunit : ∀ k t, k < last → P k t → (unit k t).res = Code.ok.byte → P (k + 1) (unit k t))
    (n k : Nat) (hlast : k + n = last) (ht : P k t) (hok : (pass n k t).res = Code.ok.byte) :
    P last (pass n k t) := by
  induction n generalizing k t with
  | zero =>
    rw [hpass.done, ← hlast]
    exact ht
  | succ n ih =>
    rw [hpass.next] at hok ⊢
    by_cases hs : (unit k t).succeeded = true
    · rw [if_pos hs] at hok ⊢
      exact ih (k + 1) (by omega) (hunit k t (by omega) ht ((succeeded_iff _).mp hs)) hok
    · rw [if_neg hs] at hok
      exact absurd ((succeeded_iff _).mpr hok) hs

/-- The erase pass erases the plan's sectors (R191). -/
theorem erasePass_holds {n : Nat} (h : Holds s size m t) (hin : ∀ k, k < n → sectOff s.cfg k < size.val)
    (hok : (erasePass n 0 t).res = Code.ok.byte) :
    Holds s size (changedOn eraseByte 0 (sectOff s.cfg n) m) (erasePass n 0 t) := by
  refine pass_keeps (P := fun k => Holds s size (changedOn eraseByte 0 (sectOff s.cfg k) m)) erasePass_isPass
    (fun k u hk hu hdone => ?_) n 0 (Nat.zero_add n) ?_ hok
  · have haddr := toNat_planAddr_of_size (hin k hk)
    rw [eraseUnit, hu.opened.cfg] at hdone ⊢
    have hnext := eraseSector_holds (holds_setUnit k hu) haddr (by rw [haddr]; exact hin k hk) hdone
    rwa [changedOn_changedOn _ _ (Nat.zero_le _) (sectOff_le_succ s.cfg k)] at hnext
  · rwa [changedOn_empty _ _ (by simp [sectOff])]

/-- The program pass programs the plan's pages (R191). -/
theorem programPass_holds {len n : Nat} (h : Holds s size m t) (hpage : 1 ≤ s.cfg.pageSize) (hsize : len ≤ size.val)
    (hin : ∀ p, p < n → pageOff s.cfg p < len) (hok : (programPass len n 0 t).res = Code.ok.byte) :
    Holds s size (changedOn (programByte s.buf) 0 (min (pageOff s.cfg n) len) m) (programPass len n 0 t) := by
  refine pass_keeps (P := fun p => Holds s size (changedOn (programByte s.buf) 0 (min (pageOff s.cfg p) len) m))
    (programPass_isPass len) (fun p u hp hu hdone => ?_) n 0 (Nat.zero_add n) ?_ hok
  · have hlt := Nat.lt_of_lt_of_le (hin p hp) hsize
    have haddr := toNat_planAddr_of_size hlt
    rw [Nat.min_eq_left (Nat.le_of_lt (hin p hp))] at hu
    rw [programUnit, hu.opened.cfg] at hdone ⊢
    have hnext := programPage_holds (holds_setUnit p hu) haddr (by rwa [haddr]) hpage (hin p hp) hdone
    rwa [changedOn_changedOn _ _ (Nat.zero_le _) (Nat.le_min.mpr ⟨pageOff_le_succ s.cfg p, Nat.le_of_lt (hin p hp)⟩)] at hnext
  · rwa [changedOn_empty _ _ (by simp [pageOff])]

theorem writePasses_ok {len : Nat} (hok : (writePasses len s).res = Code.ok.byte) :
    (erasePass (nsect s.cfg len) 0 s).res = Code.ok.byte ∧
      writePasses len s = programPass len (npage s.cfg len) 0 (erasePass (nsect s.cfg len) 0 s) := by
  have hsucc : (erasePass (nsect s.cfg len) 0 s).succeeded = true := by
    by_contra hs
    have hstop : writePasses len s = erasePass (nsect s.cfg len) 0 s := if_neg hs
    exact hs ((succeeded_iff _).mpr (by rwa [← hstop]))
  exact ⟨(succeeded_iff _).mp hsucc, writePasses_of_erased hsucc⟩

/-- Both passes of a length, as the plan's ends cut them. -/
theorem writePasses_holds {len : Nat} (h : Holds s size m t) (hpage : 1 ≤ s.cfg.pageSize) (hsize : len ≤ size.val)
    (hok : (writePasses len t).res = Code.ok.byte) :
    Holds s size (changedOn (programByte s.buf) 0 len (changedOn eraseByte 0 (sectOff s.cfg (nsect s.cfg len)) m))
      (writePasses len t) := by
  obtain ⟨herased, hgo⟩ := writePasses_ok hok
  rw [hgo] at hok ⊢
  rw [h.opened.cfg] at hok herased ⊢
  have hfirst := erasePass_holds h (fun k hk => Nat.lt_of_lt_of_le (sectOff_lt hk) hsize) herased
  have hboth := programPass_holds hfirst hpage hsize (fun p hp => pageOff_lt hp) hok
  rwa [Nat.min_eq_right (le_pageOff_npage len hpage)] at hboth

/-! ### The whole command -/

theorem sizes_of_ok {c : Config} (h : c.ok = true) : 1 ≤ c.sectorSize ∧ 1 ≤ c.pageSize := by
  simp only [Config.ok, Bool.and_eq_true, decide_eq_true_eq] at h
  obtain ⟨⟨hsizes, -⟩, -⟩ := h
  exact hsizes

theorem holds_init (hs : Inv s) (hd : s.cfg.framesDistinct = true) (hf : s.world.flash = some f) (hb : f.busy = 0)
    {freq : Word} (h0 : freq ≠ 0) (hq : quietAt .flashInit s = true) :
    Holds s f.size f.mem.read (flashInit freq s) := by
  obtain ⟨hmem, hout, -⟩ := hs.flashReady f hf
  have hopen := opened_init h0 hq
  have hsilent : ∀ g, s.world.flash = some g → g.out = [] := fun g hg => (hs.flashReady g hg).2.1
  refine ⟨hopen, f, ⟨?_, hopen.active, ?_, (flashInit_flash freq hsilent).trans hf, hout, hb⟩, hmem, rfl, rfl⟩
  · rw [hopen.cfg]
    exact hd
  · have hpins : (flashInit freq s).pins = replayPins (initEvents s.cfg) s.pins := (flashInit_opens h0 hq).pins
    rw [State.flashSelected, hpins, (initEvents_leave s.cfg s.pins).1]
    rfl

/-- A bracket that ends with `OK` was opened. -/
theorem flashBracket_ok {op : State → State} (hok : (flashBracket op s).res = Code.ok.byte) :
    s.flash.freqHz ≠ 0 ∧ quietAt .flashInit s = true := by
  obtain hr | ⟨h0, hq, -⟩ := flashInit_ends s.flash.freqHz s
  · have hfail := not_succeeded_of_rejectedTo (by decide) hr
    have hstop : flashBracket op s = flashInit s.flash.freqHz s := if_neg hfail
    rw [hstop] at hok
    exact absurd ((succeeded_iff _).mpr hok) hfail
  · exact ⟨h0, hq⟩

theorem flashWrite_ok_inRange {len : Word} (hok : (flashWrite len s).res = Code.ok.byte) :
    len.toNat ≤ Config.maxLen := by
  by_contra hlen
  have hstop : flashWrite len s = s.raise .range := if_pos (Nat.lt_of_not_le hlen)
  rw [hstop] at hok
  exact absurd (byte_injective (a := .range) (b := .ok) hok) (by decide)

/-- FLASH_WRITE that ends with `OK` leaves the plan's sectors erased and the buffer programmed into them (R191). -/
theorem flashWrite_stores {len : Word} (hs : Inv s) (hd : s.cfg.framesDistinct = true) (hpage : 1 ≤ s.cfg.pageSize)
    (hf : s.world.flash = some f) (hb : f.busy = 0) (hsize : len.toNat ≤ f.size.val)
    (hok : (flashWrite len s).res = Code.ok.byte) :
    ∃ g, (flashWrite len s).world.flash = some g ∧ g.mem.read =
      changedOn (programByte s.buf) 0 len.toNat
        (changedOn eraseByte 0 (sectOff s.cfg (nsect s.cfg len.toNat)) f.mem.read) := by
  have hlen := flashWrite_ok_inRange hok
  rw [flashWrite_of_inRange hlen] at hok ⊢
  obtain ⟨h0, hq⟩ := flashBracket_ok hok
  rw [flashBracket_of_opened (opened_init h0 hq), State.withResult_res] at hok
  rw [flashBracket_of_opened (opened_init h0 hq), State.withResult_world, flashDeinit_world]
  obtain ⟨-, g, hg, -, -, hread⟩ := writePasses_holds (holds_init hs hd hf hb h0 hq) hpage hsize hok
  exact ⟨g, hg.here, hread⟩

end

end Sys2Proof.Laws
end

section
/-! PROOFS. The statements of spec/44_flash_orchestration.md. -/

namespace Sys2Proof.Proofs

open Sys2Proof.Machine Sys2Proof.Safety Sys2Proof.Laws

/-- Settles O46: sectors and pages are both a rounded-up division, whose laws are those of `ceilDiv`; the page lengths sum
to the length because the pages cover it. -/
theorem planLaws : Obligations.PlanLaws := by
  intro c hsector hpage
  refine ⟨ceilDiv_zero _, ceilDiv_zero _, rfl, rfl, rfl, fun len => ?_⟩
  refine ⟨rfl, rfl, fun _ => rfl, fun _ => rfl, fun _ => rfl, fun _ => lt_ceilDiv_iff hsector,
    fun _ => lt_ceilDiv_iff_exists hsector, fun _ => lt_ceilDiv_iff hpage,
    fun p hp => ⟨pageLen_pos hpage (pageOff_lt hp), pageLen_le c len p⟩, ?_, fun hlen => ceilDiv_of_pos hlen hsector,
    fun hmax k hk => ?_, fun hmax p hp => ?_⟩
  · rw [sum_pageLen]
    exact Nat.min_eq_right (le_pageOff_npage len hpage)
  · exact toNat_planAddr (Nat.lt_of_lt_of_le (sectOff_lt hk) hmax)
  · exact toNat_planAddr (Nat.lt_of_lt_of_le (pageOff_lt hp) hmax)

/-- Settles O47: the length keeps every frame on the chip, so the command is answered with what `flashWrite_ends` says. -/
theorem flashWriteErasesThenPrograms : Obligations.FlashWriteErasesThenPrograms := by
  intro len s hclash hcov hlen h0 hq
  obtain ⟨sts, pgs, k, hd, hend⟩ := flashWrite_ends hlen h0 hq
  exact ⟨sts, pgs, k, _, exec_flashWrite hclash hcov, hd, hend, lines_released hend⟩

/-- Settles O48: as O47, with the first pass alone. -/
theorem flashEraseErasesThePlan : Obligations.FlashEraseErasesThePlan := by
  intro len s hclash hcov hlen h0 hq
  obtain ⟨sts, k, hd, hend⟩ := flashErase_ends hlen h0 hq
  exact ⟨sts, k, _, exec_flashErase hclash hcov, hd, hend, lines_released hend⟩

/-- Settles O49: the init leaves the queue to the waits, and each wait takes its own samples and leaves the rest to the
next. -/
theorem orchestrationFollowsTheStatusSamples : Obligations.OrchestrationFollowsTheStatusSamples := by
  intro len s sts pgs rest hclash hf hlen h0 hquiet hsts hpgs hidle
  have hcov := covers_of_no_flash len.toNat hf
  have hopen := opened_init h0 hquiet
  have hmiso := flashInit_miso s.flash.freqHz s
  have hflash := flashInit_no_flash s.flash.freqHz hf
  refine ⟨fun hq => ?_, fun hq => ?_⟩
  · have hpasses := writePasses_queued len.toNat hopen hflash (hmiso.trans hq) hsts hpgs hidle
    obtain ⟨hend, hrest⟩ := flashBracket_sampled h0 hquiet hpasses
    rw [← flashWrite_of_inRange hlen] at hend hrest
    rw [← List.append_assoc] at hend
    exact ⟨_, exec_flashWrite hclash hcov, hend, hrest⟩
  · have hpass := erasePass_queued hopen hflash (hmiso.trans hq) (List.forall_mem_append.mp hidle).1
    rw [hsts, ← hopen.cfg] at hpass
    obtain ⟨hend, hrest⟩ := flashBracket_sampled (op := fun t => erasePass (nsect t.cfg len.toNat) 0 t) h0 hquiet hpass
    rw [← flashErase_of_inRange hlen] at hend hrest
    rw [hopen.cfg] at hend
    exact ⟨_, exec_flashErase hclash hcov, hend, hrest⟩

/-- Settles O57: the passes leave the buffer programmed over erased sectors; a byte of the buffer anded into an erased byte
is the byte itself, behind the length only the erase is seen, and behind the last sector neither. -/
theorem flashWriteStoresTheBuffer : Obligations.FlashWriteStoresTheBuffer := by
  intro len s t f hs hcfg hd hcov hf hb hexec hres
  obtain ⟨hsector, hpage⟩ := sizes_of_ok hcfg
  obtain rfl := exec_command_next rfl hexec
  obtain ⟨g, hg, hread⟩ := flashWrite_stores hs hd hpage hf hb (covers_size hcov hf) hres
  have hcover := le_sectOff_nsect len.toNat hsector
  refine ⟨g, hg, fun x hx => ?_, fun x hx hx' => ?_, fun x hx => ?_⟩
  · rw [hread, changedOn_in _ (Nat.zero_le x) hx, changedOn_in _ (Nat.zero_le x) (Nat.lt_of_lt_of_le hx hcover)]
    exact programByte_blank s.buf x
  · rw [hread, changedOn_out _ (by omega)]
    exact changedOn_in _ (Nat.zero_le x) hx'
  · have hbehind : sectOff s.cfg (nsect s.cfg len.toNat) ≤ x := hx
    rw [hread, changedOn_out _ (by omega), changedOn_out _ (by omega)]

/-- Settles O51: a plan of 0 has no unit, so no wait can time out and only the bracket's events are left. -/
theorem emptyLengthRunsTheBracketAlone : Obligations.EmptyLengthRunsTheBracketAlone := by
  intro s _ hclash hcov h0 hq i hi
  have hsectors : nsect s.cfg (0 : Word).toNat = 0 := ceilDiv_zero _
  have hpages : npage s.cfg (0 : Word).toNat = 0 := ceilDiv_zero _
  simp only [List.mem_cons, List.not_mem_nil, or_false] at hi
  obtain rfl | rfl := hi
  · obtain ⟨sts, k, hd, hend⟩ := flashErase_ends (len := 0) (Nat.zero_le _) h0 hq
    rw [hsectors] at hd
    obtain ⟨rfl, hk⟩ := passEnded_zero hd
    obtain rfl := byte_injective hk
    exact ⟨_, exec_flashErase hclash hcov, by simpa [erasePassEvents] using hend⟩
  · obtain ⟨sts, pgs, k, hd, hend⟩ := flashWrite_ends (len := 0) (Nat.zero_le _) h0 hq
    rw [hsectors, hpages] at hd
    obtain ⟨rfl, rfl, rfl⟩ := writeEnded_zero hd
    exact ⟨_, exec_flashWrite hclash hcov, by simpa [erasePassEvents, programPassEvents] using hend⟩

end Sys2Proof.Proofs
end

section
/-! SUPPORT. How commands are turned away (R214 to R216, R218): the codes of each row, and that a command with one of the
codes of R215's first row did nothing but answer it, having asked the oracle once at most. -/

namespace Sys2Proof.Laws

open Sys2Proof.Machine Sys2Proof.Safety

/-! ### The codes of a row (R218) -/

theorem code_of_waited {c : Config} {vs : List Byte} {k : Code} (h : waited c vs k) : k = .ok ∨ k = .wipTimeout := by
  obtain ⟨-, hk⟩ | ⟨-, hk⟩ := h
  · exact .inl hk
  · exact .inr hk

theorem code_of_streamed {len : Word} {n : Nat} {k : Code} (h : streamed len n k) : k = .ok ∨ k = .stream := by
  obtain ⟨-, hk⟩ | ⟨-, hk⟩ := h
  · exact .inl hk
  · exact .inr hk

theorem code_of_polled {c : Config} {vs : List Bool} {k : Code} {p : Phase} (h : polled c vs k p) :
    k = .ok ∨ k = .cdoneTimeout := by
  obtain ⟨-, hk, -⟩ | ⟨-, hk, -⟩ := h
  · exact .inl hk
  · exact .inr hk

/-- However a command ends, its code is one of its row. -/
theorem ran_code {s : State} {i : Instr} {es : List Event} {k : Code} {f : FpgaRegs} {c : CramRegs} {l : FlashRegs}
    (h : Ran s i es k f c l) : k ∈ possibleCodes i := by
  cases h with
  | rejected hp => exact hp
  | fpgaInit | fpgaStop | cramOpen | cramClose | cramCloseIdle | flashConfig | flashInit | flashDeinit =>
    exact List.mem_cons_self
  | fpgaStart _ hd | fpgaReset _ hd => obtain rfl | rfl := code_of_polled hd <;> simp [possibleCodes]
  | cramWrite _ hd | cramLoad _ _ hd => obtain rfl | rfl := code_of_streamed hd <;> simp [possibleCodes]
  | flashEraseSector hd | flashProgramPage hd => obtain rfl | rfl := code_of_waited hd <;> simp [possibleCodes]
  | flashWrite hd => obtain rfl | rfl := code_of_writeEnded hd <;> simp [possibleCodes]
  | flashErase hd => obtain rfl | rfl := code_of_passEnded hd <;> simp [possibleCodes]

/-! ### Turned away, or not (R215) -/

section
variable {s t : State}

/-- From `s` to `t` a command answered a code of R215's first row, at most after the oracle's one answer, and did nothing
else. -/
def TurnedAway (s t : State) : Prop :=
  ∃ k ∈ rejections, t = s.raise k ∨ ∃ site, t = (s.consult site).2.raise k

/-- A command that ended in `t` went to the bus, or needed none: its code is none of R215's first row. -/
def Worked (t : State) : Prop := ∃ k, k ∉ rejections ∧ t.res = Code.byte k

theorem turnedAway_raise {k : Code} (hk : k ∈ rejections) (s : State) : TurnedAway s (s.raise k) := ⟨k, hk, .inl rfl⟩

theorem turnedAway_consult {k : Code} (hk : k ∈ rejections) (site : FaultSite) (s : State) :
    TurnedAway s ((s.consult site).2.raise k) := ⟨k, hk, .inr ⟨site, rfl⟩⟩

theorem TurnedAway.code (h : TurnedAway s t) : ∃ k ∈ rejections, t.res = Code.byte k := by
  obtain ⟨k, hk, rfl | ⟨site, rfl⟩⟩ := h
  · exact ⟨k, hk, rfl⟩
  · exact ⟨k, hk, rfl⟩

/-- A composite whose first part is turned away stops there (R125, R145, R194). -/
theorem TurnedAway.not_succeeded (h : TurnedAway s t) : ¬t.succeeded = true := by
  obtain ⟨k, hk, hres⟩ := h.code
  rw [succeeded_iff, hres, byte_eq_iff]
  exact (rejection_ne hk).1

/-- The state a rejected command leaves, as R215's first row says. -/
theorem TurnedAway.onlyResult (h : TurnedAway s t) :
    ∃ k, t.settle = onlyResult s k ∨ ∃ site, t.settle = onlyResultAfter site s k := by
  obtain ⟨k, -, rfl | ⟨site, rfl⟩⟩ := h
  · exact ⟨k, .inl rfl⟩
  · exact ⟨k, .inr ⟨site, rfl⟩⟩

theorem Worked.not_rejected (h : Worked t) : ¬∃ k ∈ rejections, t.res = Code.byte k := by
  obtain ⟨j, hj, hres⟩ := h
  rintro ⟨k, hk, hres'⟩
  rw [hres, byte_eq_iff] at hres'
  exact hj (hres' ▸ hk)

theorem worked_ok (h : t.res = Code.ok.byte) : Worked t := ⟨.ok, by decide, h⟩

theorem worked_of_wait {k : Code} (hres : t.res = k.byte) (hk : k = .ok ∨ k = .wipTimeout) : Worked t := by
  obtain rfl | rfl := hk
  · exact worked_ok hres
  · exact ⟨.wipTimeout, by decide, hres⟩

/-- A composite that keeps the code of its main part worked if that part did (R145, R194). -/
theorem worked_withResult (h : Worked t) (u : State) : Worked (u.withResult t.res) := h

theorem fpgaStart_worked (hb : s.fpga.bound = true) : Worked (fpgaStart s) := by
  obtain ⟨vs, k, p, hd, h⟩ := fpgaStart_ends hb
  obtain rfl | rfl := code_of_polled hd
  · exact worked_ok h.res
  · exact ⟨.cdoneTimeout, by decide, h.res⟩

theorem fpgaStop_turnedAway_or_ok (s : State) :
    TurnedAway s (fpgaStop s) ∨ (fpgaStop s).res = Code.ok.byte ∧ (fpgaStop s).fpga.bound = true := by
  obtain ⟨-, h⟩ | ⟨-, -, h⟩ | ⟨-, -, h⟩ := fpgaStop_cases s
  · rw [h]
    exact .inl (turnedAway_raise (by decide) s)
  · rw [h]
    exact .inl (turnedAway_consult (by decide) _ s)
  · exact .inr ⟨h.res, congrArg FpgaRegs.bound h.fpga⟩

theorem cramOpen_turnedAway_or_ok (s : State) :
    TurnedAway s (cramOpen s) ∨ (cramOpen s).res = Code.ok.byte ∧ (cramOpen s).cram.isOpen = true := by
  obtain ⟨-, h⟩ | ⟨-, -, h⟩ | ⟨-, -, -, h⟩ | ⟨-, -, -, h⟩ := cramOpen_cases s
  · rw [h]
    exact .inl (turnedAway_raise (by decide) s)
  · rw [h]
    exact .inl (turnedAway_raise (by decide) s)
  · rw [h]
    exact .inl (turnedAway_consult (by decide) _ s)
  · exact .inr ⟨h.res, congrArg CramRegs.isOpen h.cram⟩

theorem flashInit_turnedAway_or_opened (freq : Word) (s : State) :
    TurnedAway s (flashInit freq s) ∨ Opened s (flashInit freq s) := by
  obtain ⟨-, h⟩ | ⟨-, -, h⟩ | ⟨h0, hq, -⟩ := flashInit_cases freq s
  · rw [h]
    exact .inl (turnedAway_raise (by decide) s)
  · rw [h]
    exact .inl (turnedAway_consult (by decide) _ s)
  · exact .inr (opened_init h0 hq)

theorem cramWrite_worked (len : Word) (ho : s.cram.isOpen = true) : Worked (cramWrite len s) := by
  obtain ⟨n, k, hd, h⟩ := cramWrite_ends len ho
  obtain rfl | rfl := code_of_streamed hd
  · exact worked_ok h.res
  · exact ⟨.stream, by decide, h.res⟩

/-- A reset whose stop fails is that stop (R125). -/
theorem fpgaReset_of_turnedAway (h : TurnedAway s (fpgaStop s)) : fpgaReset s = fpgaStop s := if_neg h.not_succeeded

theorem fpgaReset_turnedAway_or_worked (s : State) : TurnedAway s (fpgaReset s) ∨ Worked (fpgaReset s) := by
  obtain h | ⟨hok, hb⟩ := fpgaStop_turnedAway_or_ok s
  · rw [fpgaReset_of_turnedAway h]
    exact .inl h
  · rw [show fpgaReset s = fpgaStart (fpgaStop s) from if_pos ((succeeded_iff _).mpr hok)]
    exact .inr (fpgaStart_worked hb)

/-- A load whose open fails is that open (R145). -/
theorem cramLoad_of_turnedAway (len : Word) (h : TurnedAway s (cramOpen s)) : cramLoad len s = cramOpen s :=
  if_neg h.not_succeeded

theorem cramLoad_turnedAway_or_worked (len : Word) (s : State) :
    TurnedAway s (cramLoad len s) ∨ Worked (cramLoad len s) := by
  obtain h | ⟨hok, ho⟩ := cramOpen_turnedAway_or_ok s
  · rw [cramLoad_of_turnedAway len h]
    exact .inl h
  · rw [show cramLoad len s = (cramClose (cramWrite len (cramOpen s))).withResult (cramWrite len (cramOpen s)).res from
      if_pos ((succeeded_iff _).mpr hok)]
    exact .inr (worked_withResult (cramWrite_worked len ho) _)

/-- A bracket whose init fails is that init (R194). -/
theorem flashBracket_of_turnedAway (op : State → State) (h : TurnedAway s (flashInit s.flash.freqHz s)) :
    flashBracket op s = flashInit s.flash.freqHz s := if_neg h.not_succeeded

theorem flashBracket_turnedAway_or_worked {op : State → State} (hop : ∀ t, Opened s t → Worked (op t)) :
    TurnedAway s (flashBracket op s) ∨ Worked (flashBracket op s) := by
  obtain h | h := flashInit_turnedAway_or_opened s.flash.freqHz s
  · rw [flashBracket_of_turnedAway op h]
    exact .inl h
  · rw [flashBracket_of_opened h]
    exact .inr (worked_withResult (hop _ h) _)

theorem erasePass_worked (n k : Nat) (h : Opened s t) : Worked (erasePass n k t) := by
  obtain ⟨sts, -, hd⟩ := erasePass_spec n k h.active h.res
  obtain ⟨k, hres, hk⟩ := passEnded_code hd
  exact worked_of_wait hres hk

theorem writePasses_worked (len : Nat) (h : Opened s t) : Worked (writePasses len t) := by
  obtain ⟨sts, pgs, k, -, hd, hres⟩ := writePasses_spec len h.active h.res
  exact worked_of_wait hres (code_of_writeEnded hd)

theorem flashWrite_turnedAway_or_worked (len : Word) (s : State) :
    TurnedAway s (flashWrite len s) ∨ Worked (flashWrite len s) := by
  unfold flashWrite
  split
  · exact .inl (turnedAway_raise (by decide) s)
  · exact flashBracket_turnedAway_or_worked fun _ => writePasses_worked _

theorem flashErase_turnedAway_or_worked (len : Word) (s : State) :
    TurnedAway s (flashErase len s) ∨ Worked (flashErase len s) := by
  unfold flashErase
  split
  · exact .inl (turnedAway_raise (by decide) s)
  · exact flashBracket_turnedAway_or_worked fun _ => erasePass_worked _ _

theorem eraseSector_turnedAway_or_worked (a : Addr) (s : State) :
    TurnedAway s (eraseSector a s) ∨ Worked (eraseSector a s) := by
  cases ha : s.flash.active
  · rw [eraseSector_of_inactive a ha]
    exact .inl (turnedAway_raise (by decide) s)
  · obtain ⟨vs, he, hd⟩ := eraseSector_spec a ha
    obtain ⟨k, hw, h⟩ := ended_of_waited he hd
    exact .inr (worked_of_wait h.res (code_of_waited hw))

theorem programPage_turnedAway_or_worked (a : Addr) (start len : Nat) (s : State) :
    TurnedAway s (programPage a start len s) ∨ Worked (programPage a start len s) := by
  cases ha : s.flash.active
  · rw [programPage_of_inactive a start len ha]
    exact .inl (turnedAway_raise (by decide) s)
  · obtain ⟨vs, he, hd⟩ := programPage_spec a start len ha
    obtain ⟨k, hw, h⟩ := ended_of_waited he hd
    exact .inr (worked_of_wait h.res (code_of_waited hw))

/-- A command whose row marks `OK` alone. -/
theorem ending_worked {i : Instr} (hi : isCommand i = true) (hcodes : possibleCodes i = [.ok]) (s : State) :
    Worked (ending i s) := by
  obtain ⟨es, k, f, c, l, hran, h⟩ := ending_ran hi s
  have hk := ran_code hran
  rw [hcodes, List.mem_singleton] at hk
  exact worked_ok (hk ▸ h.res)

/-- R215's first row and its complement: every command is turned away or ends with another code. -/
theorem ending_turnedAway_or_worked {i : Instr} (hi : isCommand i = true) (s : State) :
    TurnedAway s (ending i s) ∨ Worked (ending i s) := by
  cases i with
  | fpgaInit | cramClose | flashConfig | flashDeinit => exact .inr (ending_worked hi rfl s)
  | fpgaStart =>
    cases hb : s.fpga.bound
    · rw [show ending .fpgaStart s = s.raise .notInit from fpgaStart_of_unbound hb]
      exact .inl (turnedAway_raise (by decide) s)
    · exact .inr (fpgaStart_worked hb)
  | fpgaStop => exact (fpgaStop_turnedAway_or_ok s).imp_right fun h => worked_ok h.1
  | fpgaReset => exact fpgaReset_turnedAway_or_worked s
  | cramOpen => exact (cramOpen_turnedAway_or_ok s).imp_right fun h => worked_ok h.1
  | cramWrite len =>
    cases ho : s.cram.isOpen
    · rw [show ending (.cramWrite len) s = s.raise .notOpen from cramWrite_of_closed len ho]
      exact .inl (turnedAway_raise (by decide) s)
    · exact .inr (cramWrite_worked len ho)
  | cramLoad len => exact cramLoad_turnedAway_or_worked len s
  | flashInit freq => exact (flashInit_turnedAway_or_opened freq s).imp_right fun h => worked_ok h.res
  | flashEraseSector offset => exact eraseSector_turnedAway_or_worked offset s
  | flashProgramPage offset len => exact programPage_turnedAway_or_worked offset 0 len.toNat s
  | flashWrite len => exact flashWrite_turnedAway_or_worked len s
  | flashErase len => exact flashErase_turnedAway_or_worked len s
  | wren | se | pp | rdsr => cases hi

/-! ### Rejections that are answered (R255, U5) -/

theorem unlessClash_of_not_both {held : State} (h : held.busesBothHeld = false)
    (r : Host.Outcome State Fault Refusal) : s.unlessClash held r = r := by
  rw [State.unlessClash, h, if_neg Bool.false_ne_true, ite_self]

theorem unlessBeyond_of_within (h : t.beyondChip = false) (r : Host.Outcome State Fault Refusal) :
    s.unlessBeyond t r = r := by
  unfold State.unlessBeyond
  rw [h]
  split <;> rfl

theorem fpgaStop_of_unbound (hb : s.fpga.bound = false) : fpgaStop s = s.raise .notInit :=
  if_neg (by rw [hb]; exact Bool.false_ne_true)

theorem cramOpen_of_unbound (hb : s.fpga.bound = false) : cramOpen s = s.raise .notInit :=
  if_neg (by rw [hb]; exact Bool.false_ne_true)

theorem fpgaReset_of_unbound (hb : s.fpga.bound = false) : fpgaReset s = s.raise .notInit := by
  have hstop := fpgaStop_of_unbound hb
  exact (fpgaReset_of_turnedAway (hstop ▸ turnedAway_raise (by decide) s)).trans hstop

theorem cramLoad_of_unbound (len : Word) (hb : s.fpga.bound = false) : cramLoad len s = s.raise .notInit := by
  have hopen := cramOpen_of_unbound hb
  exact (cramLoad_of_turnedAway len (hopen ▸ turnedAway_raise (by decide) s)).trans hopen

theorem flashInit_of_zero {freq : Word} (h0 : freq = 0) : flashInit freq s = s.raise .setup := if_pos h0

theorem flashInit_of_fault {freq : Word} (h0 : freq ≠ 0) (hq : quietAt .flashInit s = false) :
    flashInit freq s = (s.consult .flashInit).2.raise .setup :=
  (if_neg h0).trans (if_pos ((not_quiet_iff .flashInit s).mp hq))

theorem TurnedAway.beyondChip (h : TurnedAway s t) : t.beyondChip = s.beyondChip := by
  obtain ⟨k, -, rfl | ⟨site, rfl⟩⟩ := h
  · rfl
  · exact beyondChip_congr (consult_flash site s)

/-- An orchestration that is turned away is answered so, with no session on aliased pins. -/
theorem answered_of_turnedAway (len : Word) (hclash : s.cfg.pinsAliased = false ∨ s.cram.isOpen = false)
    (hb : s.beyondChip = false) (h : TurnedAway s t) :
    s.unlessClash (flashHeld len s) (s.unlessBeyond t t.answer) = .next t.settle := by
  rw [unlessClash_of_no_session (by rwa [flashHeld_cramRegs]), unlessBeyond_of_within (h.beyondChip.trans hb)]
  rfl

section
variable {len : Word} {i : Instr}

theorem exec_orchestration_of_turnedAway (hi : i ∈ [Instr.flashWrite len, .flashErase len])
    (hclash : s.cfg.pinsAliased = false ∨ s.cram.isOpen = false) (hb : s.beyondChip = false) (he : ending i s = t)
    (h : TurnedAway s t) : exec i s = .next t.settle := by
  subst he
  simp only [List.mem_cons, List.not_mem_nil, or_false] at hi
  obtain rfl | rfl := hi
  · exact answered_of_turnedAway len hclash hb h
  · exact answered_of_turnedAway len hclash hb h

theorem orchestration_over_maxLen (hi : i ∈ [Instr.flashWrite len, .flashErase len])
    (hlen : Config.maxLen < len.toNat) (s : State) : ending i s = s.raise .range := by
  simp only [List.mem_cons, List.not_mem_nil, or_false] at hi
  obtain rfl | rfl := hi
  · exact if_pos hlen
  · exact if_pos hlen

theorem orchestration_of_failed_init (hi : i ∈ [Instr.flashWrite len, .flashErase len])
    (hlen : len.toNat ≤ Config.maxLen) (h : TurnedAway s (flashInit s.flash.freqHz s)) :
    ending i s = flashInit s.flash.freqHz s := by
  simp only [List.mem_cons, List.not_mem_nil, or_false] at hi
  obtain rfl | rfl := hi
  · exact (flashWrite_of_inRange hlen).trans (flashBracket_of_turnedAway _ h)
  · exact (flashErase_of_inRange hlen).trans (flashBracket_of_turnedAway _ h)

end

end

end Sys2Proof.Laws
end

section
/-! SUPPORT. No command reads the result register or a transient register (R15, R17, R217): states that differ in these
alone stay so under every operation, and a command, which writes them all, ends in one state from both. (The `_congr`
lemmas of the sequencer and of the CRAM commands speak of states that also agree on the result register.) -/

namespace Sys2Proof.Laws

open Sys2Proof.Machine Sys2Proof.Safety

/-- A state without its result register and its transient registers: what a command can depend on. -/
def visible (s : State) : State := { s with res := 0, tmp := Transient.unset }

/-- The states differ in the result register and the transient registers at most. -/
def Alike (s t : State) : Prop := visible s = visible t

/-- Two answers of an operation that are the same, and leave alike states. -/
def SameAlike {α : Type} (p q : α × State) : Prop := p.1 = q.1 ∧ Alike p.2 q.2

section
variable {s t : State}

/-- What does not read the two registers is the same of states that are alike. -/
theorem Alike.same {α : Type} (h : Alike s t) (g : State → α) (hg : ∀ u, g (visible u) = g u) : g s = g t := by
  rw [← hg s, ← hg t, h]

theorem Alike.map (h : Alike s t) (f : State → State) (hf : ∀ u, visible (f (visible u)) = visible (f u)) :
    Alike (f s) (f t) := h.same (fun u => visible (f u)) hf

theorem Alike.cfg (h : Alike s t) : s.cfg = t.cfg := h.same State.cfg fun _ => rfl

theorem Alike.buf (h : Alike s t) : s.buf = t.buf := h.same State.buf fun _ => rfl

theorem alike_of_settle (h : s.settle = t.settle) : Alike s t := (congrArg visible h :)

theorem succeeded_of_settle (h : s.settle = t.settle) : s.succeeded = t.succeeded :=
  (congrArg State.succeeded h :)

/-- A command that writes its code leaves nothing by which alike states differ. -/
theorem settle_raise (h : Alike s t) (k : Code) : (s.raise k).settle = (t.raise k).settle :=
  h.same (fun u => (u.raise k).settle) fun _ => rfl

/-! ### Primitives -/

theorem alike_drive (p : Pin) (v : Bool) (h : Alike s t) : Alike (s.drive p v) (t.drive p v) :=
  h.map (State.drive p v) fun _ => rfl

theorem alike_setDir (p : Pin) (d : Dir) (h : Alike s t) : Alike (s.setDir p d) (t.setDir p d) :=
  h.map (State.setDir p d) fun _ => rfl

theorem alike_setPhase (p : Phase) (h : Alike s t) : Alike (s.setPhase p) (t.setPhase p) :=
  h.map (State.setPhase p) fun _ => rfl

theorem alike_consult (site : FaultSite) (h : Alike s t) : SameAlike (s.consult site) (t.consult site) :=
  ⟨h.same (fun u => (u.consult site).1) fun _ => rfl, h.map (fun u => (u.consult site).2) fun _ => rfl⟩

theorem alike_pulse (p : Pin) (h : Alike s t) : Alike (s.pulse p) (t.pulse p) :=
  alike_drive p false (alike_drive p true h)

theorem alike_pulses (p : Pin) (n : Nat) (h : Alike s t) : Alike (s.pulses p n) (t.pulses p n) := by
  induction n generalizing s t with
  | zero => exact h
  | succ n ih => exact ih (alike_pulse p h)

theorem alike_shiftOutBits (d c : Pin) (b : Byte) (n : Nat) (h : Alike s t) :
    Alike (State.shiftOutBits d c b n s) (State.shiftOutBits d c b n t) := by
  induction n generalizing s t with
  | zero => exact h
  | succ n ih => exact ih (alike_pulse c (alike_drive d _ (h.map (State.setShift b n) fun _ => rfl)))

theorem alike_shiftOutCram (b : Byte) (h : Alike s t) : Alike (s.shiftOutCram b) (t.shiftOutCram b) :=
  (alike_shiftOutBits .cDo .cSck b 8 h).map
    (fun u => { u with world := u.world.onCramByte u.cramSelected b }) fun _ => rfl

theorem alike_shiftOutFlash (b : Byte) (h : Alike s t) : Alike (s.shiftOutFlash b) (t.shiftOutFlash b) :=
  (alike_shiftOutBits .fMosi .fSck b 8 h).map
    (fun u => { u with world := u.world.onFlashByte u.flashSelected b }) fun _ => rfl

theorem alike_shiftOutAll (bs : List Byte) (h : Alike s t) : Alike (s.shiftOutAll bs) (t.shiftOutAll bs) := by
  induction bs generalizing s t with
  | nil => exact h
  | cons b bs ih => exact ih (alike_shiftOutFlash b h)

theorem alike_shiftOutData (bs : List Byte) (i : Nat) (h : Alike s t) :
    Alike (s.shiftOutData bs i) (t.shiftOutData bs i) := by
  induction bs generalizing i s t with
  | nil => exact h
  | cons b bs ih => exact ih (i + 1) (alike_shiftOutFlash b (h.map (State.setIdx i) fun _ => rfl))

theorem alike_sampleMiso (line : Option Bool) (h : Alike s t) : SameAlike (s.sampleMiso line) (t.sampleMiso line) :=
  ⟨h.same (fun u => (u.sampleMiso line).1) fun _ => rfl, h.map (fun u => (u.sampleMiso line).2) fun _ => rfl⟩

theorem alike_shiftInBits (line : Option Byte) (n : Nat) (v : Byte) (h : Alike s t) :
    SameAlike (State.shiftInBits line n v s) (State.shiftInBits line n v t) := by
  induction n generalizing v s t with
  | zero => exact ⟨rfl, h⟩
  | succ n ih =>
    obtain ⟨hbit, hafter⟩ := alike_sampleMiso (line.map (·.getLsbD n)) (alike_drive .fSck true h)
    simp only [State.shiftInBits, hbit]
    exact ih _ (alike_drive .fSck false (hafter.map (State.setShift _ n) fun _ => rfl))

theorem alike_shiftIn (h : Alike s t) : SameAlike s.shiftIn t.shiftIn := by
  have hreply : (s.world.statusReply s.cfg s.flashSelected).1 = (t.world.statusReply t.cfg t.flashSelected).1 :=
    h.same (fun u => (u.world.statusReply u.cfg u.flashSelected).1) fun _ => rfl
  simp only [State.shiftIn, hreply]
  exact alike_shiftInBits _ 8 0
    (h.map (fun u => { u with world := (u.world.statusReply u.cfg u.flashSelected).2 }) fun _ => rfl)

/-! ### Frames and waits -/

theorem alike_frameBegin (h : Alike s t) : Alike s.frameBegin t.frameBegin := h.map State.frameBegin fun _ => rfl

theorem alike_frameEnd (h : Alike s t) : Alike s.frameEnd t.frameEnd := h.map State.frameEnd fun _ => rfl

theorem alike_frameWren (h : Alike s t) : Alike (frameWren s) (frameWren t) := by
  simp only [frameWren, h.cfg]
  exact alike_frameEnd (alike_shiftOutFlash _ (alike_frameBegin h))

theorem alike_frameSe (a : Addr) (h : Alike s t) : Alike (frameSe a s) (frameSe a t) := by
  simp only [frameSe, h.cfg]
  exact alike_frameEnd (alike_shiftOutAll _ (alike_frameBegin (h.map (State.setAddr a) fun _ => rfl)))

theorem alike_framePp (a : Addr) (data : List Byte) (h : Alike s t) : Alike (framePp a data s) (framePp a data t) := by
  simp only [framePp, h.cfg]
  exact alike_frameEnd
    (alike_shiftOutData data 0 (alike_shiftOutAll _ (alike_frameBegin (h.map (State.setAddr a) fun _ => rfl))))

theorem alike_readStatus (h : Alike s t) : SameAlike (readStatus s) (readStatus t) := by
  simp only [readStatus, h.cfg]
  obtain ⟨hbyte, hafter⟩ := alike_shiftIn (alike_shiftOutFlash t.cfg.opRdsr (alike_frameBegin h))
  exact ⟨hbyte, alike_frameEnd hafter⟩

theorem alike_waitIdle (n k : Nat) (h : Alike s t) : SameAlike (waitIdle n k s) (waitIdle n k t) := by
  induction n generalizing k s t with
  | zero => exact ⟨rfl, h⟩
  | succ n ih =>
    obtain ⟨hbyte, hafter⟩ := alike_readStatus (h.map (State.setPoll (k + 1)) fun _ => rfl)
    simp only [waitIdle, hbyte, h.cfg]
    split
    · exact ih (k + 1) hafter
    · exact ⟨rfl, hafter⟩

theorem settle_awaitIdle (h : Alike s t) : (awaitIdle s).settle = (awaitIdle t).settle := by
  obtain ⟨hidle, hafter⟩ := alike_waitIdle t.cfg.wipPollMax 0 h
  simp only [awaitIdle, h.cfg, hidle]
  split
  · exact settle_raise hafter .ok
  · exact settle_raise hafter .wipTimeout

theorem alike_pollCdone (n k : Nat) (h : Alike s t) : SameAlike (pollCdone n k s) (pollCdone n k t) := by
  induction n generalizing k s t with
  | zero => exact ⟨rfl, h⟩
  | succ n ih =>
    have hlevel : (s.setPoll (k + 1)).sampleCdone.1 = (t.setPoll (k + 1)).sampleCdone.1 :=
      h.same (fun u => (u.setPoll (k + 1)).sampleCdone.1) fun _ => rfl
    have hafter : Alike (s.setPoll (k + 1)).sampleCdone.2 (t.setPoll (k + 1)).sampleCdone.2 :=
      h.map (fun u => (u.setPoll (k + 1)).sampleCdone.2) fun _ => rfl
    simp only [pollCdone, hlevel]
    split
    · exact ⟨rfl, hafter⟩
    · exact ih (k + 1) hafter

/-! ### The sequencer's commands -/

theorem Alike.bound (h : Alike s t) : s.fpga.bound = t.fpga.bound := h.same (fun u => u.fpga.bound) fun _ => rfl

theorem settle_fpgaStart (h : Alike s t) : (fpgaStart s).settle = (fpgaStart t).settle := by
  cases hb : t.fpga.bound
  · rw [fpgaStart_of_unbound hb, fpgaStart_of_unbound (h.bound.trans hb)]
    exact settle_raise h .notInit
  · obtain ⟨hrose, hafter⟩ := alike_pollCdone t.cfg.cdonePollMax 0 (h.map startReleased fun _ => rfl)
    rw [fpgaStart_of_bound hb, fpgaStart_of_bound (h.bound.trans hb), h.cfg, hrose]
    split
    · exact settle_raise (alike_setPhase .configured hafter) .ok
    · exact settle_raise hafter .cdoneTimeout

theorem settle_fpgaStop (h : Alike s t) : (fpgaStop s).settle = (fpgaStop t).settle := by
  obtain ⟨hfault, hafter⟩ := alike_consult .fpgaStop h
  simp only [fpgaStop, h.bound, hfault]
  split
  · split
    · exact settle_raise hafter .pinFault
    · exact settle_raise
        (alike_setPhase .resetHeld (alike_drive .creset false (hafter.map State.clockHalt fun _ => rfl))) .ok
  · exact settle_raise h .notInit

theorem settle_fpgaReset (h : Alike s t) : (fpgaReset s).settle = (fpgaReset t).settle := by
  have hstop := settle_fpgaStop h
  simp only [fpgaReset, succeeded_of_settle hstop]
  split
  · exact settle_fpgaStart (alike_of_settle hstop)
  · exact hstop

/-! ### The CRAM commands -/

theorem Alike.isOpen (h : Alike s t) : s.cram.isOpen = t.cram.isOpen := h.same (fun u => u.cram.isOpen) fun _ => rfl

theorem alike_cramPinsOut (h : Alike s t) : Alike (cramPinsOut s) (cramPinsOut t) := by
  simp only [cramPinsOut, h.cfg]
  exact alike_setDir _ _ (alike_drive _ _ (alike_setDir _ _ (alike_drive _ _ (alike_setDir _ _ (alike_drive _ _ h)))))

theorem alike_leadIn (h : Alike s t) : Alike (leadIn s) (leadIn t) := by
  simp only [leadIn, h.cfg]
  split
  · exact h
  · exact alike_drive _ _ (alike_pulses _ _ (alike_drive _ _ h))

theorem settle_cramOpen (h : Alike s t) : (cramOpen s).settle = (cramOpen t).settle := by
  obtain ⟨hfault, hafter⟩ := alike_consult .cramOpen h
  simp only [cramOpen, h.bound, h.isOpen, hfault]
  split
  · split
    · exact settle_raise h .sessionOpen
    · split
      · exact settle_raise hafter .setup
      · exact settle_raise ((alike_leadIn (alike_cramPinsOut hafter)).map State.openSession fun _ => rfl) .ok
  · exact settle_raise h .notInit

theorem settle_cramBytes (n i : Nat) (h : Alike s t) : (cramBytes n i s).settle = (cramBytes n i t).settle := by
  induction n generalizing i s t with
  | zero => exact settle_raise h .ok
  | succ n ih =>
    obtain ⟨hfault, hafter⟩ := alike_consult (.cramWrite i) (h.map (State.setIdx i) fun _ => rfl)
    simp only [cramBytes, hfault, hafter.buf]
    split
    · exact settle_raise hafter .stream
    · exact ih (i + 1) ((alike_shiftOutCram _ hafter).map State.countByte fun _ => rfl)

theorem settle_cramWrite (len : Word) (h : Alike s t) : (cramWrite len s).settle = (cramWrite len t).settle := by
  simp only [cramWrite, h.isOpen]
  split
  · exact settle_cramBytes _ _ h
  · exact settle_raise h .notOpen

theorem alike_trailSeen (h : Alike s t) : Alike (trailSeen s) (trailSeen t) := by
  refine h.map trailSeen fun u => ?_
  have hcfg : (visible u).cfg = u.cfg := rfl
  unfold trailSeen
  rw [hcfg]
  split <;> rfl

theorem settle_cramClose (h : Alike s t) : (cramClose s).settle = (cramClose t).settle := by
  simp only [cramClose, h.isOpen, h.cfg]
  split
  · have hclocks := alike_pulses .cSck t.cfg.trailClocks
      (alike_drive .cDo false (alike_drive .cCs (!t.cfg.cramCsActive) h))
    have hpins := alike_setDir .cSck .input
      (alike_setDir .cDo .input (alike_setDir .cCs .input (alike_trailSeen hclocks)))
    exact settle_raise (hpins.map State.endSession fun _ => rfl) .ok
  · exact settle_raise h .ok

/-- A composite that keeps the code of its main part. -/
theorem settle_withResult {u v : State} (h : s.settle = t.settle) (h' : u.settle = v.settle) :
    (s.withResult u.res).settle = (t.withResult v.res).settle := by
  rw [show u.res = v.res from (congrArg State.res h' :)]
  exact (congrArg (State.withResult v.res) h :)

theorem settle_cramLoad (len : Word) (h : Alike s t) : (cramLoad len s).settle = (cramLoad len t).settle := by
  have hopen := settle_cramOpen h
  have hwrite := settle_cramWrite len (alike_of_settle hopen)
  simp only [cramLoad, succeeded_of_settle hopen]
  split
  · exact settle_withResult (settle_cramClose (alike_of_settle hwrite)) hwrite
  · exact hopen

/-! ### The flash commands -/

theorem Alike.freqHz (h : Alike s t) : s.flash.freqHz = t.flash.freqHz := h.same (fun u => u.flash.freqHz) fun _ => rfl

theorem Alike.active (h : Alike s t) : s.flash.active = t.flash.active := h.same (fun u => u.flash.active) fun _ => rfl

theorem alike_flashPinsOut (h : Alike s t) : Alike (flashPinsOut s) (flashPinsOut t) := by
  simp only [flashPinsOut, h.cfg]
  exact alike_setDir _ _ (alike_setDir _ _ (alike_drive _ _ (alike_setDir _ _ (alike_drive _ _
    (alike_setDir _ _ (alike_drive _ _ h))))))

theorem settle_flashInit (freq : Word) (h : Alike s t) : (flashInit freq s).settle = (flashInit freq t).settle := by
  obtain ⟨hfault, hafter⟩ := alike_consult .flashInit h
  simp only [flashInit, hfault]
  split
  · exact settle_raise h .setup
  · split
    · exact settle_raise hafter .setup
    · exact settle_raise ((alike_flashPinsOut hafter).map (State.openBracket freq) fun _ => rfl) .ok

theorem settle_flashDeinit (h : Alike s t) : (flashDeinit s).settle = (flashDeinit t).settle := by
  have hpins := alike_setDir .fCs .input
    (alike_setDir .fMiso .input (alike_setDir .fMosi .input (alike_setDir .fSck .input h)))
  exact settle_raise (hpins.map State.endBracket fun _ => rfl) .ok

theorem settle_eraseSector (a : Addr) (h : Alike s t) : (eraseSector a s).settle = (eraseSector a t).settle := by
  simp only [eraseSector, h.active]
  split
  · exact settle_awaitIdle (alike_frameSe a (alike_frameWren h))
  · exact settle_raise h .notInit

theorem settle_programPage (a : Addr) (start len : Nat) (h : Alike s t) :
    (programPage a start len s).settle = (programPage a start len t).settle := by
  simp only [programPage, h.active, h.cfg, h.buf]
  split
  · exact settle_awaitIdle (alike_framePp a _ (alike_frameWren h))
  · exact settle_raise h .notInit

/-- A pass of units that read neither register. Where it has no unit it keeps the code it finds, so the codes before it have
to be one. -/
theorem settle_pass {unit : Nat → State → State} {pass : Nat → Nat → State → State} (hp : IsPass unit pass)
    (hunit : ∀ k {s t : State}, Alike s t → (unit k s).settle = (unit k t).settle) (n k : Nat)
    (h : s.settle = t.settle) : (pass n k s).settle = (pass n k t).settle := by
  induction n generalizing k s t with
  | zero => rwa [hp.done, hp.done]
  | succ n ih =>
    have hu := hunit k (alike_of_settle h)
    rw [hp.next, hp.next, succeeded_of_settle hu]
    split
    · exact ih (k + 1) hu
    · exact hu

theorem settle_eraseUnit (k : Nat) (h : Alike s t) : (eraseUnit k s).settle = (eraseUnit k t).settle := by
  simp only [eraseUnit, h.cfg]
  exact settle_eraseSector _ (h.map (State.setUnit k) fun _ => rfl)

theorem settle_programUnit (len p : Nat) (h : Alike s t) :
    (programUnit len p s).settle = (programUnit len p t).settle := by
  simp only [programUnit, h.cfg]
  exact settle_programPage _ _ _ (h.map (State.setUnit p) fun _ => rfl)

theorem settle_erasePass (n k : Nat) (h : s.settle = t.settle) : (erasePass n k s).settle = (erasePass n k t).settle :=
  settle_pass erasePass_isPass (fun k => settle_eraseUnit k) n k h

theorem settle_writePasses (len : Nat) (h : s.settle = t.settle) :
    (writePasses len s).settle = (writePasses len t).settle := by
  have hcfg := (alike_of_settle h).cfg
  have herased := settle_erasePass (nsect t.cfg len) 0 h
  simp only [writePasses, hcfg, succeeded_of_settle herased]
  split
  · exact settle_pass (programPass_isPass len) (fun p => settle_programUnit len p) _ 0 herased
  · exact herased

theorem settle_flashBracket {op : State → State}
    (hop : ∀ {s t : State}, s.settle = t.settle → (op s).settle = (op t).settle) (h : Alike s t) :
    (flashBracket op s).settle = (flashBracket op t).settle := by
  have hinit := settle_flashInit t.flash.freqHz h
  have hpasses := hop hinit
  simp only [flashBracket, h.freqHz, succeeded_of_settle hinit]
  split
  · exact settle_withResult (settle_flashDeinit (alike_of_settle hpasses)) hpasses
  · exact hinit

theorem settle_flashWrite (len : Word) (h : Alike s t) : (flashWrite len s).settle = (flashWrite len t).settle := by
  unfold flashWrite
  split
  · exact settle_raise h .range
  · exact settle_flashBracket (settle_writePasses _) h

theorem settle_flashErase (len : Word) (h : Alike s t) : (flashErase len s).settle = (flashErase len t).settle := by
  unfold flashErase
  split
  · exact settle_raise h .range
  · refine settle_flashBracket (fun {u v} huv => ?_) h
    simp only [(alike_of_settle huv).cfg]
    exact settle_erasePass _ 0 huv

/-! ### Every command -/

/-- Alike states end in one state under a command. -/
theorem settle_ending {i : Instr} (hi : isCommand i = true) (h : Alike s t) :
    (ending i s).settle = (ending i t).settle := by
  cases i with
  | fpgaInit freq => exact h.same (fun u => (fpgaInit freq u).settle) fun _ => rfl
  | fpgaStart => exact settle_fpgaStart h
  | fpgaStop => exact settle_fpgaStop h
  | fpgaReset => exact settle_fpgaReset h
  | cramOpen => exact settle_cramOpen h
  | cramWrite len => exact settle_cramWrite len h
  | cramClose => exact settle_cramClose h
  | cramLoad len => exact settle_cramLoad len h
  | flashConfig freq => exact h.same (fun u => (flashConfig freq u).settle) fun _ => rfl
  | flashInit freq => exact settle_flashInit freq h
  | flashEraseSector offset => exact settle_eraseSector offset h
  | flashProgramPage offset len => exact settle_programPage offset 0 len.toNat h
  | flashDeinit => exact settle_flashDeinit h
  | flashWrite len => exact settle_flashWrite len h
  | flashErase len => exact settle_flashErase len h
  | wren | se | pp | rdsr => cases hi

/-- Whether a clash of the buses is met is the same in alike states. -/
theorem unlessClash_alike {u v : State} (h : Alike s t) (hheld : Alike u v) (r : Host.Outcome State Fault Refusal) :
    s.unlessClash u r = t.unlessClash v r := by
  simp only [State.unlessClash, h.cfg, hheld.same State.busesBothHeld fun _ => rfl]

/-- Whether a frame went beyond the chip is the same in alike states. -/
theorem unlessBeyond_alike {u v : State} (h : Alike s t) (hend : Alike u v) (r : Host.Outcome State Fault Refusal) :
    s.unlessBeyond u r = t.unlessBeyond v r := by
  simp only [State.unlessBeyond, h.same (fun u => u.world.flash) fun _ => rfl,
    hend.same State.beyondChip fun _ => rfl]

theorem alike_flashHeld (len : Word) (h : Alike s t) : Alike (flashHeld len s) (flashHeld len t) := by
  simp only [flashHeld, h.freqHz]
  split
  · exact h
  · exact alike_of_settle (settle_flashInit _ h)

/-- A command's outcome is the same from alike states: its answer, and whether it is refused. -/
theorem exec_alike {i : Instr} (hi : isCommand i = true) (h : Alike s t) : exec i s = exec i t := by
  have hend := settle_ending hi h
  have hanswer : (ending i s).answer = (ending i t).answer := congrArg Host.Outcome.next hend
  have hbeyond := unlessBeyond_alike h (alike_of_settle hend)
  cases i with
  | cramOpen | cramLoad =>
    exact (unlessClash_alike h (alike_of_settle (settle_cramOpen h)) _).trans (congrArg _ hanswer)
  | flashInit => exact (unlessClash_alike h (alike_of_settle hend) _).trans (congrArg _ hanswer)
  | flashEraseSector | flashProgramPage => exact (hbeyond _).trans (congrArg _ hanswer)
  | flashWrite len | flashErase len =>
    exact (unlessClash_alike h (alike_flashHeld len h) _).trans
      (congrArg _ ((hbeyond _).trans (congrArg _ hanswer)))
  | wren | se | pp | rdsr => cases hi
  | _ => exact hanswer

end

end Sys2Proof.Laws
end

section
/-! PROOFS. The statements of spec/60_exceptions.md. -/

namespace Sys2Proof.Proofs

open Sys2Proof.Machine Sys2Proof.Safety Sys2Proof.Laws

/-- Settles O15: a frame's events are on the flash bus, and each list of `Ran` is on the pins of its command's group. -/
theorem eventsStayOnOwnPins : Obligations.EventsStayOnOwnPins := by
  intro i s t h
  cases hi : isCommand i
  · obtain ⟨es, hframed, he⟩ := exec_framed hi h
    exact ⟨es, he.trace, framed_own hframed⟩
  · obtain ⟨es, _, _, _, _, hran, he⟩ := exec_ran hi h
    exact ⟨es, he.trace, ran_own hran⟩

/-- Settles O18: the two states are alike, and a command has one outcome from alike states. -/
theorem resultRegisterIsNeverRead : Obligations.ResultRegisterIsNeverRead :=
  fun _ _ _ _ hi => exec_alike hi rfl

/-- Settles O19: the code with which `Ran` lets a command end is one of its row. -/
theorem resultCodesAreThoseOfTheTable : Obligations.ResultCodesAreThoseOfTheTable := by
  intro i s t hi h
  obtain ⟨_, k, _, _, _, hran, he⟩ := exec_ran hi h
  exact ⟨k, ran_code hran, he.res⟩

/-- Settles O21: a command that was not turned away ended with another code. -/
theorem rejectedCommandsLeaveNoTrace : Obligations.RejectedCommandsLeaveNoTrace := by
  intro i s t hi h hcode
  obtain rfl := exec_command_next hi h
  obtain haway | hworked := ending_turnedAway_or_worked hi s
  · exact haway.onlyResult
  · exact absurd hcode hworked.not_rejected

/-- Settles O7: the step looks at the port first, and at what the bytes decode to second. -/
theorem stepWithoutInstruction : Obligations.StepWithoutInstruction := by
  refine ⟨fun s hport => ?_, fun s bytes m rest e hport hdec => ?_⟩
  · simp only [step, hport]
  · simp only [step, hport, hdec, State.rejected]

/-- Settles O28: the test comes first in each command, so neither bus is taken and no frame is sent, and what was not to be
refused before is not to be refused after. -/
theorem unboundDeviceOrClosedBracketIsNotInit : Obligations.UnboundDeviceOrClosedBracketIsNotInit := by
  intro s hbeyond
  refine ⟨fun hb hheld i hi => ?_, fun hb hheld len => ?_, fun ha a len => ⟨?_, ?_⟩⟩
  · simp only [List.mem_cons, List.not_mem_nil, or_false] at hi
    obtain rfl | rfl | rfl | rfl := hi
    · exact congrArg State.answer (fpgaStart_of_unbound hb)
    · exact congrArg State.answer (fpgaStop_of_unbound hb)
    · exact congrArg State.answer (fpgaReset_of_unbound hb)
    · show s.unlessClash (cramOpen s) (cramOpen s).answer = _
      rw [cramOpen_of_unbound hb]
      exact unlessClash_of_not_both hheld _
  · show s.unlessClash (cramOpen s) (cramLoad len s).answer = _
    rw [cramOpen_of_unbound hb, cramLoad_of_unbound len hb]
    exact unlessClash_of_not_both hheld _
  · show s.unlessBeyond (eraseSector a s) (eraseSector a s).answer = _
    rw [eraseSector_of_inactive a ha]
    exact unlessBeyond_of_within hbeyond _
  · show s.unlessBeyond (programPage a 0 len.toNat s) (programPage a 0 len.toNat s).answer = _
    rw [programPage_of_inactive a 0 len.toNat ha]
    exact unlessBeyond_of_within hbeyond _

/-- Settles O50: both commands look at the length first and then run their init, and where that is turned away they end as
it does. -/
theorem orchestrationRefusedBeforeTheBus : Obligations.OrchestrationRefusedBeforeTheBus := by
  intro len s hclash hbeyond i hi
  refine ⟨fun hlen => ?_, fun hlen h0 => ?_, fun hlen h0 hq => ?_⟩
  · exact exec_orchestration_of_turnedAway hi hclash hbeyond (orchestration_over_maxLen hi hlen s)
      (turnedAway_raise (by decide) s)
  · have hinit : flashInit s.flash.freqHz s = s.raise .setup := flashInit_of_zero h0
    have haway := turnedAway_raise (k := .setup) (by decide) s
    exact exec_orchestration_of_turnedAway hi hclash hbeyond
      ((orchestration_of_failed_init hi hlen (hinit ▸ haway)).trans hinit) haway
  · have hinit := flashInit_of_fault h0 hq
    have haway := turnedAway_consult (k := .setup) (by decide) .flashInit s
    exact exec_orchestration_of_turnedAway hi hclash hbeyond
      ((orchestration_of_failed_init hi hlen (hinit ▸ haway)).trans hinit) haway

end Sys2Proof.Proofs
end

section
/-! SUPPORT. CLOCK and CRESET at every point of an event list (R252), and a session and a bracket held together on aliased
pins (R255). -/

namespace Sys2Proof.Laws

open Sys2Proof.Machine Sys2Proof.Safety

/-! ### CLOCK never runs under a low CRESET (R252) -/

/-- At no point of the events, from the clock generator `k` and the pins `r` on, is CLOCK running while CRESET is low. -/
def NeverClockedInReset (es : List Event) (k : ClkRegs) (r : Pins) : Prop :=
  ∀ n ≤ es.length, ¬clockedInReset (replayClk (es.take n) k) (replayPins (es.take n) r)

section
variable {es fs : List Event} {k : ClkRegs} {r : Pins}

theorem not_clockedInReset_of_halted (h : k.running = false) : ¬clockedInReset k r :=
  fun hbad => Bool.false_ne_true (h.symm.trans hbad.1)

theorem not_clockedInReset_of_released (h : r.creset.lvl = .one) : ¬clockedInReset k r :=
  fun hbad => absurd (h.symm.trans hbad.2) (by decide)

/-- R20: where the clock runs, the phase is one in which CRESET is released. -/
theorem not_clockedInReset_of_inv {s : State} (h : Inv s) : ¬clockedInReset s.clk s.pins :=
  fun hbad => not_clockedInReset_of_released (h.cresetReleased (h.clkRuns.mp hbad.1)) hbad

theorem neverClocked_cons {e : Event} (h : ¬clockedInReset k r)
    (hes : NeverClockedInReset es (clkAfter e k) (pinsAfter e r)) : NeverClockedInReset (e :: es) k r := by
  intro n hn
  cases n with
  | zero => exact h
  | succ n => exact hes n (Nat.le_of_succ_le_succ hn)

theorem neverClocked_append (hes : NeverClockedInReset es k r)
    (hfs : NeverClockedInReset fs (replayClk es k) (replayPins es r)) : NeverClockedInReset (es ++ fs) k r := by
  intro n hn
  rw [List.length_append] at hn
  rw [List.take_append, replayClk_append, replayPins_append]
  obtain hle | hlt := le_or_gt n es.length
  · rw [Nat.sub_eq_zero_of_le hle]
    exact hes n hle
  · rw [List.take_of_length_le hlt.le]
    exact hfs _ (by omega)

/-- Events on other pins leave CLOCK and CRESET as they were, at every point. -/
theorem neverClocked_off (hclock : ∀ e ∈ es, eventPin e ≠ .clock) (hcreset : ∀ e ∈ es, eventPin e ≠ .creset)
    (h : ¬clockedInReset k r) : NeverClockedInReset es k r := by
  intro n _
  have hpin : (replayPins (es.take n) r).creset = r.creset :=
    replayPins_get_of_forall_ne (q := .creset) (fun e he => hcreset e (List.mem_of_mem_take he)) r
  rw [clockedInReset, hpin, replayClk_of_forall_ne fun e he => hclock e (List.mem_of_mem_take he)]
  exact h

theorem neverClocked_nil (h : ¬clockedInReset k r) : NeverClockedInReset [] k r :=
  neverClocked_off (by simp) (by simp) h

/-- An instruction of another group than the sequencer's has no event on CLOCK or CRESET (R219). -/
theorem neverClocked_of_foreign {i : Instr} (hown : ∀ e ∈ es, eventPin e ∈ ownPins i) (hi : ownPins i ≠ fpgaPins)
    (h : ¬clockedInReset k r) : NeverClockedInReset es k r := by
  have off {p : Pin} (hp : p ∈ fpgaPins) : ∀ e ∈ es, eventPin e ≠ p :=
    fun e he hep => (not_mem_of_ownPins_ne (hown e he)).1 hi (hep ▸ hp)
  exact neverClocked_off (off (by decide)) (off (by decide)) h

/-- R121 releases CRESET before it runs the clock. -/
theorem neverClocked_start (freq : Word) (vs : List Bool) (h : ¬clockedInReset k r) :
    NeverClockedInReset (startEvents freq vs) k r := by
  have off {p : Pin} (hp : .cdone ≠ p) : ∀ e ∈ vs.map (.smp .cdone), eventPin e ≠ p :=
    List.forall_mem_map.mpr fun _ _ => hp
  exact neverClocked_cons h (neverClocked_cons (not_clockedInReset_of_released rfl)
    (neverClocked_off (off (by decide)) (off (by decide)) (not_clockedInReset_of_released rfl)))

/-- R124 halts the clock before it drives CRESET low. -/
theorem neverClocked_stop (h : ¬clockedInReset k r) : NeverClockedInReset stopEvents k r :=
  neverClocked_cons h (neverClocked_cons (not_clockedInReset_of_halted rfl)
    (neverClocked_nil (not_clockedInReset_of_halted rfl)))

/-- R252 for the events of a command, in each of its ways to end. -/
theorem ran_neverClocked {s : State} {i : Instr} {c : Code} {f : FpgaRegs} {m : CramRegs} {l : FlashRegs}
    (hran : Ran s i es c f m l) (h : ¬clockedInReset s.clk s.pins) : NeverClockedInReset es s.clk s.pins := by
  by_cases hi : ownPins i = fpgaPins
  · cases hran with
    | rejected | fpgaInit => exact neverClocked_nil h
    | fpgaStart => exact neverClocked_start _ _ h
    | fpgaStop => exact neverClocked_stop h
    | fpgaReset =>
      exact neverClocked_append (neverClocked_stop h)
        (neverClocked_start _ _ (not_clockedInReset_of_halted rfl))
    | _ => cases hi
  · exact neverClocked_of_foreign (ran_own hran) hi h

/-- R252 for the events of a frame: they are on the flash bus. -/
theorem framed_neverClocked {c : Config} {i : Instr} (hframed : Framed c i es) (h : ¬clockedInReset k r) :
    NeverClockedInReset es k r := by
  have hi : ownPins i ≠ fpgaPins := by
    cases hframed with
    | _ => simp [ownPins, flashPins, fpgaPins]
  exact neverClocked_of_foreign (framed_own hframed) hi h

end

/-! ### A session and a bracket held together on aliased pins (R255, U12) -/

section
variable {s : State}

/-- A command that holds both buses once it has taken its own is refused, whatever it would have answered. -/
theorem unlessClash_of_both {held : State} (hp : s.cfg.pinsAliased = true) (ho : held.cram.isOpen = true)
    (ha : held.flash.active = true) (r : Host.Outcome State Fault Refusal) :
    s.unlessClash held r = .refused .aliasedBusesBothHeld := by
  have hboth : held.busesBothHeld = true := by rw [State.busesBothHeld, ho, ha, Bool.and_self]
  rw [State.unlessClash, if_pos hp, if_pos hboth]

/-- CRAM_OPEN where nothing turns it away. -/
theorem cramOpen_opens (hb : s.fpga.bound = true) (ho : s.cram.isOpen = false) (hq : quietAt .cramOpen s = true) :
    Ended s (cramOpen s).settle (openEvents s.cfg) .ok s.fpga ⟨true, 0⟩ s.flash := by
  obtain ⟨hunbound, -⟩ | ⟨-, hopen, -⟩ | ⟨-, -, hfault, -⟩ | ⟨-, -, -, h⟩ := cramOpen_cases s
  · exact absurd (hb.symm.trans hunbound) (by decide)
  · exact absurd (ho.symm.trans hopen) (by decide)
  · exact absurd (hq.symm.trans hfault) (by decide)
  · exact h

/-- On aliased pins an open that succeeds inside a bracket is refused. -/
theorem cramOpen_clashes (hp : s.cfg.pinsAliased = true) (ha : s.flash.active = true) (hb : s.fpga.bound = true)
    (ho : s.cram.isOpen = false) (hq : quietAt .cramOpen s = true) (r : Host.Outcome State Fault Refusal) :
    s.unlessClash (cramOpen s) r = .refused .aliasedBusesBothHeld := by
  have hcram : (cramOpen s).cram = ⟨true, 0⟩ := (cramOpen_opens hb ho hq).cram
  exact unlessClash_of_both hp (congrArg CramRegs.isOpen hcram) (by rwa [cramOpen_flashRegs]) r

/-- On aliased pins an init that succeeds inside a session is refused. -/
theorem flashInit_clashes {freq : Word} (hp : s.cfg.pinsAliased = true) (ho : s.cram.isOpen = true)
    (h0 : freq ≠ 0) (hq : quietAt .flashInit s = true) (r : Host.Outcome State Fault Refusal) :
    s.unlessClash (flashInit freq s) r = .refused .aliasedBusesBothHeld :=
  unlessClash_of_both hp (by rwa [flashInit_cramRegs]) (opened_init h0 hq).active r

theorem flashHeld_of_inRange {len : Word} (h : len.toNat ≤ Config.maxLen) :
    flashHeld len s = flashInit s.flash.freqHz s := if_neg (Nat.not_lt.mpr h)

/-- An orchestration in range holds the flash bus as its init does (R194). -/
theorem flashHeld_clashes {len : Word} (hp : s.cfg.pinsAliased = true) (ho : s.cram.isOpen = true)
    (h0 : s.flash.freqHz ≠ 0) (hq : quietAt .flashInit s = true) (hlen : len.toNat ≤ Config.maxLen)
    (r : Host.Outcome State Fault Refusal) :
    s.unlessClash (flashHeld len s) r = .refused .aliasedBusesBothHeld := by
  rw [flashHeld_of_inRange hlen]
  exact flashInit_clashes hp ho h0 hq r

end

end Sys2Proof.Laws
end

section
/-! PROOFS. The statements of spec/70_reset_and_hazards.md. -/

namespace Sys2Proof.Proofs

open Sys2Proof.Machine Sys2Proof.Safety Sys2Proof.Laws

/-- Settles O13: a start releases CRESET before it runs the clock, a stop halts the clock before it drives CRESET low, and
no other instruction touches either. -/
theorem clockNeverRunsUnderLowReset : Obligations.ClockNeverRunsUnderLowReset := by
  intro i s t hs h
  have hsafe := not_clockedInReset_of_inv hs
  cases hi : isCommand i
  · obtain ⟨es, hframed, he⟩ := exec_framed hi h
    exact ⟨es, he.trace, framed_neverClocked hframed hsafe⟩
  · obtain ⟨es, _, _, _, _, hran, he⟩ := exec_ran hi h
    exact ⟨es, he.trace, ran_neverClocked hran hsafe⟩

/-- Settles O52: the open or the init that each command begins with succeeds, and then both buses are held. -/
theorem aliasedBusesAreRefused : Obligations.AliasedBusesAreRefused := by
  intro s hp
  refine ⟨fun ha hb ho hq => ?_, fun ho hq => ⟨fun freq h0 => ?_, fun h0 len hlen => ?_⟩⟩
  · have hclash := cramOpen_clashes hp ha hb ho hq
    exact ⟨hclash _, fun _ => hclash _⟩
  · exact flashInit_clashes hp ho h0 hq _
  · have hclash := flashHeld_clashes hp ho h0 hq hlen
    exact ⟨hclash _, hclash _⟩

end Sys2Proof.Proofs
end
